-- ==== Sys2Proof/Word.lean ====
section
/-! DEFINITION. The word types of the block: a byte (framebuffer, serial and host bytes) and a 16-bit host field. -/

namespace Sys2Proof

/-- One byte: bit `i` has weight `2^i` (`00_scope.md` R12). -/
abbrev Byte := BitVec 8

/-- A 16-bit host field, `s16` or `u16` (`30_encoding.md` R81, R83). -/
abbrev Half := BitVec 16

end Sys2Proof
end

