-- ==== Sys2Proof/Config.lean ====
section
/-! DEFINITION. The configuration record of one instance (`00_scope.md` R8, R10; `10_state.md` R28) and the one value
the spec leaves unspecified, the power-on contents of the framebuffer (`10_state.md` R22). -/

namespace Sys2Proof

/-- Whether `CLS` transfers (`40_pixel_ops.md` R126, parameter `CLS_FLUSH`). -/
inductive ClsFlush where
  | policy
  | always
  | never
deriving DecidableEq, Repr

/-- Strictness of the two comparisons of `LINE` (`44_raster_macros.md` R204, parameter `LINE_TIE`). -/
inductive LineTie where
  | nonstrict
  | strict
deriving DecidableEq, Repr

/-- The serial command byte constants, parameter `SERCMD` (`30_encoding.md` R90). The bias command is the parameter
`BIAS_CMD` and the contrast argument has the fixed base 0, so neither is a field. -/
structure SerCmd where
  colLo : Byte
  colHi : Byte
  page : Byte
  startLine : Byte
  adcNormal : Byte
  adcReverse : Byte
  comNormal : Byte
  comReverse : Byte
  dispNormal : Byte
  dispInvert : Byte
  allptsOff : Byte
  allptsOn : Byte
  powerAll : Byte
  boost : Byte
  boostArg : Byte
  contrast : Byte
  indOff : Byte
  indArg : Byte
  dispOn : Byte
  dispOff : Byte
deriving DecidableEq, Repr

/-- The configuration record, "selected once at construction" (`00_scope.md` R8). -/
structure ConfigRecord where
  /-- `W`, width in pixels. -/
  w : Nat
  /-- `H`, height in pixels. -/
  h : Nat
  /-- `P`, number of pages. -/
  p : Nat
  contrastDefault : Byte
  topviewOffset : Nat
  biasCmd : Byte
  initSeq : List Byte
  defaultFont : Half
  clsFlush : ClsFlush
  serCmd : SerCmd
  lineTie : LineTie
  newline : Byte
  /-- `Asset`: the external read-only byte sequences by handle (`10_state.md` R32). A handle not listed names no asset;
  of two entries with one handle the first is read. -/
  assets : List (Half × List Byte)
deriving DecidableEq, Repr

/-- The well-formedness predicate of `00_scope.md` R10. -/
abbrev ConfigRecord.WellFormed (r : ConfigRecord) : Prop :=
  1 ≤ r.w ∧ r.w ≤ 255 ∧ r.h = 8 * r.p ∧ (r.p = 4 ∨ r.p = 8) ∧ r.contrastDefault ≤ 63 ∧ r.topviewOffset ≤ 15

/-- A configuration of the block: a record that passes the check of R10. A record that fails it gives no block
(`60_exceptions.md` R263), so an ill-formed configuration cannot be built. -/
structure Config extends ConfigRecord where
  wellFormed : toConfigRecord.WellFormed
deriving DecidableEq, Repr

/-- The constructor that fails fast on an unsupported record (`00_scope.md` R10, `60_exceptions.md` R263). -/
def Config.ofRecord (r : ConfigRecord) : Option Config :=
  if h : r.WellFormed then some { toConfigRecord := r, wellFormed := h } else none

/-- FREE VALUE (log entry 5). The unspecified contents of the framebuffer after hardware reset: byte `a` of power-on draw
`draw`, "an arbitrary, fixed but unknown byte" (`10_state.md` R22, `93_implementation_defined.md` U1). It has no body:
nothing can be proved of it. -/
opaque Config.powerOnByte (draw a : Nat) : Byte

end Sys2Proof
end

