-- ==== Sys2Proof/Machine/Variants.lean ====
section
/-! DEFINITION. The serial command bytes with their operands (`30_encoding.md` R90, R91) and the default configurations of
the three variants (`00_scope.md` R8, `42_session_ops.md` R161, R162). Every default byte is general knowledge, not of the
source: PRESUMED, unsafe for a claim that names one (log entry 3). -/

namespace Sys2Proof

/-- The default constants of `30_encoding.md` R90. -/
def SerCmd.standard : SerCmd where
  colLo := 0x00
  colHi := 0x10
  page := 0xB0
  startLine := 0x40
  adcNormal := 0xA0
  adcReverse := 0xA1
  comNormal := 0xC0
  comReverse := 0xC8
  dispNormal := 0xA6
  dispInvert := 0xA7
  allptsOff := 0xA4
  allptsOn := 0xA5
  powerAll := 0x2F
  boost := 0xF8
  boostArg := 0x00
  contrast := 0x81
  indOff := 0xAC
  indArg := 0x00
  dispOn := 0xAF
  dispOff := 0xAE

/-- The default bias command, `BIAS_CMD` (R8, R90 row `C_BIAS`). -/
def biasStandard : Byte := 0xA2

/-- A command byte with its operand: "All sums are below 256" (R91). Log entry 19 for constants that overlap their operand. -/
def withOperand (base operand : Byte) : Byte := base + operand

/-- The contrast argument, `v & 0x3F` (R91). -/
def contrastByte (v : Byte) : Byte := v &&& 0x3F

/-- The bias-select byte with ratio bit `r` (R90: mask 0xFE, operand bit 0). -/
def biasByte (bias : Byte) (r : BitVec 1) : Byte := (bias &&& 0xFE) + r.setWidth 8

/-- The structure of `INIT_SEQ`, ten items in order (`42_session_ops.md` R161). -/
def initSeqOf (sc : SerCmd) (bias contrastDefault : Byte) : List Byte :=
  [withOperand sc.startLine 0, sc.adcReverse, sc.comNormal, sc.dispNormal, bias, sc.powerAll,
   sc.boost, sc.boostArg, sc.contrast, contrastByte contrastDefault, sc.indOff, sc.indArg, sc.dispOn]

/-- The record of a variant with every other parameter at its default (R8). No asset: "supplied by the environment". -/
def variantRecord (w p : Nat) (contrastDefault : Byte) (topviewOffset : Nat) : ConfigRecord where
  w := w
  h := 8 * p
  p := p
  contrastDefault := contrastDefault
  topviewOffset := topviewOffset
  biasCmd := biasStandard
  initSeq := initSeqOf SerCmd.standard biasStandard contrastDefault
  defaultFont := 0
  clsFlush := .policy
  serCmd := SerCmd.standard
  lineTie := .nonstrict
  newline := 0x0A
  assets := []

/-- V_SHORT: 132 x 32, 4 pages. -/
def vShort : Config where
  toConfigRecord := variantRecord 132 4 0x1F 0
  wellFormed := by decide

/-- V_TALL_A: 128 x 64, 8 pages. -/
def vTallA : Config where
  toConfigRecord := variantRecord 128 8 0x16 4
  wellFormed := by decide

/-- V_TALL_B: 128 x 64, 8 pages. -/
def vTallB : Config where
  toConfigRecord := variantRecord 128 8 0x10 4
  wellFormed := by decide

end Sys2Proof
end

