-- ==== Sys2Proof/Syntax.lean ====
section
/-! DEFINITION. The instructions: one constructor per row of spec/opcode_table.json. Host rows carry the operand fields of
`30_encoding.md` R82 as the packet gives them; serial rows carry the operand bits of R90. -/

namespace Sys2Proof

/-- Which argument byte the next command byte is, for the three two-byte commands (`30_encoding.md` R89, R94: second
bytes "are told from other commands by position, not by value"). -/
inductive SerialArg where
  /-- Directly after `C_BOOST`. -/
  | boost
  /-- Directly after `C_CONTRAST`. -/
  | contrast
  /-- Directly after `C_IND_OFF`. -/
  | indicator
deriving DecidableEq, Repr

/-- The opcode table. -/
inductive Instr where
  -- core host operations (R82, R84)
  | init
  | flush
  | sync
  | cls
  | updmode (m : Byte)
  | dmOn
  | dmOff
  | dmSleep
  | dmInvert
  | dmDefault
  | dmTopview
  | dmBottom
  | dmContrast
  | dispmodeReserved (mode : Byte)
  | dispmodevContrast (value : Byte)
  | dispmodevOther (mode value : Byte)
  | setpix (x y : Half) (c : Byte)
  | getpix (x y : Half)
  | point (x y : Half) (c : Byte)
  -- rasteriser macro-operations
  | line (x0 y0 x1 y1 : Half) (c : Byte)
  | rect (x0 y0 x1 y1 : Half) (c : Byte)
  | fillrect (x0 y0 x1 y1 : Half) (c : Byte)
  | roundrect (x0 y0 x1 y1 rnd : Half) (c : Byte)
  | fillrrect (x0 y0 x1 y1 rnd : Half) (c : Byte)
  | circle (x0 y0 r : Half) (c : Byte)
  | fillcircle (x0 y0 r : Half) (c : Byte)
  -- text and bitmap macro-operations
  | locate (x y : Byte)
  | font (h : Half)
  | wrchar (v : Byte)
  | textwidth (str : List Byte)
  | bitmap (h x y : Half)
  -- an opcode byte the table does not assign (R86 (a))
  | reservedHostOpcode (op : Byte)
  -- serial command bytes (R90)
  | cColLo (n : BitVec 4)
  | cColHi (n : BitVec 4)
  | cPage (n : BitVec 4)
  | cStartLine (n : BitVec 6)
  | cAdcNormal
  | cAdcReverse
  | cComNormal
  | cComReverse
  | cDispNormal
  | cDispInvert
  | cAllptsOff
  | cAllptsOn
  | cBias (r : BitVec 1)
  | cPowerAll
  | cBoost
  | cBoostArg
  | cContrast
  | contrastArgument (v : BitVec 6)
  | cIndOff
  | cIndArg
  | cDispOn
  | cDispOff
deriving DecidableEq, Repr

/-- The encoding space of a row (`30_encoding.md` R94): true for a byte carried by a `CMD` event. -/
def Instr.serial : Instr → Bool
  | .init => false
  | .flush => false
  | .sync => false
  | .cls => false
  | .updmode _ => false
  | .dmOn => false
  | .dmOff => false
  | .dmSleep => false
  | .dmInvert => false
  | .dmDefault => false
  | .dmTopview => false
  | .dmBottom => false
  | .dmContrast => false
  | .dispmodeReserved _ => false
  | .dispmodevContrast _ => false
  | .dispmodevOther _ _ => false
  | .setpix _ _ _ => false
  | .getpix _ _ => false
  | .point _ _ _ => false
  | .line _ _ _ _ _ => false
  | .rect _ _ _ _ _ => false
  | .fillrect _ _ _ _ _ => false
  | .roundrect _ _ _ _ _ _ => false
  | .fillrrect _ _ _ _ _ _ => false
  | .circle _ _ _ _ => false
  | .fillcircle _ _ _ _ => false
  | .locate _ _ => false
  | .font _ => false
  | .wrchar _ => false
  | .textwidth _ => false
  | .bitmap _ _ _ => false
  | .reservedHostOpcode _ => false
  | .cColLo _ => true
  | .cColHi _ => true
  | .cPage _ => true
  | .cStartLine _ => true
  | .cAdcNormal => true
  | .cAdcReverse => true
  | .cComNormal => true
  | .cComReverse => true
  | .cDispNormal => true
  | .cDispInvert => true
  | .cAllptsOff => true
  | .cAllptsOn => true
  | .cBias _ => true
  | .cPowerAll => true
  | .cBoost => true
  | .cBoostArg => true
  | .cContrast => true
  | .contrastArgument _ => true
  | .cIndOff => true
  | .cIndArg => true
  | .cDispOn => true
  | .cDispOff => true

end Sys2Proof
end

