-- ==== Sys2Proof/Machine/State.lean ====
section
/-! DEFINITION. The state of the machine as plain data: the architectural tuple of `10_state.md` R33, the configuration it
was constructed with (R28), the observations of `00_scope.md` R19 (trace and replies), the far side of the serial port
(`20_memory.md` R66, `42_session_ops.md` R183) and the input ports. -/

namespace Sys2Proof.Machine

/-- A serial-port event (`41_transfer_ops.md` R141 to R145). -/
inductive Event where
  /-- `BUSCFG` (R144). -/
  | busCfg
  /-- `RSTPULSE` (R143). -/
  | rstPulse
  /-- `CMD(b)` (R141). -/
  | cmd (b : Byte)
  /-- `DAT(b)` (R142). -/
  | dat (b : Byte)
  /-- `CSHIGH` (R145). -/
  | csHigh
deriving DecidableEq, Repr

/-- A reply on the host port as its bytes, the first returned first (`30_encoding.md` R81). -/
abbrev Reply := List Byte

/-- The framebuffer as it stands: the bytes written since hardware reset, by strictly rising address. An address not listed
holds no value yet (`10_state.md` R22). -/
abbrev Memory := List Host.Cell

/-- The canonical form: every address of the tail lies above the head's. No entry can equal what an unlisted address reads
as, because that is no value. -/
def Memory.wf : Memory → Bool
  | [] => true
  | [_] => true
  | c :: d :: rest => decide (c.1 < d.1) && Memory.wf (d :: rest)

/-- A scan direction of the controller, ADC or COM (`42_session_ops.md` R183). -/
inductive Scan where
  | normal
  | reverse
deriving DecidableEq, Repr

/-- The polarity of the controller (R183). -/
inductive Polarity where
  | normal
  | inverted
deriving DecidableEq, Repr

/-- Off or on: all points, display (R183). -/
inductive OnOff where
  | off
  | on
deriving DecidableEq, Repr

/-- The session view `SV` of R183: the last command of each group since the last reset pulse, `none` for unknown. Before the
first reset pulse every group is unknown (R183, `70_reset_and_hazards.md` R291). -/
structure SessionView where
  adc : Option Scan
  com : Option Scan
  polarity : Option Polarity
  allpts : Option OnOff
  display : Option OnOff
  contrast : Option (BitVec 6)
  inited : Bool
deriving DecidableEq, Repr

/-- Nothing is known since the last reset pulse. -/
def SessionView.unknown : SessionView where
  adc := none
  com := none
  polarity := none
  allpts := none
  display := none
  contrast := none
  inited := false

/-- The shadow of the display controller, general knowledge (R66; log entry 14): the session view, the column address
counter `ca = (colHi, colLo)`, the page register `pa`, the data RAM, and where the command stream stands. `none` and an
unlisted cell are unknown. -/
structure Panel where
  /-- Whether a reset pulse has occurred: the controller is "unknown until the first `RSTPULSE`" (R291). -/
  pulsed : Bool
  view : SessionView
  /-- What is left of `INIT_SEQ` since the last reset pulse, for `SV.inited`. -/
  initLeft : Option (List Byte)
  /-- Which argument byte the next command byte is, from the commands the block has sent (`30_encoding.md` R94). -/
  arg : Option SerialArg
  colHi : Option (BitVec 4)
  colLo : Option (BitVec 4)
  page : Option (BitVec 4)
  /-- `DDRAM[page][column]` at `page * 132 + column`. -/
  ddram : Memory
deriving DecidableEq, Repr

/-- The controller before the first reset pulse: unknown (`70_reset_and_hazards.md` R291). -/
def Panel.unknown : Panel where
  pulsed := false
  view := SessionView.unknown
  initLeft := none
  arg := none
  colHi := none
  colLo := none
  page := none
  ddram := []

/-- The lines of the serial port that a rule speaks of between events (R291). The data/command and clock lines are
unspecified between events and read by no rule (`93_implementation_defined.md` U17), so they have no field. -/
structure SerialLines where
  chipSelectAsserted : Bool
  resetAsserted : Bool
deriving DecidableEq, Repr

/-- "chip-select deasserted, reset line released" (R291). -/
def SerialLines.idle : SerialLines where
  chipSelectAsserted := false
  resetAsserted := false

/-- The faults of a step: none. "The block raises no exception" (`60_exceptions.md` R260), so the type has no constructor.
SAFE: no condition of the spec is hidden by it, because the spec has none that stops the block. -/
inductive Fault where
deriving DecidableEq, Repr

/-- The refusals of a step. The spec itself says that a model refuses in these places and that nothing may be invented
there (`60_exceptions.md` R264). -/
inductive Refusal where
  /-- Raised by an arm of `exec` whose instruction has no meaning yet: no arm is so. Safe. -/
  | notModelled (mnemonic : String)
  /-- Raised by `WRCHAR`, `TEXTWIDTH` and `BITMAP` when they read byte `i` of asset `h` and there is none (`10_state.md` R32,
  `93_implementation_defined.md` U6). Safe: the hardware goes on with an unknown byte, the model says nothing of it. -/
  | assetRead (h : Half) (i : Nat)
  /-- Raised by `ROUNDRECT` and `FILLRRECT` outside the precondition of their reference algorithm (`44_raster_macros.md`
  R211, R214; U4). Safe: the spec gives no pixel set there. -/
  | roundRectPrecondition
  /-- Raised by `CIRCLE` and `FILLCIRCLE` with a negative radius (R217, R220; U4). Safe: the spec gives no pixel set there. -/
  | negativeRadius
deriving DecidableEq, Repr

/-- The state. -/
structure State where
  /-- The configuration, fixed at construction: no step writes it (R28; log entry 1). -/
  cfg : Config
  /-- MODEL's own: which draw of the unspecified power-on contents `FB` holds (R22; log entries 5, 6). -/
  powerOn : Nat
  /-- `FB` (R22). -/
  fb : Memory
  /-- `topview` (R23). -/
  topview : Bool
  /-- `auto_update` (R24). -/
  autoUpdate : Bool
  /-- `char_x` (R26). -/
  charX : Byte
  /-- `char_y` (R26). -/
  charY : Byte
  /-- `font` (R27). -/
  font : Half
  /-- The trace `T`, oldest event first (R31). -/
  trace : List Event
  /-- The replies given, oldest first (`00_scope.md` R19). -/
  replies : List Reply
  /-- The serial lines (`70_reset_and_hazards.md` R291). -/
  lines : SerialLines
  /-- The controller's shadow (`20_memory.md` R66). -/
  panel : Panel
  /-- The bytes the host presents, in order (`30_encoding.md` R81; log entry 7). -/
  hostPort : List Byte
  /-- MODEL's own: command bytes the sequencer still has to send (`10_state.md` R29; log entry 10). -/
  seqCmds : List Byte
deriving DecidableEq, Repr

/-- The state right after hardware reset of a block constructed with `c` (`70_reset_and_hazards.md` R291), whose unspecified
framebuffer contents are those of draw `draw`. -/
def State.resetOf (c : Config) (draw : Nat) : State where
  cfg := c
  powerOn := draw
  fb := []
  topview := false
  autoUpdate := false
  charX := 0
  charY := 0
  font := c.defaultFont
  trace := []
  replies := []
  lines := SerialLines.idle
  panel := Panel.unknown
  hostPort := []
  seqCmds := []

/-- The machine right after reset: the first variant with its default parameters (log entry 2), draw 0 (log entry 6). -/
def State.reset : State := State.resetOf vShort 0

end Sys2Proof.Machine
end

