-- ==== Sys2Proof/Machine/Flags.lean ====
section
/-! DEFINITION. The two flags (`10_state.md` R23 to R25): how each is written and read. There is no other flag, and no
arithmetic flag. -/

namespace Sys2Proof.Machine

/-- Writes `topview` (`42_session_ops.md` R175). -/
def State.setTopview (v : Bool) (s : State) : State := { s with topview := v }

/-- Writes `auto_update` (`41_transfer_ops.md` R152, `42_session_ops.md` R160). -/
def State.setAutoUpdate (v : Bool) (s : State) : State := { s with autoUpdate := v }

/-- The new `auto_update` by the operand of `UPDMODE`: 1 is `AUTO`, 0 is `MANUAL`, the rest is ignored (R152, R85, R86 (c)). -/
def updateFlag (m : Byte) (old : Bool) : Bool :=
  if m = 1 then true else if m = 0 then false else old

/-- The column start `c0` of a page transfer (`41_transfer_ops.md` R148). -/
def State.columnStart (s : State) : Nat := if s.topview then s.cfg.topviewOffset else 0

end Sys2Proof.Machine
end

