-- ==== Sys2Proof/Machine/Operands.lean ====
section
/-! DEFINITION. How operands are read (`00_scope.md` R11, R13; `30_encoding.md` R83) and the addressing of one pixel
(`20_memory.md` R51 to R54). Arithmetic is over the mathematical integers. -/

namespace Sys2Proof.Machine

/-- An `s16` operand as an integer, `sext_16` (R83). -/
def signed (v : Half) : Int := v.toInt

/-- The colour operand as a truth value, "nonzero = set" (R83). -/
def lit (c : Byte) : Bool := c != 0

/-- Whether a coordinate pair is on the display (`40_pixel_ops.md` R120). -/
def inside (c : Config) (x y : Int) : Bool :=
  decide (0 ≤ x) && decide (x < c.w) && decide (0 ≤ y) && decide (y < c.h)

/-- The byte address of a pixel, `x + (y / 8) * W` (R53). -/
def pixelAddr (c : Config) (x y : Int) : Nat := x.toNat + y.toNat / 8 * c.w

/-- The bit of a pixel in its byte, `y mod 8` (R53). -/
def pixelBit (y : Int) : Nat := y.toNat % 8

/-- The size of the framebuffer in bytes, `W * P` (`00_scope.md` R9). -/
def fbSize (c : Config) : Nat := c.w * c.p

/-- Bit `k` of a byte, of weight `2^k`: `(v >> k) & 1` (`00_scope.md` R12). -/
def bitOf (v : Byte) (k : Nat) : Bool := v.getLsbD k

/-- A byte with bit `k` set or cleared (`40_pixel_ops.md` R120). -/
def putBit (v : Byte) (k : Nat) (on : Bool) : Byte :=
  if on then v ||| (1 <<< k) else v &&& (0xFF - (1 <<< k))

/-- Every integer from `a` to `b`, in order (the loop `for v in a .. b`). -/
def intRange (a b : Int) : List Int := (List.range (b - a + 1).toNat).map fun (k : Nat) => a + (k : Int)

/-- Byte `i` of asset `h`, where there is one (`10_state.md` R32). -/
def assetByte? (c : Config) (h : Half) (i : Nat) : Option Byte :=
  match c.assets.find? (fun e => e.1 == h) with
  | some e => e.2[i]?
  | none => none

/-- Byte `i` of asset `h`; a read outside the asset is refused (`10_state.md` R32, `93_implementation_defined.md` U6). -/
def assetByte (c : Config) (h : Half) (i : Nat) : Except Refusal Byte :=
  match assetByte? c h i with
  | some b => .ok b
  | none => .error (.assetRead h i)

end Sys2Proof.Machine
end

