-- ==== Sys2Proof/WellFormed.lean ====
section
/-! DEFINITION. Which terms of the syntax an encoding stands for. Every fixed-width operand admits all its values; four
rows are narrower than their fields. -/

namespace Sys2Proof

/-- The opcode bytes `30_encoding.md` R82 assigns. -/
def assignedOpcode (op : Byte) : Bool :=
  (0x01 ≤ op && op ≤ 0x0A) || (0x10 ≤ op && op ≤ 0x16) || (0x20 ≤ op && op ≤ 0x23) || op == 0x30

/-- The check of one instruction. `DISPMODE` codes 0 to 7 have rows of their own (R84), so the reserved row takes 8 to 255;
`DISPMODEV` with mode 7 has its own row; a string has at most 255 bytes (R87); a reserved opcode is an unassigned one (R86). -/
def Instr.wellFormed : Instr → Bool
  | .init => true
  | .flush => true
  | .sync => true
  | .cls => true
  | .updmode _ => true
  | .dmOn => true
  | .dmOff => true
  | .dmSleep => true
  | .dmInvert => true
  | .dmDefault => true
  | .dmTopview => true
  | .dmBottom => true
  | .dmContrast => true
  | .dispmodeReserved mode => decide (8 ≤ mode.toNat)
  | .dispmodevContrast _ => true
  | .dispmodevOther mode _ => decide (mode.toNat ≠ 7)
  | .setpix _ _ _ => true
  | .getpix _ _ => true
  | .point _ _ _ => true
  | .line _ _ _ _ _ => true
  | .rect _ _ _ _ _ => true
  | .fillrect _ _ _ _ _ => true
  | .roundrect _ _ _ _ _ _ => true
  | .fillrrect _ _ _ _ _ _ => true
  | .circle _ _ _ _ => true
  | .fillcircle _ _ _ _ => true
  | .locate _ _ => true
  | .font _ => true
  | .wrchar _ => true
  | .textwidth str => decide (str.length ≤ 255)
  | .bitmap _ _ _ => true
  | .reservedHostOpcode op => !assignedOpcode op
  | .cColLo _ => true
  | .cColHi _ => true
  | .cPage _ => true
  | .cStartLine _ => true
  | .cAdcNormal => true
  | .cAdcReverse => true
  | .cComNormal => true
  | .cComReverse => true
  | .cDispNormal => true
  | .cDispInvert => true
  | .cAllptsOff => true
  | .cAllptsOn => true
  | .cBias _ => true
  | .cPowerAll => true
  | .cBoost => true
  | .cBoostArg => true
  | .cContrast => true
  | .contrastArgument _ => true
  | .cIndOff => true
  | .cIndArg => true
  | .cDispOn => true
  | .cDispOff => true

end Sys2Proof
end

