-- ==== Sys2Proof/Decode.lean ====
section
/-! DEFINITION. The two encodings (`30_encoding.md` R80): host packets (R81-R87) and serial command bytes (R89-R91); the
decoders, then the encoder, then the words of spec/opcode_table.json. -/

namespace Sys2Proof

/-- Why the bytes on the host port are no operation. Every opcode byte has a packet (R86), so there are two reasons. -/
inductive DecodeError where
  /-- No byte is presented. -/
  | empty
  /-- The packet of opcode `op` is cut short (`93_implementation_defined.md` U8). -/
  | truncated (op : Byte)
deriving DecidableEq, Repr

/-- What the host decoder answers: an operation and the bytes after its packet, or a named error. -/
abbrev Decoded := Except DecodeError (Instr × List Byte)

/-- A two-byte field, most significant byte first (R81, R83). -/
def joinBytes (hi lo : Byte) : Half := hi ++ lo

/-- Reads a `u8` field and goes on. -/
def readU8 (op : Byte) (bytes : List Byte) (next : Byte → List Byte → Decoded) : Decoded :=
  match bytes with
  | b :: rest => next b rest
  | [] => .error (.truncated op)

/-- Reads an `s16` or `u16` field and goes on. -/
def readU16 (op : Byte) (bytes : List Byte) (next : Half → List Byte → Decoded) : Decoded :=
  match bytes with
  | hi :: lo :: rest => next (joinBytes hi lo) rest
  | _ => .error (.truncated op)

/-- The rows of one mode byte of `DISPMODE` (R84, R86 (b)). -/
def dispmodeRow (mode : Byte) : Instr :=
  match mode.toNat with
  | 0 => .dmOn
  | 1 => .dmOff
  | 2 => .dmSleep
  | 3 => .dmInvert
  | 4 => .dmDefault
  | 5 => .dmTopview
  | 6 => .dmBottom
  | 7 => .dmContrast
  | _ => .dispmodeReserved mode

/-- The operand fields `x0, y0, x1, y1, c` of the four-coordinate operations. -/
def readBox (op : Byte) (bytes : List Byte) (mk : Half → Half → Half → Half → Byte → Instr) : Decoded :=
  readU16 op bytes fun x0 r1 => readU16 op r1 fun y0 r2 => readU16 op r2 fun x1 r3 => readU16 op r3 fun y1 r4 =>
  readU8 op r4 fun c r5 => .ok (mk x0 y0 x1 y1 c, r5)

/-- The operand fields `x0, y0, x1, y1, rnd, c` of the rounded rectangles. -/
def readRoundBox (op : Byte) (bytes : List Byte) (mk : Half → Half → Half → Half → Half → Byte → Instr) : Decoded :=
  readU16 op bytes fun x0 r1 => readU16 op r1 fun y0 r2 => readU16 op r2 fun x1 r3 => readU16 op r3 fun y1 r4 =>
  readU16 op r4 fun rnd r5 => readU8 op r5 fun c r6 => .ok (mk x0 y0 x1 y1 rnd c, r6)

/-- The operand fields `x, y, c`. -/
def readSpot (op : Byte) (bytes : List Byte) (mk : Half → Half → Byte → Instr) : Decoded :=
  readU16 op bytes fun x r1 => readU16 op r1 fun y r2 => readU8 op r2 fun c r3 => .ok (mk x y c, r3)

/-- The operand fields `x0, y0, r, c`. -/
def readDisc (op : Byte) (bytes : List Byte) (mk : Half → Half → Half → Byte → Instr) : Decoded :=
  readU16 op bytes fun x r1 => readU16 op r1 fun y r2 => readU16 op r2 fun rad r3 =>
  readU8 op r3 fun c r4 => .ok (mk x y rad c, r4)

/-- The host decoder (R82, R86, R87). -/
def decodeHost : List Byte → Decoded
  | [] => .error .empty
  | op :: bytes =>
    match op.toNat with
    | 0x01 => .ok (.init, bytes)
    | 0x02 => .ok (.flush, bytes)
    | 0x03 => .ok (.sync, bytes)
    | 0x04 => .ok (.cls, bytes)
    | 0x05 => readU8 op bytes fun m r => .ok (.updmode m, r)
    | 0x06 => readU8 op bytes fun mode r => .ok (dispmodeRow mode, r)
    | 0x07 => readU8 op bytes fun mode r1 => readU8 op r1 fun value r2 =>
        .ok (if mode.toNat = 7 then .dispmodevContrast value else .dispmodevOther mode value, r2)
    | 0x08 => readSpot op bytes .setpix
    | 0x09 => readU16 op bytes fun x r1 => readU16 op r1 fun y r2 => .ok (.getpix x y, r2)
    | 0x0A => readSpot op bytes .point
    | 0x10 => readBox op bytes .line
    | 0x11 => readBox op bytes .rect
    | 0x12 => readBox op bytes .fillrect
    | 0x13 => readRoundBox op bytes .roundrect
    | 0x14 => readRoundBox op bytes .fillrrect
    | 0x15 => readDisc op bytes .circle
    | 0x16 => readDisc op bytes .fillcircle
    | 0x20 => readU8 op bytes fun x r1 => readU8 op r1 fun y r2 => .ok (.locate x y, r2)
    | 0x21 => readU16 op bytes fun h r => .ok (.font h, r)
    | 0x22 => readU8 op bytes fun v r => .ok (.wrchar v, r)
    | 0x23 => readU8 op bytes fun n r =>
        if n.toNat ≤ r.length then .ok (.textwidth (r.take n.toNat), r.drop n.toNat) else .error (.truncated op)
    | 0x30 => readU16 op bytes fun h r1 => readU16 op r1 fun x r2 => readU16 op r2 fun y r3 => .ok (.bitmap h x y, r3)
    | _ => .ok (.reservedHostOpcode op, bytes)

/-- One fixed row of the serial table: the whole byte. -/
def serialFixed (b : Byte) (rows : List (Byte × Instr)) : Option Instr :=
  match rows with
  | [] => none
  | (v, i) :: more => if b = v then some i else serialFixed b more

/-- The serial decoder: the row of `30_encoding.md` R90 that the command byte `b` is, at a command position (`none`) or as
the second byte of a two-byte command. `none` where no row has the byte.

DESIGN CHOICE (log entry 24), unsafe for a claim about such a configuration: where an overridden `SERCMD` makes two rows
match one byte the spec does not say which row it is. The first match is taken, in this order: column low, column high,
page, start line, bias, then the rows without operand in the order of the list below. The default constants collide
nowhere.

DESIGN CHOICE (log entry 25), unsafe for a claim about such a configuration: the spec does not say how a byte is recognised
where an overridden constant of a row with an operand has operand bits set. The byte under the mask is compared with the
constant as it stands, so `C_COL_LO`, `C_COL_HI`, `C_PAGE` and `C_START_LINE` then match no byte; `C_BIAS` is compared under
its mask on both sides, because `BIAS_CMD` holds its own ratio bit. The default constants have no operand bit set but
`BIAS_CMD`'s. -/
def decodeSerial (sc : SerCmd) (bias : Byte) (position : Option SerialArg) (b : Byte) : Option Instr :=
  match position with
  | some .boost => if b = sc.boostArg then some .cBoostArg else none
  | some .contrast => if b &&& 0xC0 = 0 then some (.contrastArgument (b.setWidth 6)) else none
  | some .indicator => if b = sc.indArg then some .cIndArg else none
  | none =>
    if b &&& 0xF0 = sc.colLo then some (.cColLo (b.setWidth 4))
    else if b &&& 0xF0 = sc.colHi then some (.cColHi (b.setWidth 4))
    else if b &&& 0xF0 = sc.page then some (.cPage (b.setWidth 4))
    else if b &&& 0xC0 = sc.startLine then some (.cStartLine (b.setWidth 6))
    else if b &&& 0xFE = bias &&& 0xFE then some (.cBias (b.setWidth 1))
    else serialFixed b
      [(sc.adcNormal, .cAdcNormal), (sc.adcReverse, .cAdcReverse), (sc.comNormal, .cComNormal),
       (sc.comReverse, .cComReverse), (sc.dispNormal, .cDispNormal), (sc.dispInvert, .cDispInvert),
       (sc.allptsOff, .cAllptsOff), (sc.allptsOn, .cAllptsOn), (sc.powerAll, .cPowerAll), (sc.boost, .cBoost),
       (sc.contrast, .cContrast), (sc.indOff, .cIndOff), (sc.dispOn, .cDispOn), (sc.dispOff, .cDispOff)]

/-! ## The encoder -/

/-- A two-byte field as its bytes, most significant first (R81). -/
def splitHalf (v : Half) : List Byte := [v.extractLsb' 8 8, v.extractLsb' 0 8]

/-- The bytes of an instruction: its host packet (R82) or its one serial command byte (R90). -/
def encode (sc : SerCmd) (bias : Byte) : Instr → List Byte
  | .init => [0x01]
  | .flush => [0x02]
  | .sync => [0x03]
  | .cls => [0x04]
  | .updmode m => [0x05, m]
  | .dmOn => [0x06, 0]
  | .dmOff => [0x06, 1]
  | .dmSleep => [0x06, 2]
  | .dmInvert => [0x06, 3]
  | .dmDefault => [0x06, 4]
  | .dmTopview => [0x06, 5]
  | .dmBottom => [0x06, 6]
  | .dmContrast => [0x06, 7]
  | .dispmodeReserved mode => [0x06, mode]
  | .dispmodevContrast value => [0x07, 7, value]
  | .dispmodevOther mode value => [0x07, mode, value]
  | .setpix x y c => 0x08 :: (splitHalf x ++ splitHalf y ++ [c])
  | .getpix x y => 0x09 :: (splitHalf x ++ splitHalf y)
  | .point x y c => 0x0A :: (splitHalf x ++ splitHalf y ++ [c])
  | .line x0 y0 x1 y1 c => 0x10 :: (splitHalf x0 ++ splitHalf y0 ++ splitHalf x1 ++ splitHalf y1 ++ [c])
  | .rect x0 y0 x1 y1 c => 0x11 :: (splitHalf x0 ++ splitHalf y0 ++ splitHalf x1 ++ splitHalf y1 ++ [c])
  | .fillrect x0 y0 x1 y1 c => 0x12 :: (splitHalf x0 ++ splitHalf y0 ++ splitHalf x1 ++ splitHalf y1 ++ [c])
  | .roundrect x0 y0 x1 y1 rnd c =>
      0x13 :: (splitHalf x0 ++ splitHalf y0 ++ splitHalf x1 ++ splitHalf y1 ++ splitHalf rnd ++ [c])
  | .fillrrect x0 y0 x1 y1 rnd c =>
      0x14 :: (splitHalf x0 ++ splitHalf y0 ++ splitHalf x1 ++ splitHalf y1 ++ splitHalf rnd ++ [c])
  | .circle x0 y0 r c => 0x15 :: (splitHalf x0 ++ splitHalf y0 ++ splitHalf r ++ [c])
  | .fillcircle x0 y0 r c => 0x16 :: (splitHalf x0 ++ splitHalf y0 ++ splitHalf r ++ [c])
  | .locate x y => [0x20, x, y]
  | .font h => 0x21 :: splitHalf h
  | .wrchar v => [0x22, v]
  | .textwidth str => 0x23 :: BitVec.ofNat 8 str.length :: str
  | .bitmap h x y => 0x30 :: (splitHalf h ++ splitHalf x ++ splitHalf y)
  | .reservedHostOpcode op => [op]
  | .cColLo n => [withOperand sc.colLo (n.setWidth 8)]
  | .cColHi n => [withOperand sc.colHi (n.setWidth 8)]
  | .cPage n => [withOperand sc.page (n.setWidth 8)]
  | .cStartLine n => [withOperand sc.startLine (n.setWidth 8)]
  | .cAdcNormal => [sc.adcNormal]
  | .cAdcReverse => [sc.adcReverse]
  | .cComNormal => [sc.comNormal]
  | .cComReverse => [sc.comReverse]
  | .cDispNormal => [sc.dispNormal]
  | .cDispInvert => [sc.dispInvert]
  | .cAllptsOff => [sc.allptsOff]
  | .cAllptsOn => [sc.allptsOn]
  | .cBias r => [biasByte bias r]
  | .cPowerAll => [sc.powerAll]
  | .cBoost => [sc.boost]
  | .cBoostArg => [sc.boostArg]
  | .cContrast => [sc.contrast]
  | .contrastArgument v => [v.setWidth 8]
  | .cIndOff => [sc.indOff]
  | .cIndArg => [sc.indArg]
  | .cDispOn => [sc.dispOn]
  | .cDispOff => [sc.dispOff]

/-- The position at which a serial row is read: the three "position-dependent" rows are second bytes (R94). -/
def serialPosition : Instr → Option SerialArg
  | .cBoostArg => some .boost
  | .contrastArgument _ => some .contrast
  | .cIndArg => some .indicator
  | _ => none

/-- The length of the packet that begins with these bytes (R87): by the opcode, and `2 + n` for `TEXTWIDTH`. -/
def packetLength : List Byte → Nat
  | [] => 0
  | op :: bytes =>
    match op.toNat with
    | 0x05 => 2
    | 0x06 => 2
    | 0x07 => 3
    | 0x08 => 6
    | 0x09 => 5
    | 0x0A => 6
    | 0x10 => 10
    | 0x11 => 10
    | 0x12 => 10
    | 0x13 => 12
    | 0x14 => 12
    | 0x15 => 8
    | 0x16 => 8
    | 0x20 => 3
    | 0x21 => 3
    | 0x22 => 2
    | 0x23 => 2 + (bytes.headD 0).toNat
    | 0x30 => 7
    | _ => 1

/-! ## The words of spec/opcode_table.json

The table numbers a host row's matched prefix with byte 0 most significant (R94): 8 bits, or the 16 bits of the rows that
begin 0x06 or 0x07. Any longer word is read with byte 0 in its lowest bits. The two encoding spaces share the 8-bit words:
an assigned host opcode is the host row, any other byte the serial row that has it at a command position, and what no row
has is the reserved host opcode (log entry 11). -/

/-- `n` bytes of a word, the lowest first. -/
def wordBytes : Nat → Nat → List Byte
  | 0, _ => []
  | n + 1, w => BitVec.ofNat 8 w :: wordBytes n (w / 256)

/-- The bytes a table word of `nbits` bits stands for, first byte first. -/
def tableBytes (nbits w : Nat) : List Byte :=
  if nbits = 16 ∧ (w / 256 = 6 ∨ w / 256 = 7) then (wordBytes 2 w).reverse else wordBytes (nbits / 8) w

/-- The host packet of a table word: operand bytes above the word are 0, and the packet ends where R87 says. -/
def tablePacket (nbits w : Nat) : List Byte :=
  let bytes := tableBytes nbits w ++ List.replicate 257 0
  bytes.take (packetLength bytes)

/-- The serial row of a table word, where it is one: one byte, no assigned host opcode, and a row of R90 has it. -/
def tableSerial (nbits w : Nat) : Option Byte :=
  match tableBytes nbits w with
  | [b] =>
    if assignedOpcode b then none
    else if (decodeSerial SerCmd.standard biasStandard none b).isSome then some b
    else none
  | _ => none

/-- The instruction the decoders read from a word of spec/opcode_table.json. -/
def decodeTableWord (nbits w : Nat) : Option Instr :=
  match tableSerial nbits w with
  | some b => decodeSerial SerCmd.standard biasStandard none b
  | none =>
    match decodeHost (tablePacket nbits w) with
    | .ok (i, _) => some i
    | .error _ => none

end Sys2Proof
end

