-- ==== Sys2Proof/Machine/Memory.lean ====
section
/-! DEFINITION. Reading and writing a memory in canonical form: one byte at a time, the only width there is
(`20_memory.md` R56). -/

namespace Sys2Proof.Machine

/-- The byte listed at an address, `none` where nothing has been written. -/
def Memory.read : Memory → Nat → Option Byte
  | [], _ => none
  | (b, w) :: m, a => if a = b then some w else Memory.read m a

/-- Writes one byte, keeping the addresses strictly rising. -/
def Memory.write : Memory → Nat → Byte → Memory
  | [], a, v => [(a, v)]
  | (b, w) :: m, a, v =>
    if a < b then (a, v) :: (b, w) :: m
    else if a = b then (a, v) :: m
    else (b, w) :: Memory.write m a v

/-- Writes 0x00 to every address below `n` (the loop of `40_pixel_ops.md` R126). -/
def Memory.clear (n : Nat) (m : Memory) : Memory :=
  (List.range n).map (fun a => (a, (0 : Byte))) ++ m.filter (fun c => decide (n ≤ c.1))

/-- Drops what is listed at the addresses of `which` (cells whose contents become unknown, R66). -/
def Memory.forget (which : Nat → Bool) (m : Memory) : Memory := m.filter fun c => !which c.1

end Sys2Proof.Machine
end

