-- ==== Sys2Proof/Machine/Panel.lean ====
section
/-! DEFINITION. What the far side of the serial port makes of an event: the level of the lines at its end
(`41_transfer_ops.md` R141 to R145), the session view (`42_session_ops.md` R183, R184) and the shadow of the display
controller (`20_memory.md` R66). The shadow is general knowledge, PRESUMED (log entry 14); no rule of the block reads it. -/

namespace Sys2Proof.Machine

/-- The lines at the end of an event: every transfer and `CSHIGH` end with chip-select deasserted, `RSTPULSE` with the
reset line released (R141, R142, R143, R145). -/
def SerialLines.after (l : SerialLines) : Event → SerialLines
  | .busCfg => l
  | .rstPulse => { l with resetAsserted := false }
  | .cmd _ => { l with chipSelectAsserted := false }
  | .dat _ => { l with chipSelectAsserted := false }
  | .csHigh => { l with chipSelectAsserted := false }

/-- The session view after a serial command: the last command of its group (R183). -/
def SessionView.after (v : SessionView) : Instr → SessionView
  | .cAdcNormal => { v with adc := some .normal }
  | .cAdcReverse => { v with adc := some .reverse }
  | .cComNormal => { v with com := some .normal }
  | .cComReverse => { v with com := some .reverse }
  | .cDispNormal => { v with polarity := some .normal }
  | .cDispInvert => { v with polarity := some .inverted }
  | .cAllptsOff => { v with allpts := some .off }
  | .cAllptsOn => { v with allpts := some .on }
  | .contrastArgument c => { v with contrast := some c }
  | .cDispOn => { v with display := some .on }
  | .cDispOff => { v with display := some .off }
  | _ => v

/-- The argument byte that follows a serial command: the second byte of the three two-byte commands (`30_encoding.md` R89,
R94). -/
def awaitedArg : Instr → Option SerialArg
  | .cBoost => some .boost
  | .cContrast => some .contrast
  | .cIndOff => some .indicator
  | _ => none

/-- What a serial command makes known of the controller (R66, R183): the address commands set the address, the rest change
the view. Commands leave `DDRAM` unchanged. -/
def Panel.learn (p : Panel) : Instr → Panel
  | .cColLo n => { p with colLo := some n }
  | .cColHi n => { p with colHi := some n }
  | .cPage n => { p with page := some n }
  | i => { p with view := p.view.after i }

/-- The controller takes one serial command. Before the first reset pulse nothing of it becomes known
(`70_reset_and_hazards.md` R291); the command stream moves on all the same. -/
def Panel.command (p : Panel) (i : Instr) : Panel :=
  let q := { p with arg := awaitedArg i }
  if p.pulsed then q.learn i else q

/-- A command byte that no row of R90 has (an overridden `INIT_SEQ`, R92): its effect is unknown, so the address is (log
entry 14).

DESIGN CHOICE (log entry 26), unsafe for a claim about such a stream: the spec does not say whether a byte follows it as its
argument. The next byte is read at a command position, also where the unlisted byte stood for an awaited argument; the
session view and the data RAM stay as they were. -/
def Panel.unknownCommand (p : Panel) : Panel :=
  { p with arg := none, colHi := none, colLo := none, page := none }

/-- The progress of `INIT_SEQ` since the last reset pulse by one command byte (R183, `SV.inited`). -/
def Panel.initProgress (p : Panel) (b : Byte) : Panel :=
  match p.initLeft with
  | some (x :: rest) =>
    if x = b then
      match rest with
      | [] => { p with initLeft := none, view := { p.view with inited := true } }
      | _ :: _ => { p with initLeft := some rest }
    else { p with initLeft := none }
  | _ => p

/-- The number of columns of the controller's data RAM (R66). -/
def panelColumns : Nat := 132

/-- Whether a part of the address that may be unknown can have the value `n`. -/
def mayBe (part : Option (BitVec 4)) (n : Nat) : Bool :=
  match part with
  | some v => v.toNat == n
  | none => true

/-- Whether the address can be that of a cell, the cells numbered as in `Panel.ddram`. -/
def Panel.mayAddress (p : Panel) (cell : Nat) : Bool :=
  mayBe p.page (cell / panelColumns) && mayBe p.colHi (cell % panelColumns / 16) &&
  mayBe p.colLo (cell % panelColumns % 16)

/-- The column address counter after a data byte, `(ca[7:4], ca[3:0])`: "`ca` increments by one (it does not wrap to the next
page and stops incrementing past the last column)" (R66), whatever the page is. Where one half of it is unknown, the other
stays known only if no value of the unknown half changes it: past column 127 the high half stands. -/
def nextColumn (hi lo : Option (BitVec 4)) : Option (BitVec 4) × Option (BitVec 4) :=
  match hi, lo with
  | some h, some l =>
    let ca := h.toNat * 16 + l.toNat
    if ca < panelColumns then (some (BitVec.ofNat 4 ((ca + 1) / 16)), some (BitVec.ofNat 4 ((ca + 1) % 16))) else (hi, lo)
  | some h, none => (if 8 ≤ h.toNat then hi else none, none)
  | none, _ => (none, none)

/-- `DDRAM` after a data byte: "written to `DDRAM[pa][ca]`", and nowhere past the last column (R66). Where a part of the address
is unknown, every cell it can be becomes unknown, and no other. -/
def Panel.storeData (p : Panel) (b : Byte) : Memory :=
  match p.colHi, p.colLo, p.page with
  | some hi, some lo, some pg =>
    let ca := hi.toNat * 16 + lo.toNat
    if ca < panelColumns then Memory.write p.ddram (pg.toNat * panelColumns + ca) b else p.ddram
  | _, _, _ => Memory.forget p.mayAddress p.ddram

/-- The controller takes one data byte (R66): the cell is written, then the column moves on. DESIGN CHOICE (log entry 26): an
awaited argument stays awaited. -/
def Panel.data (p : Panel) (b : Byte) : Panel :=
  { p with
    ddram := p.storeData b
    colHi := (nextColumn p.colHi p.colLo).1
    colLo := (nextColumn p.colHi p.colLo).2 }

/-- The controller at a reset pulse: the view and the address are unknown again, the count of `INIT_SEQ` begins, and the data
RAM stands, because it "changes only when `FLUSH` runs" (`20_memory.md` R61). DESIGN CHOICE (log entry 26): an argument
awaited before the pulse is awaited no longer. -/
def Panel.resetPulse (c : Config) (p : Panel) : Panel :=
  match c.initSeq with
  | [] => { Panel.unknown with pulsed := true, ddram := p.ddram, view := { SessionView.unknown with inited := true } }
  | _ :: _ => { Panel.unknown with pulsed := true, ddram := p.ddram, initLeft := some c.initSeq }

/-- What the far side makes of one event. Which row a command byte is, where overridden constants collide, is settled in
`decodeSerial` (log entry 24). -/
def Panel.observe (c : Config) (p : Panel) : Event → Panel
  | .busCfg => p
  | .rstPulse => p.resetPulse c
  | .cmd b =>
    let q := p.initProgress b
    match decodeSerial c.serCmd c.biasCmd q.arg b with
    | some i => q.command i
    | none => q.unknownCommand
  | .dat b => p.data b
  | .csHigh => p

/-- `DDRAM[page][column]`, where it is known (R66). -/
def Panel.cell (p : Panel) (page column : Nat) : Option Byte :=
  Memory.read p.ddram (page * panelColumns + column)

/-- The named session states of `42_session_ops.md` R185. -/
inductive PanelState where
  | on
  | off
  | sleep
  | allLit
deriving DecidableEq, Repr

/-- The named state a session view is in, where it is known. "After a reset pulse an ST7565R-class controller has all-points
off, so `allpts` is `off` after `INIT` in fact" (R185). -/
def SessionView.named (v : SessionView) : Option PanelState :=
  let allpts := if v.allpts = none ∧ v.inited = true then some .off else v.allpts
  match v.display, allpts with
  | some .on, some .off => some .on
  | some .off, some .off => some .off
  | some .off, some .on => some .sleep
  | some .on, some .on => some .allLit
  | _, _ => none

end Sys2Proof.Machine
end

