-- ==== Sys2Proof/Machine/Ops.lean ====
section
/-! DEFINITION. The shared operations: framebuffer bytes and pixels, the serial port, replies, the page transfer and the
update policy.

TAKING AN EXCEPTION AND RETURNING FROM ONE. The block has neither: "There is no trap entry sequence: no state is saved, no
mode changes, no vector is computed, because no trap exists" (`60_exceptions.md` R268), "There is no trap return operation
and no state to restore" (R269), and an operation that meets a condition of R261 simply ends. So there is no operation for
it here, and `Fault` has no constructor. -/

namespace Sys2Proof.Machine

/-! ## The framebuffer -/

/-- `FB[a]`: the byte last written, or the unspecified byte of power-on (`10_state.md` R22, `20_memory.md` R59). -/
def State.readByte (s : State) (a : Nat) : Byte :=
  (Memory.read s.fb a).getD (Config.powerOnByte s.powerOn a)

/-- `MemWrite(a, 1, v)` (`00_scope.md` R14). -/
def State.writeByte (a : Nat) (v : Byte) (s : State) : State := { s with fb := Memory.write s.fb a v }

/-- Writes 0x00 to every byte of `FB` (`40_pixel_ops.md` R126). -/
def State.zeroFb (s : State) : State := { s with fb := Memory.clear (fbSize s.cfg) s.fb }

/-- The pixel primitive (R120): outside the display nothing, inside one bit of one byte. -/
def State.setPixel (x y : Int) (on : Bool) (s : State) : State :=
  if inside s.cfg x y then
    s.writeByte (pixelAddr s.cfg x y) (putBit (s.readByte (pixelAddr s.cfg x y)) (pixelBit y) on)
  else s

/-- One pixel as read (R124): 0 outside the display. -/
def State.getPixel (s : State) (x y : Int) : Bool :=
  inside s.cfg x y && bitOf (s.readByte (pixelAddr s.cfg x y)) (pixelBit y)

/-- One call of the pixel primitive. -/
structure Dot where
  x : Int
  y : Int
  on : Bool
deriving DecidableEq, Repr

/-- A sequence of calls of the pixel primitive, in order (`44_raster_macros.md` R200). -/
def State.draw (dots : List Dot) (s : State) : State := dots.foldl (fun t d => t.setPixel d.x d.y d.on) s

/-- The dots of a list of points in one colour. -/
def dotsOf (on : Bool) (points : List (Int × Int)) : List Dot := points.map fun p => ⟨p.1, p.2, on⟩

/-! ## The serial port and the replies -/

/-- `emit` of a sequence of events (`41_transfer_ops.md` R140): the trace grows by them, and the far side takes them. -/
def State.emit (es : List Event) (s : State) : State :=
  { s with
    trace := s.trace ++ es
    lines := es.foldl SerialLines.after s.lines
    panel := es.foldl (Panel.observe s.cfg) s.panel }

/-- A sequence of command bytes, one `CMD` event each (R89, R141). -/
def State.sendCmds (bs : List Byte) (s : State) : State := s.emit (bs.map Event.cmd)

/-- `reply v` (`00_scope.md` R14), with the bytes of the reply in the order they are returned (`30_encoding.md` R81). -/
def State.reply (r : Reply) (s : State) : State := { s with replies := s.replies ++ [r] }

/-! ## The page transfer and the update policy -/

/-- The events of one page: the three address commands, then the data of the page's slice (`41_transfer_ops.md` R146). -/
def State.pageEvents (s : State) (pg : Nat) : List Event :=
  [.cmd (withOperand s.cfg.serCmd.colLo (BitVec.ofNat 8 s.columnStart)),
   .cmd (withOperand s.cfg.serCmd.colHi 0),
   .cmd (withOperand s.cfg.serCmd.page (BitVec.ofNat 8 pg))] ++
  (List.range s.cfg.w).map fun col => .dat (s.readByte (pg * s.cfg.w + col))

/-- The events of one page transfer (R146, R147). -/
def State.flushEvents (s : State) : List Event :=
  (List.range s.cfg.p).flatMap s.pageEvents ++ [.csHigh]

/-- The page transfer (R146): unconditional, `FB` is only read. -/
def State.flush (s : State) : State := s.emit s.flushEvents

/-- The terminal flush of a top-level drawing operation (R151). -/
def State.sync (s : State) : State := if s.autoUpdate then s.flush else s

/-- `CLS` (`40_pixel_ops.md` R126): every byte 0, then the transfer that `CLS_FLUSH` asks for. -/
def State.clear (s : State) : State :=
  match s.cfg.clsFlush with
  | .policy => s.zeroFb.sync
  | .always => s.zeroFb.flush
  | .never => s.zeroFb

/-- A drawing macro-operation (`44_raster_macros.md` R202): the pixel writes of all its helpers with no flush, `auto_update`
untouched, and one terminal `SYNC`. -/
def State.drawSync (dots : List Dot) (s : State) : State := (s.draw dots).sync

/-! ## The text registers -/

/-- Writes the cursor (`45_text_macros.md` R231). -/
def State.setCursor (x y : Byte) (s : State) : State := { s with charX := x, charY := y }

/-- Writes `font` (R232). -/
def State.setFont (h : Half) (s : State) : State := { s with font := h }

/-! ## The input ports -/

/-- The host port with the bytes after the packet that is taken. -/
def State.takeHost (rest : List Byte) (s : State) : State := { s with hostPort := rest }

/-- The sequencer with the command bytes that are left. -/
def State.takeSeq (rest : List Byte) (s : State) : State := { s with seqCmds := rest }

end Sys2Proof.Machine
end

