-- ==== Sys2Proof/Machine/Text.lean ====
section
/-! DEFINITION. Text macro-operations: LOCATE, FONT, WRCHAR, TEXTWIDTH (`45_text_macros.md`). A read outside the font asset is
refused (`10_state.md` R32); a refused operation has no result at all (`60_exceptions.md` R264, R269). -/

namespace Sys2Proof.Machine

/-- Byte `i` of the active font descriptor, `F[i]` (R233). -/
def State.fontByte (s : State) (i : Nat) : Except Refusal Byte := assetByte s.cfg s.font i

/-- Whether a character value is drawable: 32 to 127 (R234, R235; conflict C2). -/
def drawable (v : Byte) : Bool := decide (32 ≤ v.toNat) && decide (v.toNat ≤ 127)

/-- The index of a glyph record, `(c - 32) * bpg + 4` (R234). -/
def glyphIndex (v bpg : Byte) : Nat := (v.toNat - 32) * bpg.toNat + 4

/-- The new `char_y` of `advance_line()` for glyph height `gh` (R237). The comparison is over the integers. -/
def nextLine (c : Config) (gh y : Byte) : Byte :=
  if (c.h : Int) - gh.toNat ≤ (y.toNat : Int) + gh.toNat then 0 else y + gh

/-- Reads a sequence of bytes, refusing at the first that is missing. -/
def gather {α β : Type} (f : α → Except Refusal β) : List α → Except Refusal (List β)
  | [] => .ok []
  | a :: rest =>
    match f a with
    | .error e => .error e
    | .ok b =>
      match gather f rest with
      | .error e => .error e
      | .ok bs => .ok (b :: bs)

/-- The cells of a glyph, row by row: `(row, column)` (R239). -/
def glyphCells (gh gw : Byte) : List (Nat × Nat) :=
  (List.range gh.toNat).flatMap fun row => (List.range gw.toNat).map fun column => (row, column)

/-- One pixel of the glyph whose record is at `idx`, drawn from the cursor (R239): `strip` bytes follow the width byte. -/
def State.glyphDot (s : State) (idx : Nat) (bps : Byte) (cell : Nat × Nat) : Except Refusal Dot :=
  match s.fontByte (idx + 1 + (cell.2 * bps.toNat + cell.1 / 8)) with
  | .error e => .error e
  | .ok b => .ok ⟨(s.charX.toNat : Int) + cell.2, (s.charY.toNat : Int) + cell.1, bitOf b (cell.1 % 8)⟩

/-- The newline branch (R236): no pixel, no `SYNC`. -/
def State.newline (s : State) : Except Refusal State :=
  match s.fontByte 2 with
  | .error e => .error e
  | .ok gh => .ok (s.setCursor 0 (nextLine s.cfg gh s.charY))

/-- The width wrap of the printable branch (R238). -/
def State.wrapFor (s : State) (gw : Byte) : Except Refusal State :=
  if s.charX.toNat + gw.toNat > s.cfg.w then
    match s.fontByte 2 with
    | .error e => .error e
    | .ok gh => .ok (s.setCursor 0 (nextLine s.cfg gh s.charY))
  else .ok s

/-- Blit and advance (R239): the glyph's whole cell is written, then `char_x` advances by the glyph's own width. -/
def State.blitGlyph (s : State) (idx : Nat) (gw : Byte) : Except Refusal State :=
  match s.fontByte 2 with
  | .error e => .error e
  | .ok gh =>
    match s.fontByte 3 with
    | .error e => .error e
    | .ok bps =>
      match gather (s.glyphDot idx bps) (glyphCells gh gw) with
      | .error e => .error e
      | .ok dots => .ok ((s.draw dots).setCursor (s.charX + gw) s.charY)

/-- The printable branch (R238, R239), without its `SYNC`. -/
def State.putGlyph (s : State) (v : Byte) : Except Refusal State :=
  match s.fontByte 0 with
  | .error e => .error e
  | .ok bpg =>
    match s.fontByte (glyphIndex v bpg) with
    | .error e => .error e
    | .ok gw =>
      match s.wrapFor gw with
      | .error e => .error e
      | .ok t => t.blitGlyph (glyphIndex v bpg) gw

/-- The width a character adds to `TEXTWIDTH` (R243): its declared width, or nothing if it is not drawable. -/
def State.charWidth (s : State) (v : Byte) : Except Refusal Nat :=
  if drawable v then
    match s.fontByte 0 with
    | .error e => .error e
    | .ok bpg =>
      match s.fontByte (glyphIndex v bpg) with
      | .error e => .error e
      | .ok gw => .ok gw.toNat
  else .ok 0

/-! ## The meanings -/

/-- `LOCATE x, y` (R231): stored unchecked. -/
def execLocate (x y : Byte) (s : State) : Host.Outcome State Fault Refusal :=
  .next (s.setCursor x y)

/-- `FONT h` (R232): no validation. -/
def execFont (h : Half) (s : State) : Host.Outcome State Fault Refusal :=
  .next (s.setFont h)

/-- `WRCHAR v` (R235): the newline test first, then the range test; any other value changes nothing (R240). -/
def execWrchar (v : Byte) (s : State) : Host.Outcome State Fault Refusal :=
  if v = s.cfg.newline then
    match s.newline with
    | .ok t => .next t
    | .error e => .refused e
  else if drawable v then
    match s.putGlyph v with
    | .ok t => .next t.sync
    | .error e => .refused e
  else .next s

/-- `TEXTWIDTH n, s[0..n-1]` (R243): replies the sum of the declared widths as a `u16`, most significant byte first
(`30_encoding.md` R81); no state change. -/
def execTextwidth (str : List Byte) (s : State) : Host.Outcome State Fault Refusal :=
  match gather s.charWidth str with
  | .ok widths => .next (s.reply (splitHalf (BitVec.ofNat 16 widths.sum)))
  | .error e => .refused e

end Sys2Proof.Machine
end

