-- ==== Sys2Proof/Machine/Bitmap.lean ====
section
/-! DEFINITION. The bitmap macro-operation BITMAP (`46_bitmap_macro.md`). -/

namespace Sys2Proof.Machine

/-- The source pixels the loops of R252 visit, row by row, as `(v, u)`: each loop ends at its first destination row or
column beyond the display ("break"). -/
def bitmapCells (c : Config) (bw bh : Byte) (x y : Int) : List (Nat × Nat) :=
  ((List.range bh.toNat).takeWhile fun (v : Nat) => decide (y + (v : Int) < c.h)).flatMap fun v =>
    ((List.range bw.toNat).takeWhile fun (u : Nat) => decide (x + (u : Int) < c.w)).map fun u => (v, u)

/-- One pixel of the bitmap at its destination (R251, R252): most significant bit first. -/
def bitmapDot (c : Config) (h : Half) (bs : Byte) (x y : Int) (cell : Nat × Nat) : Except Refusal Dot :=
  match assetByte c h (3 + cell.1 * bs.toNat + cell.2 / 8) with
  | .error e => .error e
  | .ok b => .ok ⟨x + cell.2, y + cell.1, bitOf b (7 - cell.2 % 8)⟩

/-- The calls of the pixel primitive of `BITMAP`, in order: header, then the visited pixels (R252). -/
def bitmapDots (c : Config) (h : Half) (x y : Int) : Except Refusal (List Dot) :=
  match assetByte c h 0 with
  | .error e => .error e
  | .ok bw =>
    match assetByte c h 1 with
    | .error e => .error e
    | .ok bh =>
      match assetByte c h 2 with
      | .error e => .error e
      | .ok bs => gather (bitmapDot c h bs x y) (bitmapCells c bw bh x y)

/-- `BITMAP h, x, y` (R252), with its terminal `SYNC`. -/
def execBitmap (h x y : Half) (s : State) : Host.Outcome State Fault Refusal :=
  match bitmapDots s.cfg h (signed x) (signed y) with
  | .ok dots => .next (s.drawSync dots)
  | .error e => .refused e

end Sys2Proof.Machine
end

