-- ==== Sys2Proof/Machine/Pixel.lean ====
section
/-! DEFINITION. Pixel operations: SETPIX, GETPIX, CLS, POINT (`40_pixel_ops.md`). -/

namespace Sys2Proof.Machine

/-- `SETPIX x, y, c` (R120): no event, no reply. -/
def execSetpix (x y : Half) (c : Byte) (s : State) : Host.Outcome State Fault Refusal :=
  .next (s.setPixel (signed x) (signed y) (lit c))

/-- `GETPIX x, y` (R124): replies the pixel as one byte, 0 outside the display. -/
def execGetpix (x y : Half) (s : State) : Host.Outcome State Fault Refusal :=
  .next (s.reply [if s.getPixel (signed x) (signed y) then 1 else 0])

/-- `CLS` (R126). -/
def execCls (s : State) : Host.Outcome State Fault Refusal :=
  .next s.clear

/-- `POINT x, y, c` (R128): `SETPIX` then `SYNC`, the `SYNC` also for a dropped pixel. -/
def execPoint (x y : Half) (c : Byte) (s : State) : Host.Outcome State Fault Refusal :=
  .next (s.setPixel (signed x) (signed y) (lit c)).sync

end Sys2Proof.Machine
end

