-- ==== Sys2Proof/Machine/Raster.lean ====
section
/-! DEFINITION. Rasteriser macro-operations (`44_raster_macros.md`): each is its sequence of `SETPIX` calls, then one `SYNC`
(R200, R202). Coordinates are mathematical integers throughout (R200). -/

namespace Sys2Proof.Machine

/-! ## Lines (R203 to R205) -/

/-- The comparison of `e2` with `dy` that steps `x`, by `LINE_TIE` (R203, R204). -/
def lineStepsX (tie : LineTie) (e2 dy : Int) : Bool :=
  match tie with
  | .nonstrict => decide (dy ≤ e2)
  | .strict => decide (dy < e2)

/-- The comparison of `e2` with `dx` that steps `y`. -/
def lineStepsY (tie : LineTie) (e2 dx : Int) : Bool :=
  match tie with
  | .nonstrict => decide (e2 ≤ dx)
  | .strict => decide (e2 < dx)

/-- What the loop of `line` keeps fixed: the tie rule, `dx`, `dy`, the step signs and the end point. -/
structure LineJob where
  tie : LineTie
  dx : Int
  dy : Int
  sx : Int
  sy : Int
  x1 : Int
  y1 : Int
deriving DecidableEq, Repr

/-- The loop of `line` (R203) from `(x, y)` with error `err`, for at most `fuel` plots. -/
def lineLoop (j : LineJob) : Nat → Int → Int → Int → List (Int × Int)
  | 0, _, _, _ => []
  | fuel + 1, x, y, err =>
    (x, y) ::
    if x = j.x1 ∧ y = j.y1 then []
    else
      let e2 := 2 * err
      let stepX := lineStepsX j.tie e2 j.dy
      let stepY := lineStepsY j.tie e2 j.dx
      lineLoop j fuel (if stepX then x + j.sx else x) (if stepY then y + j.sy else y)
        (err + (if stepX then j.dy else 0) + (if stepY then j.dx else 0))

/-- The set-up of `line` (R203). -/
def lineJob (tie : LineTie) (x0 y0 x1 y1 : Int) : LineJob where
  tie := tie
  dx := |x1 - x0|
  dy := -|y1 - y0|
  sx := if x0 < x1 then 1 else -1
  sy := if y0 < y1 then 1 else -1
  x1 := x1
  y1 := y1

/-- How many points a line plots: `max(|x1-x0|, |y1-y0|) + 1` (R205 (b)). -/
def lineLength (x0 y0 x1 y1 : Int) : Nat := max (x1 - x0).natAbs (y1 - y0).natAbs + 1

/-- The points of `line(x0, y0, x1, y1)` in order. The fuel is the number of plots of R205 (b) (log entry 18). -/
def linePoints (tie : LineTie) (x0 y0 x1 y1 : Int) : List (Int × Int) :=
  let j := lineJob tie x0 y0 x1 y1
  lineLoop j (lineLength x0 y0 x1 y1) x0 y0 (j.dx + j.dy)

/-! ## Rectangles (R206, R208) -/

/-- The four edges (R206). -/
def rectPoints (tie : LineTie) (x0 y0 x1 y1 : Int) : List (Int × Int) :=
  linePoints tie x0 y0 x1 y0 ++ linePoints tie x0 y1 x1 y1 ++
  linePoints tie x0 y0 x0 y1 ++ linePoints tie x1 y0 x1 y1

/-- Every point of the rows `ya` to `yb`, columns `xa` to `xb`, row by row. -/
def gridPoints (xa xb ya yb : Int) : List (Int × Int) :=
  (intRange ya yb).flatMap fun y => (intRange xa xb).map fun x => (x, y)

/-- The inclusive rectangle after the two independent swaps (R208). -/
def fillRectPoints (x0 y0 x1 y1 : Int) : List (Int × Int) :=
  gridPoints (min x0 x1) (max x0 x1) (min y0 y1) (max y0 y1)

/-! ## Curved shapes: the spec's reference algorithms (R209 to R220; log entry 17) -/

/-- The loop of the arc stepper (R209) from `(x, y)` with error `err`, for at most `fuel` offsets. -/
def arcLoop : Nat → Int → Int → Int → List (Int × Int)
  | 0, _, _, _ => []
  | fuel + 1, x, y, err =>
    (-x, y) ::
    let stepY := decide (err ≤ y)
    let y' := if stepY then y + 1 else y
    let err' := if stepY then err + 2 * y' + 1 else err
    let stepX := decide (err > x) || decide (err' > y')
    let x' := if stepX then x + 1 else x
    let err'' := if stepX then err' + 2 * x' + 1 else err'
    if x' > 0 then [] else arcLoop fuel x' y' err''

/-- `arc(r)` (R209). The fuel is the bound "at most `2*r + 1` offsets" (log entry 18). -/
def arcOffsets (r : Int) : List (Int × Int) := arcLoop (2 * r.toNat + 1) (-r) 0 (2 - 2 * r)

/-- The precondition of the rounded rectangles (R211). -/
def roundRectOk (x0 y0 x1 y1 rnd : Int) : Bool :=
  decide (x0 ≤ x1) && decide (y0 ≤ y1) && decide (0 ≤ rnd) && decide (2 * rnd ≤ x1 - x0) && decide (2 * rnd ≤ y1 - y0)

/-- Edges and corner arcs of a rounded rectangle (R211). -/
def roundRectPoints (tie : LineTie) (x0 y0 x1 y1 rnd : Int) : List (Int × Int) :=
  linePoints tie (x0 + rnd) y0 (x1 - rnd) y0 ++ linePoints tie (x0 + rnd) y1 (x1 - rnd) y1 ++
  linePoints tie x0 (y0 + rnd) x0 (y1 - rnd) ++ linePoints tie x1 (y0 + rnd) x1 (y1 - rnd) ++
  (arcOffsets rnd).flatMap fun a =>
    [(x1 - rnd + a.1, y1 - rnd + a.2), (x0 + rnd - a.1, y1 - rnd + a.2),
     (x0 + rnd - a.1, y0 + rnd - a.2), (x1 - rnd + a.1, y0 + rnd - a.2)]

/-- A filled rounded rectangle (R214): the outline, the band between the rounded bands, the cap rows. -/
def fillRoundRectPoints (tie : LineTie) (x0 y0 x1 y1 rnd : Int) : List (Int × Int) :=
  roundRectPoints tie x0 y0 x1 y1 rnd ++ gridPoints x0 x1 (y0 + rnd) (y1 - rnd) ++
  (arcOffsets rnd).flatMap fun a =>
    linePoints tie (x0 + rnd - a.1) (y0 + rnd - a.2) (x1 - rnd + a.1) (y0 + rnd - a.2) ++
    linePoints tie (x0 + rnd - a.1) (y1 - rnd + a.2) (x1 - rnd + a.1) (y1 - rnd + a.2)

/-- A circle: four reflected points per offset (R217). -/
def circlePoints (x0 y0 r : Int) : List (Int × Int) :=
  (arcOffsets r).flatMap fun a =>
    [(x0 + a.1, y0 + a.2), (x0 - a.1, y0 + a.2), (x0 - a.1, y0 - a.2), (x0 + a.1, y0 - a.2)]

/-- A filled circle: two scan lines per offset (R220). -/
def fillCirclePoints (tie : LineTie) (x0 y0 r : Int) : List (Int × Int) :=
  (arcOffsets r).flatMap fun a =>
    linePoints tie (x0 - a.1) (y0 + a.2) (x0 + a.1) (y0 + a.2) ++
    linePoints tie (x0 - a.1) (y0 - a.2) (x0 + a.1) (y0 - a.2)

/-! ## The meanings -/

/-- `LINE x0, y0, x1, y1, c` (R203). -/
def execLine (x0 y0 x1 y1 : Half) (c : Byte) (s : State) : Host.Outcome State Fault Refusal :=
  .next (s.drawSync (dotsOf (lit c) (linePoints s.cfg.lineTie (signed x0) (signed y0) (signed x1) (signed y1))))

/-- `RECT x0, y0, x1, y1, c` (R206). -/
def execRect (x0 y0 x1 y1 : Half) (c : Byte) (s : State) : Host.Outcome State Fault Refusal :=
  .next (s.drawSync (dotsOf (lit c) (rectPoints s.cfg.lineTie (signed x0) (signed y0) (signed x1) (signed y1))))

/-- `FILLRECT x0, y0, x1, y1, c` (R208). -/
def execFillrect (x0 y0 x1 y1 : Half) (c : Byte) (s : State) : Host.Outcome State Fault Refusal :=
  .next (s.drawSync (dotsOf (lit c) (fillRectPoints (signed x0) (signed y0) (signed x1) (signed y1))))

/-- `ROUNDRECT x0, y0, x1, y1, rnd, c` (R211), refused outside the precondition (U4; log entry 16). -/
def execRoundrect (x0 y0 x1 y1 rnd : Half) (c : Byte) (s : State) : Host.Outcome State Fault Refusal :=
  if roundRectOk (signed x0) (signed y0) (signed x1) (signed y1) (signed rnd) then
    .next (s.drawSync (dotsOf (lit c)
      (roundRectPoints s.cfg.lineTie (signed x0) (signed y0) (signed x1) (signed y1) (signed rnd))))
  else .refused .roundRectPrecondition

/-- `FILLRRECT x0, y0, x1, y1, rnd, c` (R214), refused outside the precondition (U4; log entry 16). -/
def execFillrrect (x0 y0 x1 y1 rnd : Half) (c : Byte) (s : State) : Host.Outcome State Fault Refusal :=
  if roundRectOk (signed x0) (signed y0) (signed x1) (signed y1) (signed rnd) then
    .next (s.drawSync (dotsOf (lit c)
      (fillRoundRectPoints s.cfg.lineTie (signed x0) (signed y0) (signed x1) (signed y1) (signed rnd))))
  else .refused .roundRectPrecondition

/-- `CIRCLE x0, y0, r, c` (R217), refused for a negative radius (U4; log entry 16). -/
def execCircle (x0 y0 r : Half) (c : Byte) (s : State) : Host.Outcome State Fault Refusal :=
  if signed r < 0 then .refused .negativeRadius
  else .next (s.drawSync (dotsOf (lit c) (circlePoints (signed x0) (signed y0) (signed r))))

/-- `FILLCIRCLE x0, y0, r, c` (R220), refused for a negative radius (U4; log entry 16). -/
def execFillcircle (x0 y0 r : Half) (c : Byte) (s : State) : Host.Outcome State Fault Refusal :=
  if signed r < 0 then .refused .negativeRadius
  else .next (s.drawSync (dotsOf (lit c) (fillCirclePoints s.cfg.lineTie (signed x0) (signed y0) (signed r))))

end Sys2Proof.Machine
end

