-- ==== Sys2Proof/Machine/Serial.lean ====
section
/-! DEFINITION. The serial command bytes of `30_encoding.md` R90 as instructions: each sends its byte as one `CMD` event
(`41_transfer_ops.md` R141, R89), which the far side takes (`Panel.observe`). Nothing else of the block changes. Log
entry 10 says when the sequencer runs one by itself. -/

namespace Sys2Proof.Machine

/-- `C_COL_LO` (R90): column address low nibble. -/
def execCColLo (n : BitVec 4) (s : State) : Host.Outcome State Fault Refusal :=
  .next (s.sendCmds [withOperand s.cfg.serCmd.colLo (n.setWidth 8)])

/-- `C_COL_HI` (R90): column address high nibble. -/
def execCColHi (n : BitVec 4) (s : State) : Host.Outcome State Fault Refusal :=
  .next (s.sendCmds [withOperand s.cfg.serCmd.colHi (n.setWidth 8)])

/-- `C_PAGE` (R90): page address. -/
def execCPage (n : BitVec 4) (s : State) : Host.Outcome State Fault Refusal :=
  .next (s.sendCmds [withOperand s.cfg.serCmd.page (n.setWidth 8)])

/-- `C_START_LINE` (R90): start line. -/
def execCStartLine (n : BitVec 6) (s : State) : Host.Outcome State Fault Refusal :=
  .next (s.sendCmds [withOperand s.cfg.serCmd.startLine (n.setWidth 8)])

/-- `C_ADC_NORMAL` (R90): ADC-normal. -/
def execCAdcNormal (s : State) : Host.Outcome State Fault Refusal :=
  .next (s.sendCmds [s.cfg.serCmd.adcNormal])

/-- `C_ADC_REVERSE` (R90): ADC-reverse. -/
def execCAdcReverse (s : State) : Host.Outcome State Fault Refusal :=
  .next (s.sendCmds [s.cfg.serCmd.adcReverse])

/-- `C_COM_NORMAL` (R90): COM-normal. -/
def execCComNormal (s : State) : Host.Outcome State Fault Refusal :=
  .next (s.sendCmds [s.cfg.serCmd.comNormal])

/-- `C_COM_REVERSE` (R90): COM-reversed. -/
def execCComReverse (s : State) : Host.Outcome State Fault Refusal :=
  .next (s.sendCmds [s.cfg.serCmd.comReverse])

/-- `C_DISP_NORMAL` (R90): normal-display, default-polarity. -/
def execCDispNormal (s : State) : Host.Outcome State Fault Refusal :=
  .next (s.sendCmds [s.cfg.serCmd.dispNormal])

/-- `C_DISP_INVERT` (R90): invert. -/
def execCDispInvert (s : State) : Host.Outcome State Fault Refusal :=
  .next (s.sendCmds [s.cfg.serCmd.dispInvert])

/-- `C_ALLPTS_OFF` (R90): all points off. -/
def execCAllptsOff (s : State) : Host.Outcome State Fault Refusal :=
  .next (s.sendCmds [s.cfg.serCmd.allptsOff])

/-- `C_ALLPTS_ON` (R90): all points on. -/
def execCAllptsOn (s : State) : Host.Outcome State Fault Refusal :=
  .next (s.sendCmds [s.cfg.serCmd.allptsOn])

/-- `C_BIAS` (R90): bias-select, ratio bit 0. -/
def execCBias (r : BitVec 1) (s : State) : Host.Outcome State Fault Refusal :=
  .next (s.sendCmds [biasByte s.cfg.biasCmd r])

/-- `C_POWER_ALL` (R90): booster/regulator/follower-on. -/
def execCPowerAll (s : State) : Host.Outcome State Fault Refusal :=
  .next (s.sendCmds [s.cfg.serCmd.powerAll])

/-- `C_BOOST` (R90): booster-ratio-select, first byte. -/
def execCBoost (s : State) : Host.Outcome State Fault Refusal :=
  .next (s.sendCmds [s.cfg.serCmd.boost])

/-- `C_BOOST_ARG` (R90): booster-ratio-select, second byte. -/
def execCBoostArg (s : State) : Host.Outcome State Fault Refusal :=
  .next (s.sendCmds [s.cfg.serCmd.boostArg])

/-- `C_CONTRAST` (R90): contrast command. -/
def execCContrast (s : State) : Host.Outcome State Fault Refusal :=
  .next (s.sendCmds [s.cfg.serCmd.contrast])

/-- `(contrast argument)` (R90): contrast value. -/
def execContrastArgument (v : BitVec 6) (s : State) : Host.Outcome State Fault Refusal :=
  .next (s.sendCmds [v.setWidth 8])

/-- `C_IND_OFF` (R90): indicator-off, first byte. -/
def execCIndOff (s : State) : Host.Outcome State Fault Refusal :=
  .next (s.sendCmds [s.cfg.serCmd.indOff])

/-- `C_IND_ARG` (R90): indicator-off, second byte. -/
def execCIndArg (s : State) : Host.Outcome State Fault Refusal :=
  .next (s.sendCmds [s.cfg.serCmd.indArg])

/-- `C_DISP_ON` (R90): display on. -/
def execCDispOn (s : State) : Host.Outcome State Fault Refusal :=
  .next (s.sendCmds [s.cfg.serCmd.dispOn])

/-- `C_DISP_OFF` (R90): display off. -/
def execCDispOff (s : State) : Host.Outcome State Fault Refusal :=
  .next (s.sendCmds [s.cfg.serCmd.dispOff])

end Sys2Proof.Machine
end

