-- ==== Sys2Proof/Machine/Session.lean ====
section
/-! DEFINITION. Session operations: INIT, the DISPMODE modes, DISPMODEV and the reserved opcodes (`42_session_ops.md`,
`30_encoding.md` R86). -/

namespace Sys2Proof.Machine

/-- `INIT` (R160): bus configuration, reset pulse, `INIT_SEQ`, the whole of `CLS` with the old `auto_update` (R165), then
the flag and register writes. `topview` is not written (R167). -/
def execInit (s : State) : Host.Outcome State Fault Refusal :=
  let sent := (s.emit [.busCfg, .rstPulse]).sendCmds s.cfg.initSeq
  .next (((sent.clear.setAutoUpdate true).setCursor 0 0).setFont s.cfg.defaultFont)

/-- `DM_ON` (R170). -/
def execDmOn (s : State) : Host.Outcome State Fault Refusal :=
  .next (s.sendCmds [s.cfg.serCmd.allptsOff, s.cfg.serCmd.dispOn])

/-- `DM_OFF` (R171). -/
def execDmOff (s : State) : Host.Outcome State Fault Refusal :=
  .next (s.sendCmds [s.cfg.serCmd.dispOff])

/-- `DM_SLEEP` (R172). -/
def execDmSleep (s : State) : Host.Outcome State Fault Refusal :=
  .next (s.sendCmds [s.cfg.serCmd.allptsOn, s.cfg.serCmd.dispOff])

/-- `DM_INVERT` (R173): `FB` is not complemented. -/
def execDmInvert (s : State) : Host.Outcome State Fault Refusal :=
  .next (s.sendCmds [s.cfg.serCmd.dispInvert])

/-- `DM_DEFAULT` (R174). -/
def execDmDefault (s : State) : Host.Outcome State Fault Refusal :=
  .next (s.sendCmds [s.cfg.serCmd.dispNormal])

/-- `DM_TOPVIEW` (R176): the flag first, then the commands, then an unconditional transfer (R175). -/
def execDmTopview (s : State) : Host.Outcome State Fault Refusal :=
  .next ((s.setTopview true).sendCmds [s.cfg.serCmd.adcNormal, s.cfg.serCmd.comReverse]).flush

/-- `DM_BOTTOM` (R177). -/
def execDmBottom (s : State) : Host.Outcome State Fault Refusal :=
  .next ((s.setTopview false).sendCmds [s.cfg.serCmd.adcReverse, s.cfg.serCmd.comNormal]).flush

/-- `DM_CONTRAST`, one-argument form (R178). -/
def execDmContrast (s : State) : Host.Outcome State Fault Refusal :=
  .next (s.sendCmds [s.cfg.serCmd.contrast, contrastByte s.cfg.contrastDefault])

/-- `DISPMODE` with a reserved mode code: no state change, no event, no reply (`30_encoding.md` R86 (b)). -/
def execDispmodeReserved (_mode : Byte) (s : State) : Host.Outcome State Fault Refusal :=
  .next s

/-- `DISPMODEV DM_CONTRAST, value` (R179): a value of 64 or more is silently rejected. -/
def execDispmodevContrast (value : Byte) (s : State) : Host.Outcome State Fault Refusal :=
  .next (if 64 ≤ value.toNat then s else s.sendCmds [s.cfg.serCmd.contrast, contrastByte value])

/-- `DISPMODEV` with a mode other than contrast: no effect at all (R180). -/
def execDispmodevOther (_mode _value : Byte) (s : State) : Host.Outcome State Fault Refusal :=
  .next s

/-- A reserved opcode byte: a one-byte packet without effect (`30_encoding.md` R86 (a)). -/
def execReservedHostOpcode (_op : Byte) (s : State) : Host.Outcome State Fault Refusal :=
  .next s

end Sys2Proof.Machine
end

