-- ==== Sys2Proof/Machine/Transfer.lean ====
section
/-! DEFINITION. Transfer operations: FLUSH, SYNC, UPDMODE (`41_transfer_ops.md`). -/

namespace Sys2Proof.Machine

/-- `FLUSH` (R146). -/
def execFlush (s : State) : Host.Outcome State Fault Refusal :=
  .next s.flush

/-- `SYNC` (R151). -/
def execSync (s : State) : Host.Outcome State Fault Refusal :=
  .next s.sync

/-- `UPDMODE m` (R152): writes the flag, no event; `m ≥ 2` is ignored. -/
def execUpdmode (m : Byte) (s : State) : Host.Outcome State Fault Refusal :=
  .next (s.setAutoUpdate (updateFlag m s.autoUpdate))

end Sys2Proof.Machine
end

