-- ==== Sys2Proof/Machine/Dispatch.lean ====
section
/-! DEFINITION. One arm per row of spec/opcode_table.json, each one call of its meaning. -/

namespace Sys2Proof.Machine

def exec (i : Instr) (s : State) : Host.Outcome State Fault Refusal :=
  match i with
  | .init => Sys2Proof.Machine.execInit s
  | .flush => Sys2Proof.Machine.execFlush s
  | .sync => Sys2Proof.Machine.execSync s
  | .cls => Sys2Proof.Machine.execCls s
  | .updmode m => Sys2Proof.Machine.execUpdmode m s
  | .dmOn => Sys2Proof.Machine.execDmOn s
  | .dmOff => Sys2Proof.Machine.execDmOff s
  | .dmSleep => Sys2Proof.Machine.execDmSleep s
  | .dmInvert => Sys2Proof.Machine.execDmInvert s
  | .dmDefault => Sys2Proof.Machine.execDmDefault s
  | .dmTopview => Sys2Proof.Machine.execDmTopview s
  | .dmBottom => Sys2Proof.Machine.execDmBottom s
  | .dmContrast => Sys2Proof.Machine.execDmContrast s
  | .dispmodeReserved mode => Sys2Proof.Machine.execDispmodeReserved mode s
  | .dispmodevContrast value => Sys2Proof.Machine.execDispmodevContrast value s
  | .dispmodevOther mode value => Sys2Proof.Machine.execDispmodevOther mode value s
  | .setpix x y c => Sys2Proof.Machine.execSetpix x y c s
  | .getpix x y => Sys2Proof.Machine.execGetpix x y s
  | .point x y c => Sys2Proof.Machine.execPoint x y c s
  | .line x0 y0 x1 y1 c => Sys2Proof.Machine.execLine x0 y0 x1 y1 c s
  | .rect x0 y0 x1 y1 c => Sys2Proof.Machine.execRect x0 y0 x1 y1 c s
  | .fillrect x0 y0 x1 y1 c => Sys2Proof.Machine.execFillrect x0 y0 x1 y1 c s
  | .roundrect x0 y0 x1 y1 rnd c => Sys2Proof.Machine.execRoundrect x0 y0 x1 y1 rnd c s
  | .fillrrect x0 y0 x1 y1 rnd c => Sys2Proof.Machine.execFillrrect x0 y0 x1 y1 rnd c s
  | .circle x0 y0 r c => Sys2Proof.Machine.execCircle x0 y0 r c s
  | .fillcircle x0 y0 r c => Sys2Proof.Machine.execFillcircle x0 y0 r c s
  | .locate x y => Sys2Proof.Machine.execLocate x y s
  | .font h => Sys2Proof.Machine.execFont h s
  | .wrchar v => Sys2Proof.Machine.execWrchar v s
  | .textwidth str => Sys2Proof.Machine.execTextwidth str s
  | .bitmap h x y => Sys2Proof.Machine.execBitmap h x y s
  | .reservedHostOpcode op => Sys2Proof.Machine.execReservedHostOpcode op s
  | .cColLo n => Sys2Proof.Machine.execCColLo n s
  | .cColHi n => Sys2Proof.Machine.execCColHi n s
  | .cPage n => Sys2Proof.Machine.execCPage n s
  | .cStartLine n => Sys2Proof.Machine.execCStartLine n s
  | .cAdcNormal => Sys2Proof.Machine.execCAdcNormal s
  | .cAdcReverse => Sys2Proof.Machine.execCAdcReverse s
  | .cComNormal => Sys2Proof.Machine.execCComNormal s
  | .cComReverse => Sys2Proof.Machine.execCComReverse s
  | .cDispNormal => Sys2Proof.Machine.execCDispNormal s
  | .cDispInvert => Sys2Proof.Machine.execCDispInvert s
  | .cAllptsOff => Sys2Proof.Machine.execCAllptsOff s
  | .cAllptsOn => Sys2Proof.Machine.execCAllptsOn s
  | .cBias r => Sys2Proof.Machine.execCBias r s
  | .cPowerAll => Sys2Proof.Machine.execCPowerAll s
  | .cBoost => Sys2Proof.Machine.execCBoost s
  | .cBoostArg => Sys2Proof.Machine.execCBoostArg s
  | .cContrast => Sys2Proof.Machine.execCContrast s
  | .contrastArgument v => Sys2Proof.Machine.execContrastArgument v s
  | .cIndOff => Sys2Proof.Machine.execCIndOff s
  | .cIndArg => Sys2Proof.Machine.execCIndArg s
  | .cDispOn => Sys2Proof.Machine.execCDispOn s
  | .cDispOff => Sys2Proof.Machine.execCDispOff s

end Sys2Proof.Machine
end

