-- ==== Sys2Proof/Machine/Step.lean ====
section
/-! DEFINITION. One step: one operation (`00_scope.md` R15, R18). A command byte the sequencer still has to send comes before
the next host operation, which R29 forbids in between (log entry 10); otherwise the next packet on the host port is decoded
and performed. -/

namespace Sys2Proof.Machine

/-- One step.

* A command byte left to the sequencer: its row of R90 at the position the stream is in. A byte no row has is taken and not
  sent: the block "emits no serial command other than those of rule R90", and other bytes come "from `INIT` only" (R92),
  which sends its own (`execInit`).
* A packet on the host port: the operation, with the bytes after the packet left to the host.
* No byte presented: the block stays "idle, ready for an operation" (`42_session_ops.md` R181; `70_reset_and_hazards.md` R292).
* A packet cut short: ignored (`93_implementation_defined.md` U8; log entry 8). -/
def step (s : State) : Host.Outcome State Fault Refusal :=
  match s.seqCmds with
  | b :: rest =>
    match decodeSerial s.cfg.serCmd s.cfg.biasCmd s.panel.arg b with
    | some i => exec i (s.takeSeq rest)
    | none => .next (s.takeSeq rest)
  | [] =>
    match decodeHost s.hostPort with
    | .ok (i, rest) => exec i (s.takeHost rest)
    | .error .empty => .next s
    | .error (.truncated _) => .next (s.takeHost [])

/-- The state with the instruction of a table word where the next step takes it from: a serial command byte at the
sequencer, a packet on the host port (log entries 7, 10, 11). -/
def State.withFetchWord (s : State) (nbits w : Nat) : State :=
  match tableSerial nbits w with
  | some b => s.takeSeq [b]
  | none => (s.takeSeq []).takeHost (tablePacket nbits w)

end Sys2Proof.Machine
end

