-- ==== Sys2Proof/Safety.lean ====
section
/-! DEFINITION. What counts as a good state and the words the statements use: the invariant, the parts of the state a frame
names, and the classes of instructions the spec's prose speaks of. -/

namespace Sys2Proof.Machine

/-! ## The invariant -/

/-- A state that agrees with itself: `FB` in canonical form with no address outside it (`20_memory.md` R52), the lines idle
between events (`41_transfer_ops.md` R141 to R145), the far side what the trace makes of it (`10_state.md` R30,
`42_session_ops.md` R183), unknown until the first reset pulse (`70_reset_and_hazards.md` R291), and its data RAM in canonical
form. -/
structure StateInv (s : State) : Prop where
  fbCanonical : Memory.wf s.fb = true
  fbBounded : ∀ c ∈ s.fb, c.1 < fbSize s.cfg
  linesIdle : s.lines = SerialLines.idle
  panelOfTrace : s.panel = s.trace.foldl (Panel.observe s.cfg) Panel.unknown
  unknownUntilPulse : Event.rstPulse ∉ s.trace → s.panel = { Panel.unknown with arg := s.panel.arg }
  ramCanonical : Memory.wf s.panel.ddram = true

/-! ## Frames -/

/-- What no operation writes and what only a step's fetch writes. -/
structure SameEnv (s t : State) : Prop where
  cfg : t.cfg = s.cfg
  powerOn : t.powerOn = s.powerOn
  hostPort : t.hostPort = s.hostPort
  seqCmds : t.seqCmds = s.seqCmds

/-- The two flags are unchanged. -/
structure SameFlags (s t : State) : Prop where
  topview : t.topview = s.topview
  autoUpdate : t.autoUpdate = s.autoUpdate

/-- The cursor and the font are unchanged. -/
structure SameText (s t : State) : Prop where
  charX : t.charX = s.charX
  charY : t.charY = s.charY
  font : t.font = s.font

/-- Nothing happened on the serial port. -/
structure SamePort (s t : State) : Prop where
  trace : t.trace = s.trace
  lines : t.lines = s.lines
  panel : t.panel = s.panel

/-- Every byte of the framebuffer reads as before. -/
def SameFb (s t : State) : Prop := ∀ a, t.readByte a = s.readByte a

/-- Exactly the events `es` happened on the serial port, and the far side took them. -/
structure Emits (s t : State) (es : List Event) : Prop where
  trace : t.trace = s.trace ++ es
  lines : t.lines = es.foldl SerialLines.after s.lines
  panel : t.panel = es.foldl (Panel.observe s.cfg) s.panel

/-- The serial port after a `SYNC` that ends in `t`: nothing with `auto_update = 0`, one transfer of `t`'s framebuffer with
`auto_update = 1` (`41_transfer_ops.md` R151, R153). -/
def Syncs (s t : State) : Prop :=
  (s.autoUpdate = false → SamePort s t) ∧ (s.autoUpdate = true → Emits s t t.flushEvents)

/-- Everything but the framebuffer and the serial port is as before. -/
structure SameCore (s t : State) : Prop where
  env : SameEnv s t
  flags : SameFlags s t
  text : SameText s t
  replies : t.replies = s.replies

/-- Instruction `i` completes in `s` as a drawing call: the pixels of `P` on the display take the value `on`, every other
pixel and every byte that holds no such pixel is as before, nothing else of the block changes, and the serial port is as a
terminal `SYNC` leaves it (`44_raster_macros.md` R200, R202). -/
def Draws (s : State) (i : Instr) (on : Bool) (P : Int → Int → Prop) : Prop :=
  ∃ t, exec i s = .next t ∧ SameCore s t ∧ Syncs s t ∧
    (∀ px py, inside s.cfg px py = true → P px py → t.getPixel px py = on) ∧
    (∀ px py, ¬ P px py → t.getPixel px py = s.getPixel px py) ∧
    (∀ a, (∀ px py, P px py → inside s.cfg px py = true → a ≠ pixelAddr s.cfg px py) → t.readByte a = s.readByte a)

/-! ## Events -/

/-- The bytes of the `CMD` events, in order. -/
def cmdBytes (es : List Event) : List Byte :=
  es.filterMap fun e => match e with
    | .cmd b => some b
    | _ => none

/-- The bytes of the `DAT` events, in order. -/
def datBytes (es : List Event) : List Byte :=
  es.filterMap fun e => match e with
    | .dat b => some b
    | _ => none

/-! ## Classes of instructions -/

/-- The macro layer that the spec lets a model refuse (`60_exceptions.md` R264): a read outside an asset, or a curved shape
outside its precondition. -/
def mayRefuse : Instr → Bool
  | .roundrect _ _ _ _ _ _ => true
  | .fillrrect _ _ _ _ _ _ => true
  | .circle _ _ _ _ => true
  | .fillcircle _ _ _ _ => true
  | .wrchar _ => true
  | .textwidth _ => true
  | .bitmap _ _ _ => true
  | _ => false

/-- The drawing calls of the update policy (`41_transfer_ops.md` R153), in a state: `CLS` under `CLS_FLUSH = POLICY`, `WRCHAR`
of a drawable value that is not the newline value. -/
def drawingCall (s : State) : Instr → Bool
  | .cls => decide (s.cfg.clsFlush = .policy)
  | .point _ _ _ => true
  | .line _ _ _ _ _ => true
  | .rect _ _ _ _ _ => true
  | .fillrect _ _ _ _ _ => true
  | .roundrect _ _ _ _ _ _ => true
  | .fillrrect _ _ _ _ _ _ => true
  | .circle _ _ _ _ => true
  | .fillcircle _ _ _ _ => true
  | .wrchar v => decide (v ≠ s.cfg.newline) && drawable v
  | .bitmap _ _ _ => true
  | _ => false

/-- The operations that write the framebuffer (`10_state.md` R33). -/
def writesFb : Instr → Bool
  | .init => true
  | .cls => true
  | .setpix _ _ _ => true
  | .point _ _ _ => true
  | .line _ _ _ _ _ => true
  | .rect _ _ _ _ _ => true
  | .fillrect _ _ _ _ _ => true
  | .roundrect _ _ _ _ _ _ => true
  | .fillrrect _ _ _ _ _ _ => true
  | .circle _ _ _ _ => true
  | .fillcircle _ _ _ _ => true
  | .wrchar _ => true
  | .bitmap _ _ _ => true
  | _ => false

/-- The command stream of the serial port is between commands: no argument byte is awaited and no initialisation sequence
is under way. -/
structure Settled (s : State) : Prop where
  arg : s.panel.arg = none
  initLeft : s.panel.initLeft = none

/-- The orientation is consistent (`42_session_ops.md` R184): the flag agrees with what the controller was last told. -/
def Oriented (s : State) : Prop :=
  (s.topview = false ∧ s.panel.view.adc = some .reverse ∧ s.panel.view.com = some .normal) ∨
  (s.topview = true ∧ s.panel.view.adc = some .normal ∧ s.panel.view.com = some .reverse)

/-- A configuration with the default serial command bytes and the default initialisation sequence (`30_encoding.md` R90,
`42_session_ops.md` R161, R162; general knowledge, log entry 3). -/
structure StandardCommands (c : Config) : Prop where
  serCmd : c.serCmd = SerCmd.standard
  biasCmd : c.biasCmd = biasStandard
  initSeq : c.initSeq = initSeqOf SerCmd.standard biasStandard c.contrastDefault

/-- Every byte that `WRCHAR v` can read of the active font is there (`45_text_macros.md` R233, R238, R239). -/
structure GlyphReadable (s : State) (v bpg gw gh bps : Byte) : Prop where
  hBpg : assetByte? s.cfg s.font 0 = some bpg
  hGh : assetByte? s.cfg s.font 2 = some gh
  hBps : assetByte? s.cfg s.font 3 = some bps
  hGw : assetByte? s.cfg s.font ((v.toNat - 32) * bpg.toNat + 4) = some gw
  hStrips : ∀ row < gh.toNat, ∀ column < gw.toNat,
    (assetByte? s.cfg s.font ((v.toNat - 32) * bpg.toNat + 4 + 1 + (column * bps.toNat + row / 8))).isSome = true

end Sys2Proof.Machine
end

