-- ==== Sys2Proof/Certificates/Slice0/Obligations.lean ====
section
/-! DEFINITION. The statements for the provers, one def each; OBLIGATIONS.json says of each what it formalises. -/

open Sys2Proof Sys2Proof.Machine

/-! ## Reset and the invariant -/

/-- What hardware reset leaves, for every configuration and every draw of the unspecified framebuffer (R291, R33). The values
of the flags, the cursor and the font are the spec's decision D10; a byte of `FB` is a free value. -/
def Obligations.ResetValues : Prop :=
  ∀ (c : Config) (draw : Nat),
    (State.resetOf c draw).cfg = c ∧
    (State.resetOf c draw).topview = false ∧ (State.resetOf c draw).autoUpdate = false ∧
    (State.resetOf c draw).charX = 0 ∧ (State.resetOf c draw).charY = 0 ∧
    (State.resetOf c draw).font = c.defaultFont ∧
    (State.resetOf c draw).trace = [] ∧ (State.resetOf c draw).replies = [] ∧
    (State.resetOf c draw).lines.chipSelectAsserted = false ∧ (State.resetOf c draw).lines.resetAsserted = false ∧
    (State.resetOf c draw).panel = Panel.unknown ∧
    (State.resetOf c draw).hostPort = [] ∧ (State.resetOf c draw).seqCmds = [] ∧
    ∀ a, (State.resetOf c draw).readByte a = Config.powerOnByte draw a

/-- The invariant holds right after reset. -/
def Obligations.ResetMeetsInv : Prop :=
  (∀ (c : Config) (draw : Nat), StateInv (State.resetOf c draw)) ∧ StateInv State.reset

/-- Every step keeps the invariant, from every state that meets it. -/
def Obligations.StepKeepsInv : Prop :=
  ∀ s t, StateInv s → step s = .next t → StateInv t

/-- A step runs the decoded instruction: the row of the first serial byte left to the sequencer, else the packet on the host
port, each with its bytes taken; with nothing presented the block idles, a cut packet is dropped, and a byte no row of R90 has
is taken and not sent (R92; log entry 10). -/
def Obligations.StepRunsTheDecodedInstruction : Prop :=
  ∀ s : State,
    (∀ i rest, s.seqCmds = [] → decodeHost s.hostPort = .ok (i, rest) → step s = exec i { s with hostPort := rest }) ∧
    (∀ b rest i, s.seqCmds = b :: rest → decodeSerial s.cfg.serCmd s.cfg.biasCmd s.panel.arg b = some i →
      step s = exec i { s with seqCmds := rest }) ∧
    (s.seqCmds = [] → s.hostPort = [] → step s = .next s) ∧
    (∀ op, s.seqCmds = [] → decodeHost s.hostPort = .error (.truncated op) → step s = .next { s with hostPort := [] }) ∧
    (∀ b rest, s.seqCmds = b :: rest → decodeSerial s.cfg.serCmd s.cfg.biasCmd s.panel.arg b = none →
      step s = .next { s with seqCmds := rest })

/-! ## Encodings -/

/-- Decode and encode agree on host packets: for every well-formed host instruction, every operand, and any bytes after it. -/
def Obligations.HostRoundTrip : Prop :=
  ∀ (sc : SerCmd) (bias : Byte) (i : Instr) (rest : List Byte), i.serial = false → i.wellFormed = true →
    decodeHost (encode sc bias i ++ rest) = .ok (i, rest)

/-- The other direction: what the host decoder reads is a well-formed host instruction whose packet those bytes are. -/
def Obligations.HostDecodeInverse : Prop :=
  ∀ (bytes : List Byte) (i : Instr) (rest : List Byte), decodeHost bytes = .ok (i, rest) →
    i.serial = false ∧ i.wellFormed = true ∧ ∀ (sc : SerCmd) (bias : Byte), encode sc bias i ++ rest = bytes

/-- Decode and encode agree on the serial command bytes with the default constants, in both directions. -/
def Obligations.SerialRoundTrip : Prop :=
  (∀ i : Instr, i.serial = true → ∃ b, encode SerCmd.standard biasStandard i = [b] ∧
    decodeSerial SerCmd.standard biasStandard (serialPosition i) b = some i) ∧
  (∀ (position : Option SerialArg) (b : Byte) (i : Instr), decodeSerial SerCmd.standard biasStandard position b = some i →
    i.serial = true ∧ serialPosition i = position ∧ encode SerCmd.standard biasStandard i = [b])

/-- A few words written out from R82, R83, R84 and R90. -/
def Obligations.DecodedWords : Prop :=
  decodeHost [0x08, 0xFF, 0xFF, 0x00, 0x0A, 0x01] = .ok (.setpix (-1) 10 1, []) ∧
  decodeHost [0x08, 0x80, 0x00, 0x7F, 0xFF, 0x00] = .ok (.setpix (-32768) 32767 0, []) ∧
  decodeHost [0x06, 0x05] = .ok (.dmTopview, []) ∧
  decodeHost [0x06, 0x08] = .ok (.dispmodeReserved 8, []) ∧
  decodeHost [0x07, 0x07, 0x2A] = .ok (.dispmodevContrast 0x2A, []) ∧
  decodeHost [0x13, 0, 0, 0, 0, 0, 9, 0, 9, 0, 3, 1] = .ok (.roundrect 0 0 9 9 3 1, []) ∧
  decodeHost [0x21, 0x12, 0x34] = .ok (.font 0x1234, []) ∧
  decodeHost [0x23, 0x02, 0x41, 0x42] = .ok (.textwidth [0x41, 0x42], []) ∧
  decodeHost [0x30, 0x00, 0x02, 0xFF, 0xFE, 0xFF, 0xFF] = .ok (.bitmap 2 (-2) (-1), []) ∧
  decodeHost [0x17, 0x01] = .ok (.reservedHostOpcode 0x17, [0x01]) ∧
  decodeSerial SerCmd.standard biasStandard none 0xB5 = some (.cPage 5) ∧
  decodeSerial SerCmd.standard biasStandard (some .contrast) 0x2A = some (.contrastArgument 0x2A)

/-! ## Pixels -/

/-- The addressing of pixels (R53): the address is `x + (y / 8) * W` and the bit `y mod 8`; for a pixel on the display the
address lies in `FB`, the largest is `W * P - 1`, of the last pixel, and at most 2039, so 11 bits hold it; two pixels never
share address and bit; every bit of every byte of `FB` is some pixel's. -/
def Obligations.PixelAddressing : Prop :=
  ∀ c : Config,
    (∀ x y : Int, pixelAddr c x y = x.toNat + y.toNat / 8 * c.w ∧ pixelBit y = y.toNat % 8) ∧
    (∀ x y, inside c x y = true → pixelAddr c x y < c.w * c.p ∧ pixelAddr c x y ≤ 2039 ∧ pixelAddr c x y < 2 ^ 11 ∧ pixelBit y < 8) ∧
    (inside c ((c.w : Int) - 1) ((c.h : Int) - 1) = true ∧
      pixelAddr c ((c.w : Int) - 1) ((c.h : Int) - 1) = c.w * c.p - 1) ∧
    (∀ x y x' y', inside c x y = true → inside c x' y' = true → pixelAddr c x y = pixelAddr c x' y' →
      pixelBit y = pixelBit y' → x = x' ∧ y = y') ∧
    (∀ a b, a < c.w * c.p → b < 8 → ∃ x y, inside c x y = true ∧ pixelAddr c x y = a ∧ pixelBit y = b)

/-- `SETPIX` completes in every state and writes one bit of one byte: the addressed bit becomes the colour's truth value,
every other bit and byte reads as before, and nothing else changes; off the display nothing at all changes. -/
def Obligations.SetpixWritesOneBit : Prop :=
  ∀ (s : State) (x y : Half) (c : Byte), ∃ t, exec (.setpix x y c) s = .next t ∧ SameCore s t ∧ SamePort s t ∧
    ((x.toInt < 0 ∨ s.cfg.w ≤ x.toInt ∨ y.toInt < 0 ∨ s.cfg.h ≤ y.toInt) → t = s) ∧
    ((0 ≤ x.toInt ∧ x.toInt < s.cfg.w ∧ 0 ≤ y.toInt ∧ y.toInt < s.cfg.h) →
      (∀ a, a ≠ x.toInt.toNat + y.toInt.toNat / 8 * s.cfg.w → t.readByte a = s.readByte a) ∧
      (∀ k < 8, (t.readByte (x.toInt.toNat + y.toInt.toNat / 8 * s.cfg.w)).getLsbD k =
        if k = y.toInt.toNat % 8 then decide (c ≠ 0)
        else (s.readByte (x.toInt.toNat + y.toInt.toNat / 8 * s.cfg.w)).getLsbD k))

/-- `GETPIX` completes in every state: it replies the addressed bit as one byte, or 0 off the display (decision D14; log
entry 23), and changes nothing else. -/
def Obligations.GetpixReplies : Prop :=
  ∀ (s : State) (x y : Half),
    ((x.toInt < 0 ∨ s.cfg.w ≤ x.toInt ∨ y.toInt < 0 ∨ s.cfg.h ≤ y.toInt) →
      exec (.getpix x y) s = .next { s with replies := s.replies ++ [[0]] }) ∧
    ((0 ≤ x.toInt ∧ x.toInt < s.cfg.w ∧ 0 ≤ y.toInt ∧ y.toInt < s.cfg.h) →
      exec (.getpix x y) s = .next { s with replies := s.replies ++
        [[if (s.readByte (x.toInt.toNat + y.toInt.toNat / 8 * s.cfg.w)).getLsbD (y.toInt.toNat % 8) then 1 else 0]] })

/-- The round trip of the pixel addressing: after `SETPIX`, `GETPIX` of that pixel replies the colour's truth value, `GETPIX`
of any other operands replies what it replied before, and a dropped `SETPIX` changes no reply. -/
def Obligations.PixelRoundTrip : Prop :=
  ∀ (s : State) (x y : Half) (c : Byte), ∃ t, exec (.setpix x y c) s = .next t ∧
    (inside s.cfg x.toInt y.toInt = true →
      exec (.getpix x y) t = .next { t with replies := t.replies ++ [[if c = 0 then 0 else 1]] }) ∧
    (∀ (x' y' : Half) (b : Byte), (x', y') ≠ (x, y) ∨ inside s.cfg x.toInt y.toInt = false →
      exec (.getpix x' y') s = .next { s with replies := s.replies ++ [[b]] } →
      exec (.getpix x' y') t = .next { t with replies := t.replies ++ [[b]] })

/-- `CLS` completes in every state: every byte of `FB` is 0 and every pixel unlit, registers and replies are as before, and
`CLS_FLUSH` says whether one transfer of the cleared framebuffer follows. -/
def Obligations.ClsClears : Prop :=
  ∀ s : State, ∃ t, exec .cls s = .next t ∧ SameCore s t ∧
    (∀ a, a < s.cfg.w * s.cfg.p → t.readByte a = 0) ∧ (∀ a, s.cfg.w * s.cfg.p ≤ a → t.readByte a = s.readByte a) ∧
    (∀ x y, t.getPixel x y = false) ∧
    (s.cfg.clsFlush = .policy → Syncs s t) ∧
    (s.cfg.clsFlush = .always → Emits s t t.flushEvents) ∧
    (s.cfg.clsFlush = .never → SamePort s t)

/-- `CLS` twice: the second completes too, leaves the framebuffer of the first, and sends what the first sent. -/
def Obligations.ClsIdempotent : Prop :=
  ∀ s : State, ∃ t u es, exec .cls s = .next t ∧ exec .cls t = .next u ∧ u.fb = t.fb ∧ SameCore t u ∧
    t.trace = s.trace ++ es ∧ u.trace = t.trace ++ es

/-- `POINT` is `SETPIX` then `SYNC`, the `SYNC` also after a dropped pixel; as a drawing call it draws that one pixel. -/
def Obligations.PointDrawsOnePixel : Prop :=
  ∀ (s : State) (x y : Half) (c : Byte),
    (∀ t, exec (.setpix x y c) s = .next t → exec (.point x y c) s = exec .sync t) ∧
    Draws s (.point x y c) (lit c) (fun px py => px = x.toInt ∧ py = y.toInt)

/-! ## Transfers -/

/-- The size of one page transfer: `FLUSH` completes, changes nothing but the port, and emits `P * (3 + W) + 1` events: `3 * P`
commands, one `CSHIGH`, and the framebuffer in address order as data; with the sizes of the three variants. -/
def Obligations.FlushEventCounts : Prop :=
  ∀ s : State, ∃ t es, exec .flush s = .next t ∧ SameCore s t ∧ SameFb s t ∧ Emits s t es ∧
    es.length = s.cfg.p * (3 + s.cfg.w) + 1 ∧
    (cmdBytes es).length = 3 * s.cfg.p ∧ es.count .csHigh = 1 ∧
    datBytes es = (List.range (s.cfg.w * s.cfg.p)).map s.readByte ∧
    (s.cfg = vShort → es.length = 541 ∧ (cmdBytes es).length = 12 ∧ (datBytes es).length = 528) ∧
    ((s.cfg = vTallA ∨ s.cfg = vTallB) → es.length = 1049 ∧ (cmdBytes es).length = 24 ∧ (datBytes es).length = 1024)

/-- The framing of a page transfer (R147): exactly the `P` pages of the variant, 4 for the short one and 8 for the taller two,
in ascending order; page `pg` is the three address commands and then its slice of `W` framebuffer bytes; `CSHIGH` ends it. -/
def Obligations.FlushPageFraming : Prop :=
  (vShort.p = 4 ∧ vTallA.p = 8 ∧ vTallB.p = 8) ∧
  ∀ s : State, ∃ t es, exec .flush s = .next t ∧ Emits s t es ∧
    (s.cfg.p = 4 ∨ s.cfg.p = 8) ∧ es.length = s.cfg.p * (3 + s.cfg.w) + 1 ∧
    (∀ pg, pg < s.cfg.p → (es.drop (pg * (3 + s.cfg.w))).take (3 + s.cfg.w) =
      [.cmd (s.cfg.serCmd.colLo + BitVec.ofNat 8 (if s.topview then s.cfg.topviewOffset else 0)),
       .cmd s.cfg.serCmd.colHi, .cmd (s.cfg.serCmd.page + BitVec.ofNat 8 pg)] ++
      (List.range s.cfg.w).map fun col => .dat (s.readByte (pg * s.cfg.w + col))) ∧
    es.drop (s.cfg.p * (3 + s.cfg.w)) = [.csHigh]

/-- `topview` affects the column-low command bytes, not the data: two states that differ in `topview` alone send the same data
bytes in the same order and the same number of events, and every event but the column-low command of each page is the same. -/
def Obligations.FlushDataIgnoresTopview : Prop :=
  ∀ (s : State) (v : Bool), ∃ t u es fs, exec .flush s = .next t ∧ exec .flush { s with topview := v } = .next u ∧
    t.trace = s.trace ++ es ∧ u.trace = s.trace ++ fs ∧ datBytes es = datBytes fs ∧ es.length = fs.length ∧
    ∀ k, (k % (3 + s.cfg.w) ≠ 0 ∨ s.cfg.p * (3 + s.cfg.w) ≤ k) → es[k]? = fs[k]?

/-- `SYNC` completes: with `auto_update = 0` it has no effect at all, with 1 exactly the effect of `FLUSH`. -/
def Obligations.SyncByPolicy : Prop :=
  ∀ s : State, (s.autoUpdate = false → exec .sync s = .next s) ∧
    (s.autoUpdate = true → exec .sync s = exec .flush s ∧ exec .sync s = .next (s.emit s.flushEvents))

/-- `UPDMODE` completes and writes `auto_update` by its operand alone: 1 sets it, 0 clears it, any other value changes nothing,
and no event is emitted. -/
def Obligations.UpdmodeWritesTheFlag : Prop :=
  ∀ s : State, exec (.updmode 1) s = .next { s with autoUpdate := true } ∧
    exec (.updmode 0) s = .next { s with autoUpdate := false } ∧
    ∀ m : Byte, 2 ≤ m.toNat → exec (.updmode m) s = .next s

/-! ## Session -/

/-- The state after `INIT`, from every state. -/
def Obligations.InitState : Prop :=
  ∀ s : State, ∃ t, exec .init s = .next t ∧ SameEnv s t ∧
    (∀ a, a < s.cfg.w * s.cfg.p → t.readByte a = 0) ∧ (∀ a, s.cfg.w * s.cfg.p ≤ a → t.readByte a = s.readByte a) ∧
    t.autoUpdate = true ∧ t.charX = 0 ∧ t.charY = 0 ∧ t.font = s.cfg.defaultFont ∧ t.topview = s.topview ∧
    t.replies = s.replies

/-- The events of `INIT`, in order: bus configuration, reset pulse, the command list, and those of its `CLS` step with the
`auto_update` that held on entry. -/
def Obligations.InitTrace : Prop :=
  ∀ s : State, ∃ t es, exec .init s = .next t ∧
    Emits s t ([.busCfg, .rstPulse] ++ s.cfg.initSeq.map .cmd ++ es) ∧
    ((s.cfg.clsFlush = .never ∨ (s.cfg.clsFlush = .policy ∧ s.autoUpdate = false)) → es = []) ∧
    ((s.cfg.clsFlush = .always ∨ (s.cfg.clsFlush = .policy ∧ s.autoUpdate = true)) →
      es = t.flushEvents ∧ datBytes es = List.replicate (s.cfg.w * s.cfg.p) 0)

/-- The first `INIT` after hardware reset on V_SHORT with all defaults appends the 15 events of R168. -/
def Obligations.FirstInitOnShortVariant : Prop :=
  ∀ draw : Nat, ∃ t, exec .init (State.resetOf vShort draw) = .next t ∧
    t.trace = [.busCfg, .rstPulse, .cmd 0x40, .cmd 0xA1, .cmd 0xC0, .cmd 0xA6, .cmd 0xA2, .cmd 0x2F, .cmd 0xF8, .cmd 0x00,
      .cmd 0x81, .cmd 0x1F, .cmd 0xAC, .cmd 0x00, .cmd 0xAF] ∧
    (∀ a, a < 528 → t.readByte a = 0) ∧ t.autoUpdate = true ∧ t.charX = 0 ∧ t.charY = 0

/-- The display modes without a flag: each completes, sends its fixed commands, and changes nothing else. -/
def Obligations.DisplayModesSendCommands : Prop :=
  ∀ s : State,
    exec .dmOn s = .next (s.emit [.cmd s.cfg.serCmd.allptsOff, .cmd s.cfg.serCmd.dispOn]) ∧
    exec .dmOff s = .next (s.emit [.cmd s.cfg.serCmd.dispOff]) ∧
    exec .dmSleep s = .next (s.emit [.cmd s.cfg.serCmd.allptsOn, .cmd s.cfg.serCmd.dispOff]) ∧
    exec .dmInvert s = .next (s.emit [.cmd s.cfg.serCmd.dispInvert]) ∧
    exec .dmDefault s = .next (s.emit [.cmd s.cfg.serCmd.dispNormal]) ∧
    exec .dmContrast s = .next (s.emit [.cmd s.cfg.serCmd.contrast, .cmd (s.cfg.contrastDefault &&& 0x3F)]) ∧
    ∀ es, SameCore s (s.emit es) ∧ SameFb s (s.emit es) ∧ Emits s (s.emit es) es

/-- The orientation modes: each completes, writes `topview`, sends its two commands, then one transfer with the new `topview`,
whatever `auto_update` holds and even if the flag had that value; nothing else changes. -/
def Obligations.OrientationModesTransfer : Prop :=
  ∀ s : State,
    (∃ t, exec .dmTopview s = .next t ∧ t.topview = true ∧ SameEnv s t ∧ SameText s t ∧ SameFb s t ∧
      t.autoUpdate = s.autoUpdate ∧ t.replies = s.replies ∧
      Emits s t ([.cmd s.cfg.serCmd.adcNormal, .cmd s.cfg.serCmd.comReverse] ++ t.flushEvents) ∧
      t.columnStart = s.cfg.topviewOffset) ∧
    (∃ t, exec .dmBottom s = .next t ∧ t.topview = false ∧ SameEnv s t ∧ SameText s t ∧ SameFb s t ∧
      t.autoUpdate = s.autoUpdate ∧ t.replies = s.replies ∧
      Emits s t ([.cmd s.cfg.serCmd.adcReverse, .cmd s.cfg.serCmd.comNormal] ++ t.flushEvents) ∧
      t.columnStart = 0)

/-- The two-argument form (R179): it is opcode 0x07 with mode 7; a contrast value below 64 is sent, masked to 6 bits, and not
stored; 64 and above send nothing, not even the contrast command. The last clause, that a mode other than contrast has no
effect, is the spec's decision D16 (R180). -/
def Obligations.ContrastTwoArgumentForm : Prop :=
  ∀ (s : State) (value mode : Byte),
    decodeHost [0x07, 0x07, value] = .ok (.dispmodevContrast value, []) ∧
    (value.toNat < 64 →
      exec (.dispmodevContrast value) s = .next (s.emit [.cmd s.cfg.serCmd.contrast, .cmd (value &&& 0x3F)])) ∧
    (64 ≤ value.toNat → exec (.dispmodevContrast value) s = .next s) ∧
    exec (.dispmodevOther mode value) s = .next s

/-- The reserved encodings change no state, emit no event and reply nothing: as instructions, and as bytes on the host port,
where only the packet is consumed. -/
def Obligations.ReservedEncodingsIgnored : Prop :=
  ∀ s : State,
    (∀ op, exec (.reservedHostOpcode op) s = .next s) ∧ (∀ mode, exec (.dispmodeReserved mode) s = .next s) ∧
    (∀ op rest, assignedOpcode op = false → s.seqCmds = [] → s.hostPort = op :: rest →
      step s = .next { s with hostPort := rest }) ∧
    (∀ mode rest, 8 ≤ mode.toNat → s.seqCmds = [] → s.hostPort = 0x06 :: mode :: rest →
      step s = .next { s with hostPort := rest }) ∧
    (∀ m rest, 2 ≤ m.toNat → s.seqCmds = [] → s.hostPort = 0x05 :: m :: rest →
      step s = .next { s with hostPort := rest }) ∧
    (∀ mode value rest, mode ≠ 7 → s.seqCmds = [] → s.hostPort = 0x07 :: mode :: value :: rest →
      step s = .next { s with hostPort := rest })

/-- Each serial command instruction completes and is one `CMD` event of its byte with its operand bits (R90, R91). -/
def Obligations.SerialCommandsSendTheirByte : Prop :=
  ∀ s : State,
    (∀ n, exec (.cColLo n) s = .next (s.emit [.cmd (s.cfg.serCmd.colLo + n.setWidth 8)])) ∧
    (∀ n, exec (.cColHi n) s = .next (s.emit [.cmd (s.cfg.serCmd.colHi + n.setWidth 8)])) ∧
    (∀ n, exec (.cPage n) s = .next (s.emit [.cmd (s.cfg.serCmd.page + n.setWidth 8)])) ∧
    (∀ n, exec (.cStartLine n) s = .next (s.emit [.cmd (s.cfg.serCmd.startLine + n.setWidth 8)])) ∧
    exec .cAdcNormal s = .next (s.emit [.cmd s.cfg.serCmd.adcNormal]) ∧
    exec .cAdcReverse s = .next (s.emit [.cmd s.cfg.serCmd.adcReverse]) ∧
    exec .cComNormal s = .next (s.emit [.cmd s.cfg.serCmd.comNormal]) ∧
    exec .cComReverse s = .next (s.emit [.cmd s.cfg.serCmd.comReverse]) ∧
    exec .cDispNormal s = .next (s.emit [.cmd s.cfg.serCmd.dispNormal]) ∧
    exec .cDispInvert s = .next (s.emit [.cmd s.cfg.serCmd.dispInvert]) ∧
    exec .cAllptsOff s = .next (s.emit [.cmd s.cfg.serCmd.allptsOff]) ∧
    exec .cAllptsOn s = .next (s.emit [.cmd s.cfg.serCmd.allptsOn]) ∧
    (∀ r, exec (.cBias r) s = .next (s.emit [.cmd ((s.cfg.biasCmd &&& 0xFE) + r.setWidth 8)])) ∧
    exec .cPowerAll s = .next (s.emit [.cmd s.cfg.serCmd.powerAll]) ∧
    exec .cBoost s = .next (s.emit [.cmd s.cfg.serCmd.boost]) ∧
    exec .cBoostArg s = .next (s.emit [.cmd s.cfg.serCmd.boostArg]) ∧
    exec .cContrast s = .next (s.emit [.cmd s.cfg.serCmd.contrast]) ∧
    (∀ v, exec (.contrastArgument v) s = .next (s.emit [.cmd (v.setWidth 8)])) ∧
    exec .cIndOff s = .next (s.emit [.cmd s.cfg.serCmd.indOff]) ∧
    exec .cIndArg s = .next (s.emit [.cmd s.cfg.serCmd.indArg]) ∧
    exec .cDispOn s = .next (s.emit [.cmd s.cfg.serCmd.dispOn]) ∧
    exec .cDispOff s = .next (s.emit [.cmd s.cfg.serCmd.dispOff])

/-! ## Rasteriser -/

/-- `LINE` under either tie rule: it plots `max(|x1-x0|, |y1-y0|) + 1` points, from the first end point to the second,
consecutive points at most 1 apart in each coordinate, and as a drawing call it draws exactly those points. -/
def Obligations.LinePath : Prop :=
  (∀ (tie : LineTie) (x0 y0 x1 y1 : Int),
    (linePoints tie x0 y0 x1 y1).length = max (x1 - x0).natAbs (y1 - y0).natAbs + 1 ∧
    (linePoints tie x0 y0 x1 y1).head? = some (x0, y0) ∧
    (linePoints tie x0 y0 x1 y1).getLast? = some (x1, y1) ∧
    ∀ k p q, (linePoints tie x0 y0 x1 y1)[k]? = some p → (linePoints tie x0 y0 x1 y1)[k + 1]? = some q →
      |q.1 - p.1| ≤ 1 ∧ |q.2 - p.2| ≤ 1) ∧
  (∀ (s : State) (x0 y0 x1 y1 : Half) (c : Byte), Draws s (.line x0 y0 x1 y1 c) (lit c)
    (fun px py => (px, py) ∈ linePoints s.cfg.lineTie x0.toInt y0.toInt x1.toInt y1.toInt))

/-- The two tie rules plot the same points on horizontal, vertical and exactly diagonal lines. -/
def Obligations.LineTieAgreesOnStraightLines : Prop :=
  ∀ x0 y0 x1 y1 : Int, (x0 = x1 ∨ y0 = y1 ∨ (x1 - x0).natAbs = (y1 - y0).natAbs) →
    linePoints .nonstrict x0 y0 x1 y1 = linePoints .strict x0 y0 x1 y1

/-- A horizontal or vertical `LINE` draws exactly the pixels between its end points, both included; a line from a point to
itself draws that one pixel. -/
def Obligations.StraightLinePixels : Prop :=
  ∀ (s : State) (x0 y0 x1 y1 : Half) (c : Byte),
    Draws s (.line x0 y0 x1 y0 c) (lit c) (fun px py =>
      py = y0.toInt ∧ min x0.toInt x1.toInt ≤ px ∧ px ≤ max x0.toInt x1.toInt) ∧
    Draws s (.line x0 y0 x0 y1 c) (lit c) (fun px py =>
      px = x0.toInt ∧ min y0.toInt y1.toInt ≤ py ∧ py ≤ max y0.toInt y1.toInt) ∧
    Draws s (.line x0 y0 x0 y0 c) (lit c) (fun px py => px = x0.toInt ∧ py = y0.toInt)

/-- `RECT` draws exactly the four edges, whichever opposite corners are given, with one transfer at most. -/
def Obligations.RectBorderPixels : Prop :=
  ∀ (s : State) (x0 y0 x1 y1 : Half) (c : Byte), Draws s (.rect x0 y0 x1 y1 c) (lit c) (fun px py =>
    ((py = y0.toInt ∨ py = y1.toInt) ∧ min x0.toInt x1.toInt ≤ px ∧ px ≤ max x0.toInt x1.toInt) ∨
    ((px = x0.toInt ∨ px = x1.toInt) ∧ min y0.toInt y1.toInt ≤ py ∧ py ≤ max y0.toInt y1.toInt))

/-- `FILLRECT` draws exactly the inclusive rectangle, whichever opposite corners are given. -/
def Obligations.FillrectPixels : Prop :=
  ∀ (s : State) (x0 y0 x1 y1 : Half) (c : Byte), Draws s (.fillrect x0 y0 x1 y1 c) (lit c) (fun px py =>
    min x0.toInt x1.toInt ≤ px ∧ px ≤ max x0.toInt x1.toInt ∧ min y0.toInt y1.toInt ≤ py ∧ py ≤ max y0.toInt y1.toInt)

/-- The arc stepper, for every radius an operand can hold: it starts at `(r, 0)`, ends at `(0, r)`, has at most `2*r + 1`
offsets, and from one offset to the next `ax` decreases by 0 or 1 and `ay` increases by 0 or 1, never both 0. The stepper is
the spec's reference algorithm (decision D23; log entry 17). -/
def Obligations.ArcShape : Prop :=
  ∀ r : Int, 0 ≤ r → r ≤ 32767 →
    (arcOffsets r).head? = some (r, 0) ∧ (arcOffsets r).getLast? = some (0, r) ∧
    (arcOffsets r).length ≤ 2 * r.toNat + 1 ∧
    (∀ a ∈ arcOffsets r, 0 ≤ a.1 ∧ a.1 ≤ r ∧ 0 ≤ a.2 ∧ a.2 ≤ r) ∧
    ∀ k a b, (arcOffsets r)[k]? = some a → (arcOffsets r)[k + 1]? = some b →
      (b.1 = a.1 ∨ b.1 = a.1 - 1) ∧ (b.2 = a.2 ∨ b.2 = a.2 + 1) ∧ a ≠ b

/-- `ROUNDRECT` inside its precondition draws the four inset edges and the four reflected arcs (decision D24; log entry 17). -/
def Obligations.RoundRectPixels : Prop :=
  ∀ (s : State) (x0 y0 x1 y1 rnd : Half) (c : Byte),
    x0.toInt ≤ x1.toInt → y0.toInt ≤ y1.toInt → 0 ≤ rnd.toInt → 2 * rnd.toInt ≤ x1.toInt - x0.toInt →
    2 * rnd.toInt ≤ y1.toInt - y0.toInt →
    Draws s (.roundrect x0 y0 x1 y1 rnd c) (lit c) (fun px py =>
      ((py = y0.toInt ∨ py = y1.toInt) ∧ x0.toInt + rnd.toInt ≤ px ∧ px ≤ x1.toInt - rnd.toInt) ∨
      ((px = x0.toInt ∨ px = x1.toInt) ∧ y0.toInt + rnd.toInt ≤ py ∧ py ≤ y1.toInt - rnd.toInt) ∨
      ∃ a ∈ arcOffsets rnd.toInt, (px = x1.toInt - rnd.toInt + a.1 ∨ px = x0.toInt + rnd.toInt - a.1) ∧
        (py = y1.toInt - rnd.toInt + a.2 ∨ py = y0.toInt + rnd.toInt - a.2))

/-- `FILLRRECT` inside its precondition draws what `ROUNDRECT` draws, the band between the rounded bands and the cap rows
(decision D24; log entry 17). -/
def Obligations.FillRoundRectPixels : Prop :=
  ∀ (s : State) (x0 y0 x1 y1 rnd : Half) (c : Byte),
    x0.toInt ≤ x1.toInt → y0.toInt ≤ y1.toInt → 0 ≤ rnd.toInt → 2 * rnd.toInt ≤ x1.toInt - x0.toInt →
    2 * rnd.toInt ≤ y1.toInt - y0.toInt →
    Draws s (.fillrrect x0 y0 x1 y1 rnd c) (lit c) (fun px py =>
      ((py = y0.toInt ∨ py = y1.toInt) ∧ x0.toInt + rnd.toInt ≤ px ∧ px ≤ x1.toInt - rnd.toInt) ∨
      ((px = x0.toInt ∨ px = x1.toInt) ∧ y0.toInt + rnd.toInt ≤ py ∧ py ≤ y1.toInt - rnd.toInt) ∨
      (∃ a ∈ arcOffsets rnd.toInt, (px = x1.toInt - rnd.toInt + a.1 ∨ px = x0.toInt + rnd.toInt - a.1) ∧
        (py = y1.toInt - rnd.toInt + a.2 ∨ py = y0.toInt + rnd.toInt - a.2)) ∨
      (x0.toInt ≤ px ∧ px ≤ x1.toInt ∧ y0.toInt + rnd.toInt ≤ py ∧ py ≤ y1.toInt - rnd.toInt) ∨
      ∃ a ∈ arcOffsets rnd.toInt, x0.toInt + rnd.toInt - a.1 ≤ px ∧ px ≤ x1.toInt - rnd.toInt + a.1 ∧
        (py = y0.toInt + rnd.toInt - a.2 ∨ py = y1.toInt - rnd.toInt + a.2))

/-- With radius 0 the rounded rectangles draw the pixel sets of `RECT` and `FILLRECT`. -/
def Obligations.ZeroRadiusRectangles : Prop :=
  ∀ (s : State) (x0 y0 x1 y1 : Half) (c : Byte), x0.toInt ≤ x1.toInt → y0.toInt ≤ y1.toInt →
    Draws s (.roundrect x0 y0 x1 y1 0 c) (lit c) (fun px py =>
      ((py = y0.toInt ∨ py = y1.toInt) ∧ x0.toInt ≤ px ∧ px ≤ x1.toInt) ∨
      ((px = x0.toInt ∨ px = x1.toInt) ∧ y0.toInt ≤ py ∧ py ≤ y1.toInt)) ∧
    Draws s (.fillrrect x0 y0 x1 y1 0 c) (lit c) (fun px py =>
      x0.toInt ≤ px ∧ px ≤ x1.toInt ∧ y0.toInt ≤ py ∧ py ≤ y1.toInt)

/-- `CIRCLE` with a radius of 0 or more draws the four reflections of every offset of the arc; radius 0 draws the centre only
(decision D23; log entry 17). -/
def Obligations.CirclePixels : Prop :=
  ∀ (s : State) (x0 y0 r : Half) (c : Byte),
    (0 ≤ r.toInt → Draws s (.circle x0 y0 r c) (lit c) (fun px py => ∃ a ∈ arcOffsets r.toInt,
      (px = x0.toInt + a.1 ∨ px = x0.toInt - a.1) ∧ (py = y0.toInt + a.2 ∨ py = y0.toInt - a.2))) ∧
    Draws s (.circle x0 y0 0 c) (lit c) (fun px py => px = x0.toInt ∧ py = y0.toInt)

/-- The symmetry of `CIRCLE` (R218) on a framebuffer that was clear: where it is large enough to hold the whole circle, a
pixel is lit exactly when its reflections about the centre are; where part of the circle is clipped, that holds for two
reflected pixels that are both on the display. The pixels are those of the spec's reference algorithm (decision D23; log
entry 17). -/
def Obligations.CircleSymmetry : Prop :=
  ∀ (s : State) (x0 y0 r : Half) (c : Byte), 1 ≤ r.toInt → c ≠ 0 → (∀ px py, s.getPixel px py = false) →
    ∃ t, exec (.circle x0 y0 r c) s = .next t ∧
      (r.toInt ≤ x0.toInt → x0.toInt + r.toInt < s.cfg.w → r.toInt ≤ y0.toInt → y0.toInt + r.toInt < s.cfg.h →
        ∀ u v : Int, t.getPixel (x0.toInt + u) (y0.toInt + v) = t.getPixel (x0.toInt - u) (y0.toInt + v) ∧
          t.getPixel (x0.toInt + u) (y0.toInt + v) = t.getPixel (x0.toInt + u) (y0.toInt - v) ∧
          t.getPixel (x0.toInt + u) (y0.toInt + v) = t.getPixel (x0.toInt - u) (y0.toInt - v)) ∧
      ∀ u v u' v' : Int, (u' = u ∨ u' = -u) → (v' = v ∨ v' = -v) →
        inside s.cfg (x0.toInt + u) (y0.toInt + v) = true → inside s.cfg (x0.toInt + u') (y0.toInt + v') = true →
        t.getPixel (x0.toInt + u) (y0.toInt + v) = t.getPixel (x0.toInt + u') (y0.toInt + v')

/-- `FILLCIRCLE` with a radius of 0 or more draws two scan lines for every offset of the arc, and with them every pixel of
`CIRCLE`; radius 0 draws the centre only (decision D25; log entry 17). -/
def Obligations.FillCirclePixels : Prop :=
  ∀ (s : State) (x0 y0 r : Half) (c : Byte),
    (0 ≤ r.toInt → Draws s (.fillcircle x0 y0 r c) (lit c) (fun px py => ∃ a ∈ arcOffsets r.toInt,
      x0.toInt - a.1 ≤ px ∧ px ≤ x0.toInt + a.1 ∧ (py = y0.toInt + a.2 ∨ py = y0.toInt - a.2))) ∧
    (∀ t u, exec (.circle x0 y0 r c) s = .next t → exec (.fillcircle x0 y0 r c) s = .next u →
      ∀ px py, t.getPixel px py ≠ s.getPixel px py → u.getPixel px py = lit c) ∧
    Draws s (.fillcircle x0 y0 0 c) (lit c) (fun px py => px = x0.toInt ∧ py = y0.toInt)

/-- Outside the preconditions of the reference algorithms the curved shapes are refused, by name, and the refusals are the
ones the rules name. -/
def Obligations.CurvesRefusedOutside : Prop :=
  ∀ (s : State) (x0 y0 x1 y1 r : Half) (c : Byte),
    (r.toInt < 0 → exec (.circle x0 y0 r c) s = .refused .negativeRadius ∧
      exec (.fillcircle x0 y0 r c) s = .refused .negativeRadius) ∧
    ((x1.toInt < x0.toInt ∨ y1.toInt < y0.toInt ∨ r.toInt < 0 ∨ x1.toInt - x0.toInt < 2 * r.toInt ∨
        y1.toInt - y0.toInt < 2 * r.toInt) →
      exec (.roundrect x0 y0 x1 y1 r c) s = .refused .roundRectPrecondition ∧
      exec (.fillrrect x0 y0 x1 y1 r c) s = .refused .roundRectPrecondition)

/-! ## Text and bitmaps -/

/-- `LOCATE` and `FONT` complete, write their registers unchecked and change nothing else. -/
def Obligations.LocateAndFontWriteRegisters : Prop :=
  ∀ (s : State) (x y : Byte) (h : Half),
    exec (.locate x y) s = .next { s with charX := x, charY := y } ∧
    exec (.font h) s = .next { s with font := h }

/-- The newline branch of `WRCHAR`, for a font whose glyph height can be read: `char_x` becomes 0, `char_y` advances by the glyph
height or wraps to 0, compared over the integers; no pixel, no event, nothing else. -/
def Obligations.WrcharNewline : Prop :=
  ∀ (s : State) (gh : Byte), assetByte? s.cfg s.font 2 = some gh → ∃ t, exec (.wrchar s.cfg.newline) s = .next t ∧
    SameEnv s t ∧ SameFlags s t ∧ SamePort s t ∧ SameFb s t ∧ t.replies = s.replies ∧ t.font = s.font ∧ t.charX = 0 ∧
    (t.charY.toNat : Int) =
      if (s.cfg.h : Int) - gh.toNat ≤ s.charY.toNat + gh.toNat then 0 else (s.charY.toNat : Int) + gh.toNat

/-- An ignored value of `WRCHAR` changes no state and emits no event. -/
def Obligations.WrcharIgnored : Prop :=
  ∀ (s : State) (v : Byte), v ≠ s.cfg.newline → (v.toNat < 32 ∨ 127 < v.toNat) → exec (.wrchar v) s = .next s

/-- The printable branch of `WRCHAR`, for a glyph whose bytes can all be read: the width wrap, the whole `gw x gh` cell at the
cursor with its lit and unlit pixels, the advance by the glyph's own width, and one `SYNC`. -/
def Obligations.WrcharGlyph : Prop :=
  ∀ (s : State) (v bpg gw gh bps : Byte), v ≠ s.cfg.newline → 32 ≤ v.toNat → v.toNat ≤ 127 →
    GlyphReadable s v bpg gw gh bps →
    ∃ t x y, exec (.wrchar v) s = .next t ∧ SameEnv s t ∧ SameFlags s t ∧ t.replies = s.replies ∧ t.font = s.font ∧ Syncs s t ∧
      (s.charX.toNat + gw.toNat ≤ s.cfg.w → x = (s.charX.toNat : Int) ∧ y = (s.charY.toNat : Int)) ∧
      (s.cfg.w < s.charX.toNat + gw.toNat → x = 0 ∧
        y = if (s.cfg.h : Int) - gh.toNat ≤ s.charY.toNat + gh.toNat then 0 else (s.charY.toNat : Int) + gh.toNat) ∧
      (t.charX.toNat : Int) = x + gw.toNat ∧ (t.charY.toNat : Int) = y ∧
      (∀ row < gh.toNat, ∀ column < gw.toNat, ∀ b,
        assetByte? s.cfg s.font ((v.toNat - 32) * bpg.toNat + 4 + 1 + (column * bps.toNat + row / 8)) = some b →
        inside s.cfg (x + column) (y + row) = true → t.getPixel (x + column) (y + row) = b.getLsbD (row % 8)) ∧
      (∀ px py, ¬(x ≤ px ∧ px < x + gw.toNat ∧ y ≤ py ∧ py < y + gh.toNat) → t.getPixel px py = s.getPixel px py) ∧
      (∀ a, (∀ px py, x ≤ px ∧ px < x + gw.toNat ∧ y ≤ py ∧ py < y + gh.toNat → inside s.cfg px py = true →
        a ≠ pixelAddr s.cfg px py) → t.readByte a = s.readByte a)

/-- The cursor stays bounded: if `char_x ≤ W` and `char_y < H` hold before a `WRCHAR` of a glyph no wider than the display, they
hold after it. -/
def Obligations.CursorStaysBounded : Prop :=
  ∀ (s t : State) (v : Byte), exec (.wrchar v) s = .next t → s.charX.toNat ≤ s.cfg.w → s.charY.toNat < s.cfg.h →
    (∀ bpg gw, assetByte? s.cfg s.font 0 = some bpg →
      assetByte? s.cfg s.font ((v.toNat - 32) * bpg.toNat + 4) = some gw → gw.toNat ≤ s.cfg.w) →
    t.charX.toNat ≤ s.cfg.w ∧ t.charY.toNat < s.cfg.h

/-- A read outside an asset is refused, naming the asset and the byte (decision D31; log entry 15). `WRCHAR` of a printable
value: each header byte it reads (the height, which the width wrap reads too, and the strip size lie below every width byte,
so the byte named is the first byte or the width byte), the width byte, each byte of a strip. The newline: the glyph height. `TEXTWIDTH`: the header and the width byte of each drawable character. `BITMAP`: each header byte,
and the byte of each pixel its loops visit. Where several bytes are missing, the byte named is one of them. -/
def Obligations.MissingAssetBytesRefused : Prop :=
  ∀ s : State,
    (∀ v : Byte, v ≠ s.cfg.newline → 32 ≤ v.toNat → v.toNat ≤ 127 →
      (assetByte? s.cfg s.font 0 = none → exec (.wrchar v) s = .refused (.assetRead s.font 0)) ∧
      (assetByte? s.cfg s.font 2 = none ∨ assetByte? s.cfg s.font 3 = none →
        ∃ k, assetByte? s.cfg s.font k = none ∧ exec (.wrchar v) s = .refused (.assetRead s.font k)) ∧
      ∀ bpg, assetByte? s.cfg s.font 0 = some bpg →
        (assetByte? s.cfg s.font ((v.toNat - 32) * bpg.toNat + 4) = none →
          exec (.wrchar v) s = .refused (.assetRead s.font ((v.toNat - 32) * bpg.toNat + 4))) ∧
        ∀ gw gh bps, assetByte? s.cfg s.font ((v.toNat - 32) * bpg.toNat + 4) = some gw →
          assetByte? s.cfg s.font 2 = some gh → assetByte? s.cfg s.font 3 = some bps →
          (∃ row < gh.toNat, ∃ column < gw.toNat, assetByte? s.cfg s.font
            ((v.toNat - 32) * bpg.toNat + 4 + 1 + (column * bps.toNat + row / 8)) = none) →
          ∃ k, assetByte? s.cfg s.font k = none ∧ exec (.wrchar v) s = .refused (.assetRead s.font k)) ∧
    (assetByte? s.cfg s.font 2 = none → exec (.wrchar s.cfg.newline) s = .refused (.assetRead s.font 2)) ∧
    (∀ (str : List Byte), ∀ v ∈ str, 32 ≤ v.toNat → v.toNat ≤ 127 →
      (assetByte? s.cfg s.font 0 = none → exec (.textwidth str) s = .refused (.assetRead s.font 0)) ∧
      ∀ bpg, assetByte? s.cfg s.font 0 = some bpg → assetByte? s.cfg s.font ((v.toNat - 32) * bpg.toNat + 4) = none →
        ∃ k, assetByte? s.cfg s.font k = none ∧ exec (.textwidth str) s = .refused (.assetRead s.font k)) ∧
    ∀ h x y : Half,
      (assetByte? s.cfg h 0 = none → exec (.bitmap h x y) s = .refused (.assetRead h 0)) ∧
      ∀ bw, assetByte? s.cfg h 0 = some bw →
        (assetByte? s.cfg h 1 = none → exec (.bitmap h x y) s = .refused (.assetRead h 1)) ∧
        ∀ bh, assetByte? s.cfg h 1 = some bh →
          (assetByte? s.cfg h 2 = none → exec (.bitmap h x y) s = .refused (.assetRead h 2)) ∧
          ∀ bs, assetByte? s.cfg h 2 = some bs →
            (∃ v < bh.toNat, ∃ u < bw.toNat, y.toInt + v < s.cfg.h ∧ x.toInt + u < s.cfg.w ∧
              assetByte? s.cfg h (3 + v * bs.toNat + u / 8) = none) →
            ∃ k, assetByte? s.cfg h k = none ∧ exec (.bitmap h x y) s = .refused (.assetRead h k)

/-- `TEXTWIDTH` replies the sum of the declared widths of the drawable characters, which fits 16 bits, as two bytes with the
most significant first, and changes nothing else, where the widths can be read. -/
def Obligations.TextwidthSum : Prop :=
  ∀ (s : State) (str : List Byte) (width : Byte → Nat), str.length ≤ 255 →
    (∀ v ∈ str, (v.toNat < 32 ∨ 127 < v.toNat) → width v = 0) →
    (∀ v ∈ str, 32 ≤ v.toNat → v.toNat ≤ 127 → ∃ bpg gw : Byte, assetByte? s.cfg s.font 0 = some bpg ∧
      assetByte? s.cfg s.font ((v.toNat - 32) * bpg.toNat + 4) = some gw ∧ width v = gw.toNat) →
    (str.map width).sum ≤ 255 * 255 ∧
    exec (.textwidth str) s = .next { s with replies := s.replies ++
      [[BitVec.ofNat 8 ((str.map width).sum / 256), BitVec.ofNat 8 (str.map width).sum]] }

/-- `BITMAP`, where the bytes of its visible pixels can be read: every pixel of its `bw x bh` rectangle that is on the display
takes its source bit, most significant bit first, lit or unlit; everything else is as before, and one `SYNC` ends it. -/
def Obligations.BitmapPixels : Prop :=
  ∀ (s : State) (h x y : Half) (bw bh bs : Byte), assetByte? s.cfg h 0 = some bw → assetByte? s.cfg h 1 = some bh →
    assetByte? s.cfg h 2 = some bs →
    (∀ v < bh.toNat, ∀ u < bw.toNat, y.toInt + v < s.cfg.h → x.toInt + u < s.cfg.w →
      (assetByte? s.cfg h (3 + v * bs.toNat + u / 8)).isSome = true) →
    ∃ t, exec (.bitmap h x y) s = .next t ∧ SameCore s t ∧ Syncs s t ∧
      (∀ v < bh.toNat, ∀ u < bw.toNat, ∀ b, assetByte? s.cfg h (3 + v * bs.toNat + u / 8) = some b →
        inside s.cfg (x.toInt + u) (y.toInt + v) = true →
        t.getPixel (x.toInt + u) (y.toInt + v) = b.getLsbD (7 - u % 8)) ∧
      (∀ px py, ¬(x.toInt ≤ px ∧ px < x.toInt + bw.toNat ∧ y.toInt ≤ py ∧ py < y.toInt + bh.toNat) →
        t.getPixel px py = s.getPixel px py) ∧
      (∀ a, (∀ px py, x.toInt ≤ px ∧ px < x.toInt + bw.toNat ∧ y.toInt ≤ py ∧ py < y.toInt + bh.toNat →
        inside s.cfg px py = true → a ≠ pixelAddr s.cfg px py) → t.readByte a = s.readByte a)

/-! ## Rules over all instructions -/

/-- Auto-update gating (R153): a drawing call that completes emits nothing with `auto_update = 0`, exactly one page transfer
with `auto_update = 1`, of the framebuffer as its last write left it, and leaves `auto_update` as it was; a `WRCHAR` that draws
nothing emits no event and leaves the framebuffer. -/
def Obligations.AutoUpdateGating : Prop :=
  ∀ (i : Instr) (s t : State), exec i s = .next t →
    (drawingCall s i = true → t.autoUpdate = s.autoUpdate ∧ (s.autoUpdate = false → SamePort s t) ∧
      (s.autoUpdate = true → Emits s t t.flushEvents)) ∧
    ∀ v, i = .wrchar v → drawingCall s i = false → SamePort s t ∧ SameFb s t

/-- Of the operations outside the policy (R154), those without a transfer: `SETPIX`, `GETPIX`, `UPDMODE`, `LOCATE`, `FONT`,
`TEXTWIDTH` and a `WRCHAR` that draws nothing emit no event, and the display modes but the two orientation modes send no data. -/
def Obligations.OthersNeverTransfer : Prop :=
  ∀ (i : Instr) (s t : State), exec i s = .next t →
    ((∃ x y c, i = .setpix x y c) ∨ (∃ x y, i = .getpix x y) ∨ (∃ m, i = .updmode m) ∨ (∃ x y, i = .locate x y) ∨
      (∃ h, i = .font h) ∨ (∃ str, i = .textwidth str) ∨
      (∃ v, i = .wrchar v ∧ drawingCall s (.wrchar v) = false) → SamePort s t) ∧
    (i = .dmOn ∨ i = .dmOff ∨ i = .dmSleep ∨ i = .dmInvert ∨ i = .dmDefault ∨ i = .dmContrast ∨
      (∃ v, i = .dispmodevContrast v) ∨ (∃ m v, i = .dispmodevOther m v) →
      ∃ es, t.trace = s.trace ++ es ∧ datBytes es = [])

/-- Who writes what: each part of the architectural state is changed only by the operations R33 and R23 to R27 name as its
writers, the replies only by the two operations that R81 gives a reply, and no operation changes the configuration (R28). That
replies are state is the model's choice (log entry 12), and so are the power-on draw and the input ports, which no operation
changes either (log entries 6, 7, 10). -/
def Obligations.WriterTable : Prop :=
  ∀ (i : Instr) (s t : State), exec i s = .next t →
    SameEnv s t ∧
    (t.topview ≠ s.topview → i = .dmTopview ∨ i = .dmBottom) ∧
    (t.autoUpdate ≠ s.autoUpdate → i = .init ∨ ∃ m, i = .updmode m) ∧
    (t.charX ≠ s.charX ∨ t.charY ≠ s.charY → i = .init ∨ (∃ x y, i = .locate x y) ∨ ∃ v, i = .wrchar v) ∧
    (t.font ≠ s.font → i = .init ∨ ∃ h, i = .font h) ∧
    (t.fb ≠ s.fb → writesFb i = true) ∧
    (t.replies ≠ s.replies → (∃ x y, i = .getpix x y) ∨ ∃ str, i = .textwidth str)

/-- The trace (R31, R140) and the replies only grow, over every step. That a reply stays in the list is the model's choice (log
entry 12). -/
def Obligations.ObservationsOnlyGrow : Prop :=
  ∀ s t : State, step s = .next t → s.trace <+: t.trace ∧ s.replies <+: t.replies

/-- Every instruction outside the refusing part of the macro layer completes in every state: the core operations, the serial
commands, the reserved encodings and the polygonal shapes are total. -/
def Obligations.CoreNeverRefuses : Prop :=
  ∀ (i : Instr) (s : State), mayRefuse i = false → ∃ t, exec i s = .next t

/-- A refusal is one of those the spec names, for its reason: a byte that the asset does not have, read by a text or bitmap
operation, or a curved shape outside its precondition. -/
def Obligations.RefusalsAreTheSpecs : Prop :=
  ∀ (i : Instr) (s : State) (r : Refusal), exec i s = .refused r →
    (∃ h k, r = .assetRead h k ∧ assetByte? s.cfg h k = none ∧
      ((∃ v, i = .wrchar v ∧ h = s.font) ∨ (∃ str, i = .textwidth str ∧ h = s.font) ∨ ∃ x y, i = .bitmap h x y)) ∨
    (r = .negativeRadius ∧ ∃ x y rad c, (i = .circle x y rad c ∨ i = .fillcircle x y rad c) ∧ rad.toInt < 0) ∨
    (r = .roundRectPrecondition ∧ ∃ x0 y0 x1 y1 rad c,
      (i = .roundrect x0 y0 x1 y1 rad c ∨ i = .fillrrect x0 y0 x1 y1 rad c) ∧
      ¬(x0.toInt ≤ x1.toInt ∧ y0.toInt ≤ y1.toInt ∧ 0 ≤ rad.toInt ∧ 2 * rad.toInt ≤ x1.toInt - x0.toInt ∧
        2 * rad.toInt ≤ y1.toInt - y0.toInt))

/-- Every command byte the block emits is a row of R90, whatever the instruction and whatever the step; an overridden
`INIT_SEQ` matters for `INIT` alone (R92), which is asked to have the structure of R161. -/
def Obligations.EmittedCommandsAreTabled : Prop :=
  (∀ (i : Instr) (s t : State), exec i s = .next t →
    (i = .init → s.cfg.initSeq = initSeqOf s.cfg.serCmd s.cfg.biasCmd s.cfg.contrastDefault) →
    ∃ es, t.trace = s.trace ++ es ∧
      ∀ b ∈ cmdBytes es, ∃ j : Instr, j.serial = true ∧ encode s.cfg.serCmd s.cfg.biasCmd j = [b]) ∧
  ∀ s t : State, step s = .next t →
    ((∃ rest, s.seqCmds = [] ∧ decodeHost s.hostPort = .ok (.init, rest)) →
      s.cfg.initSeq = initSeqOf s.cfg.serCmd s.cfg.biasCmd s.cfg.contrastDefault) →
    ∃ es, t.trace = s.trace ++ es ∧
      ∀ b ∈ cmdBytes es, ∃ j : Instr, j.serial = true ∧ encode s.cfg.serCmd s.cfg.biasCmd j = [b]

/-! ## The far side -/

/-- With the default command bytes, the command stream is between commands at reset and after every host operation. -/
def Obligations.StreamStaysSettled : Prop :=
  (∀ (c : Config) (draw : Nat), Settled (State.resetOf c draw)) ∧
  ∀ (i : Instr) (s t : State), StandardCommands s.cfg → Settled s → i.serial = false → exec i s = .next t → Settled t

/-- The transitions of the session view, row by row (R184), with the default command bytes. The rows but that of `INIT` are for
a controller that has had a reset pulse: before it the view is unknown, and no operation but `INIT` changes that (R183, R291). -/
def Obligations.SessionTransitions : Prop :=
  ∀ s : State, StandardCommands s.cfg → Settled s →
    (∃ t, exec .init s = .next t ∧ t.panel.view = { adc := some .reverse, com := some .normal, polarity := some .normal, allpts := none, display := some .on, contrast := some (s.cfg.contrastDefault.setWidth 6), inited := true }) ∧
    (s.panel.pulsed = true →
      (∃ t, exec .dmOn s = .next t ∧ t.panel.view = { s.panel.view with allpts := some .off, display := some .on }) ∧
      (∃ t, exec .dmOff s = .next t ∧ t.panel.view = { s.panel.view with display := some .off }) ∧
      (∃ t, exec .dmSleep s = .next t ∧ t.panel.view = { s.panel.view with allpts := some .on, display := some .off }) ∧
      (∃ t, exec .dmInvert s = .next t ∧ t.panel.view = { s.panel.view with polarity := some .inverted }) ∧
      (∃ t, exec .dmDefault s = .next t ∧ t.panel.view = { s.panel.view with polarity := some .normal }) ∧
      (∃ t, exec .dmTopview s = .next t ∧ t.topview = true ∧
        t.panel.view = { s.panel.view with adc := some .normal, com := some .reverse }) ∧
      (∃ t, exec .dmBottom s = .next t ∧ t.topview = false ∧
        t.panel.view = { s.panel.view with adc := some .reverse, com := some .normal }) ∧
      (∃ t, exec .dmContrast s = .next t ∧
        t.panel.view = { s.panel.view with contrast := some (s.cfg.contrastDefault.setWidth 6) }) ∧
      ∀ v : Byte, v.toNat < 64 → ∃ t, exec (.dispmodevContrast v) s = .next t ∧
        t.panel.view = { s.panel.view with contrast := some (v.setWidth 6) }) ∧
    (∀ v : Byte, 64 ≤ v.toNat → ∃ t, exec (.dispmodevContrast v) s = .next t ∧ t.panel.view = s.panel.view) ∧
    (∀ i t, i.serial = false → exec i s = .next t → i ≠ .init → i ≠ .dmOn → i ≠ .dmOff → i ≠ .dmSleep → i ≠ .dmInvert →
      i ≠ .dmDefault → i ≠ .dmTopview → i ≠ .dmBottom → i ≠ .dmContrast → (∀ v, i ≠ .dispmodevContrast v) →
      t.panel.view = s.panel.view) ∧
    (s.panel.pulsed = false → ∀ i t, i.serial = false → exec i s = .next t → i ≠ .init → t.panel.view = s.panel.view)

/-- Consistency of the orientation, from every state that meets the invariant: every host operation but `INIT` keeps it, the
orientation modes establish it once a reset pulse has occurred, and after `INIT` it holds exactly if `topview` is 0. -/
def Obligations.OrientationKept : Prop :=
  ∀ (i : Instr) (s t : State), StandardCommands s.cfg → Settled s → StateInv s → i.serial = false → exec i s = .next t →
    (i ≠ .init → Oriented s → Oriented t) ∧
    (s.panel.pulsed = true → i = .dmTopview ∨ i = .dmBottom → Oriented t) ∧
    (i = .init → (Oriented t ↔ s.topview = false))

/-- After a page transfer the controller's data RAM holds the framebuffer: cell `(p, c0 + i)` is `FB[p * W + i]`, wherever the
column start leaves room for the width, once a reset pulse has occurred. And the data RAM changes only by a page transfer
(R61): an operation that changes it ended its events with one of the framebuffer as the operation left it. Rests on the shadow
of R66, which is general knowledge (log entry 14). -/
def Obligations.FlushShowsFramebuffer : Prop :=
  (∀ s : State, StandardCommands s.cfg → Settled s → s.panel.pulsed = true → s.columnStart + s.cfg.w ≤ 132 →
    ∃ t, exec .flush s = .next t ∧ ∀ p < s.cfg.p, ∀ k < s.cfg.w,
      t.panel.cell p (s.columnStart + k) = some (s.readByte (p * s.cfg.w + k))) ∧
  ∀ (i : Instr) (s t : State), exec i s = .next t → t.panel.ddram ≠ s.panel.ddram →
    ∃ es, t.trace = s.trace ++ es ++ t.flushEvents
end

