-- ==== Sys2Proof/Laws/Decode.lean ====
section
/-! SUPPORT. The fields of a packet, said once: a two-byte field split and joined, and what a field reader has read. -/

namespace Sys2Proof

theorem joinBytes_toNat (hi lo : Byte) : (joinBytes hi lo).toNat = hi.toNat * 256 + lo.toNat := by
  unfold joinBytes
  rw [show (hi ++ lo : BitVec (8 + 8)).toNat = _ from BitVec.toNat_append _ _,
    ← Nat.shiftLeft_add_eq_or_of_lt lo.isLt, Nat.shiftLeft_eq]

@[simp] theorem joinBytes_extract (v : Half) : joinBytes (v.extractLsb' 8 8) (v.extractLsb' 0 8) = v := by
  apply BitVec.eq_of_toNat_eq
  rw [joinBytes_toNat]
  simp [Nat.shiftRight_eq_div_pow]
  have := v.isLt
  omega

@[simp] theorem splitHalf_joinBytes (hi lo : Byte) : splitHalf (joinBytes hi lo) = [hi, lo] := by
  have h1 : (joinBytes hi lo).extractLsb' 8 8 = hi := by
    apply BitVec.eq_of_toNat_eq
    simp [joinBytes_toNat, Nat.shiftRight_eq_div_pow]
    have := hi.isLt
    have := lo.isLt
    omega
  have h2 : (joinBytes hi lo).extractLsb' 0 8 = lo := by
    apply BitVec.eq_of_toNat_eq
    simp [joinBytes_toNat]
    exact lo.isLt
  rw [splitHalf, h1, h2]

/-- A number as a `u16` field: its high byte, then its low byte. -/
theorem splitHalf_ofNat (n : Nat) : splitHalf (BitVec.ofNat 16 n) = [BitVec.ofNat 8 (n / 256), BitVec.ofNat 8 n] := by
  simp only [splitHalf, List.cons.injEq, and_true]
  constructor
  · apply BitVec.eq_of_toNat_eq
    simp [Nat.shiftRight_eq_div_pow]
    omega
  · apply BitVec.eq_of_toNat_eq
    simp

theorem readU8_ok {op : Byte} {bytes : List Byte} {next : Byte → List Byte → Decoded} {r : Instr × List Byte}
    (h : readU8 op bytes next = .ok r) : ∃ b rest, bytes = b :: rest ∧ next b rest = .ok r := by
  cases bytes with
  | nil => cases h
  | cons b rest => exact ⟨b, rest, rfl, h⟩

theorem readU16_ok {op : Byte} {bytes : List Byte} {next : Half → List Byte → Decoded} {r : Instr × List Byte}
    (h : readU16 op bytes next = .ok r) : ∃ v rest, bytes = splitHalf v ++ rest ∧ next v rest = .ok r := by
  match bytes, h with
  | [], h => cases h
  | [_], h => cases h
  | hi :: lo :: rest, h => exact ⟨joinBytes hi lo, rest, by rw [splitHalf_joinBytes]; rfl, h⟩

end Sys2Proof
end

