-- ==== Sys2Proof/Laws/Memory.lean ====
section
/-! SUPPORT. The laws of a memory in canonical form: what a read gives after a write, and that every operation keeps the form. -/

namespace Sys2Proof.Machine

theorem Memory.read_write (m : Memory) (a b : Nat) (v : Byte) :
    Memory.read (Memory.write m a v) b = if b = a then some v else Memory.read m b := by
  induction m with
  | nil => simp [Memory.write, Memory.read]
  | cons c m ih =>
    obtain ⟨d, w⟩ := c
    simp only [Memory.write]
    by_cases h1 : a < d
    · rw [if_pos h1]
      simp only [Memory.read]
    · rw [if_neg h1]
      by_cases h2 : a = d
      · rw [if_pos h2]
        simp only [Memory.read, ← h2]
        split_ifs <;> rfl
      · rw [if_neg h2]
        simp only [Memory.read, ih]
        split_ifs <;> first | rfl | omega

theorem Memory.read_write_same (m : Memory) (a : Nat) (v : Byte) :
    Memory.read (Memory.write m a v) a = some v := by rw [Memory.read_write, if_pos rfl]

theorem Memory.read_write_other (m : Memory) {a b : Nat} (v : Byte) (h : b ≠ a) :
    Memory.read (Memory.write m a v) b = Memory.read m b := by rw [Memory.read_write, if_neg h]

/-- The canonical form as a pairwise order of the addresses. -/
theorem Memory.wf_iff_pairwise (m : Memory) : Memory.wf m = true ↔ m.Pairwise (fun c d => c.1 < d.1) := by
  induction m with
  | nil => simp [Memory.wf]
  | cons c m ih =>
    cases m with
    | nil => simp [Memory.wf]
    | cons d rest =>
      rw [Memory.wf, Bool.and_eq_true, ih, decide_eq_true_iff, List.pairwise_cons (a := c)]
      constructor
      · rintro ⟨h, hp⟩
        refine ⟨fun e he => ?_, hp⟩
        rcases List.mem_cons.mp he with rfl | he
        · exact h
        · exact lt_trans h ((List.pairwise_cons.mp hp).1 e he)
      · rintro ⟨h, hp⟩
        exact ⟨h d (by simp), hp⟩

/-- A write adds no address but its own. -/
theorem Memory.mem_write {m : Memory} {a : Nat} {v : Byte} {c : Host.Cell} (h : c ∈ Memory.write m a v) :
    c = (a, v) ∨ c ∈ m := by
  induction m with
  | nil => simpa [Memory.write] using h
  | cons d m ih =>
    obtain ⟨e, w⟩ := d
    simp only [Memory.write] at h
    split_ifs at h
    · rcases List.mem_cons.mp h with h | h
      · exact .inl h
      · exact .inr h
    · rcases List.mem_cons.mp h with h | h
      · exact .inl h
      · exact .inr (List.mem_cons_of_mem _ h)
    · rcases List.mem_cons.mp h with h | h
      · exact .inr (by simp [h])
      · rcases ih h with h | h
        · exact .inl h
        · exact .inr (List.mem_cons_of_mem _ h)

theorem Memory.wf_write {m : Memory} (h : Memory.wf m = true) (a : Nat) (v : Byte) :
    Memory.wf (Memory.write m a v) = true := by
  rw [Memory.wf_iff_pairwise] at *
  induction m with
  | nil => simp [Memory.write]
  | cons d m ih =>
    obtain ⟨e, w⟩ := d
    obtain ⟨hd, hm⟩ := List.pairwise_cons.mp h
    simp only [Memory.write]
    split_ifs with h1 h2
    · refine List.pairwise_cons.mpr ⟨fun c hc => ?_, h⟩
      rcases List.mem_cons.mp hc with rfl | hc
      · exact h1
      · exact lt_trans h1 (hd c hc)
    · subst h2
      exact List.pairwise_cons.mpr ⟨hd, hm⟩
    · refine List.pairwise_cons.mpr ⟨fun c hc => ?_, ih hm⟩
      rcases Memory.mem_write hc with rfl | hc
      · change e < a
        omega
      · exact hd c hc

theorem Memory.mem_clear {n : Nat} {m : Memory} {c : Host.Cell} (h : c ∈ Memory.clear n m) :
    (c.1 < n ∧ c.2 = 0) ∨ (n ≤ c.1 ∧ c ∈ m) := by
  rw [Memory.clear, List.mem_append] at h
  rcases h with h | h
  · obtain ⟨a, ha, rfl⟩ := List.mem_map.mp h
    exact .inl ⟨List.mem_range.mp ha, rfl⟩
  · obtain ⟨hm, hn⟩ := List.mem_filter.mp h
    exact .inr ⟨of_decide_eq_true hn, hm⟩

theorem Memory.wf_clear {m : Memory} (h : Memory.wf m = true) (n : Nat) : Memory.wf (Memory.clear n m) = true := by
  rw [Memory.wf_iff_pairwise] at *
  rw [Memory.clear, List.pairwise_append]
  refine ⟨?_, h.filter _, ?_⟩
  · rw [List.pairwise_map]
    exact List.pairwise_lt_range
  · intro c hc d hd
    obtain ⟨a, ha, rfl⟩ := List.mem_map.mp hc
    have h1 := List.mem_range.mp ha
    have h2 := of_decide_eq_true (List.mem_filter.mp hd).2
    exact lt_of_lt_of_le h1 h2

/-- What is forgotten reads as not listed, the rest as before. -/
theorem Memory.read_forget (which : Nat → Bool) (m : Memory) (a : Nat) :
    Memory.read (Memory.forget which m) a = if which a then none else Memory.read m a := by
  induction m with
  | nil => simp [Memory.forget, Memory.read]
  | cons c m ih =>
    obtain ⟨b, w⟩ := c
    simp only [Memory.forget, List.filter_cons] at ih ⊢
    by_cases hb : which b = true
    · rw [if_neg (by simp [hb]), ih]
      by_cases hab : a = b
      · subst hab
        simp [hb]
      · simp [Memory.read, hab]
    · rw [if_pos (by simp [hb])]
      by_cases hab : a = b
      · subst hab
        simp [Memory.read, hb]
      · simpa [Memory.read, hab] using ih

theorem Memory.wf_forget {m : Memory} (h : Memory.wf m = true) (which : Nat → Bool) :
    Memory.wf (Memory.forget which m) = true := by
  rw [Memory.wf_iff_pairwise] at *
  exact h.filter _

/-- Reading a list of zeros put in front of a memory. -/
theorem Memory.read_append (l m : Memory) (a : Nat) :
    Memory.read (l ++ m) a = (Memory.read l a).or (Memory.read m a) := by
  induction l with
  | nil => simp [Memory.read]
  | cons c l ih =>
    obtain ⟨b, w⟩ := c
    simp only [List.cons_append, Memory.read]
    split_ifs
    · rfl
    · exact ih

theorem Memory.read_eq_none {m : Memory} {a : Nat} (h : ∀ c ∈ m, c.1 ≠ a) : Memory.read m a = none := by
  induction m with
  | nil => rfl
  | cons c m ih =>
    obtain ⟨b, w⟩ := c
    simp only [Memory.read]
    rw [if_neg (fun e => h (b, w) (by simp) e.symm)]
    exact ih fun d hd => h d (List.mem_cons_of_mem _ hd)

theorem Memory.read_map_zero (l : List Nat) (a : Nat) :
    Memory.read (l.map fun b => (b, (0 : Byte))) a = if a ∈ l then some 0 else none := by
  induction l with
  | nil => simp [Memory.read]
  | cons b l ih =>
    simp only [List.map_cons, Memory.read, ih, List.mem_cons]
    split_ifs <;> simp_all

theorem Memory.read_filter (m : Memory) (n a : Nat) (h : n ≤ a) :
    Memory.read (m.filter fun c => decide (n ≤ c.1)) a = Memory.read m a := by
  induction m with
  | nil => rfl
  | cons c m ih =>
    obtain ⟨b, w⟩ := c
    by_cases hb : n ≤ b
    · rw [List.filter_cons_of_pos (by simpa using hb)]
      simp only [Memory.read, ih]
    · rw [List.filter_cons_of_neg (by simpa using hb)]
      simp only [Memory.read, ih]
      rw [if_neg (by omega)]

theorem Memory.read_clear (n : Nat) (m : Memory) (a : Nat) :
    Memory.read (Memory.clear n m) a = if a < n then some 0 else Memory.read m a := by
  rw [Memory.clear, Memory.read_append, Memory.read_map_zero]
  split_ifs with h1 h2 h2
  · rfl
  · exact absurd (List.mem_range.mp h1) h2
  · exact absurd (List.mem_range.mpr h2) h1
  · rw [Option.none_or, Memory.read_filter m n a (by omega)]

end Sys2Proof.Machine
end

