-- ==== Sys2Proof/Laws/State.lean ====
section
/-! SUPPORT. One lemma per field per update of State, true by rfl, so that no proof unfolds a record update. -/

namespace Sys2Proof.Machine

variable (s : State)

/-! ### `setTopview` -/

@[simp] theorem setTopview_cfg (v : Bool) : (s.setTopview v).cfg = s.cfg := rfl
@[simp] theorem setTopview_powerOn (v : Bool) : (s.setTopview v).powerOn = s.powerOn := rfl
@[simp] theorem setTopview_fb (v : Bool) : (s.setTopview v).fb = s.fb := rfl
@[simp] theorem setTopview_topview (v : Bool) : (s.setTopview v).topview = v := rfl
@[simp] theorem setTopview_autoUpdate (v : Bool) : (s.setTopview v).autoUpdate = s.autoUpdate := rfl
@[simp] theorem setTopview_charX (v : Bool) : (s.setTopview v).charX = s.charX := rfl
@[simp] theorem setTopview_charY (v : Bool) : (s.setTopview v).charY = s.charY := rfl
@[simp] theorem setTopview_font (v : Bool) : (s.setTopview v).font = s.font := rfl
@[simp] theorem setTopview_trace (v : Bool) : (s.setTopview v).trace = s.trace := rfl
@[simp] theorem setTopview_replies (v : Bool) : (s.setTopview v).replies = s.replies := rfl
@[simp] theorem setTopview_lines (v : Bool) : (s.setTopview v).lines = s.lines := rfl
@[simp] theorem setTopview_panel (v : Bool) : (s.setTopview v).panel = s.panel := rfl
@[simp] theorem setTopview_hostPort (v : Bool) : (s.setTopview v).hostPort = s.hostPort := rfl
@[simp] theorem setTopview_seqCmds (v : Bool) : (s.setTopview v).seqCmds = s.seqCmds := rfl

/-! ### `setAutoUpdate` -/

@[simp] theorem setAutoUpdate_cfg (v : Bool) : (s.setAutoUpdate v).cfg = s.cfg := rfl
@[simp] theorem setAutoUpdate_powerOn (v : Bool) : (s.setAutoUpdate v).powerOn = s.powerOn := rfl
@[simp] theorem setAutoUpdate_fb (v : Bool) : (s.setAutoUpdate v).fb = s.fb := rfl
@[simp] theorem setAutoUpdate_topview (v : Bool) : (s.setAutoUpdate v).topview = s.topview := rfl
@[simp] theorem setAutoUpdate_autoUpdate (v : Bool) : (s.setAutoUpdate v).autoUpdate = v := rfl
@[simp] theorem setAutoUpdate_charX (v : Bool) : (s.setAutoUpdate v).charX = s.charX := rfl
@[simp] theorem setAutoUpdate_charY (v : Bool) : (s.setAutoUpdate v).charY = s.charY := rfl
@[simp] theorem setAutoUpdate_font (v : Bool) : (s.setAutoUpdate v).font = s.font := rfl
@[simp] theorem setAutoUpdate_trace (v : Bool) : (s.setAutoUpdate v).trace = s.trace := rfl
@[simp] theorem setAutoUpdate_replies (v : Bool) : (s.setAutoUpdate v).replies = s.replies := rfl
@[simp] theorem setAutoUpdate_lines (v : Bool) : (s.setAutoUpdate v).lines = s.lines := rfl
@[simp] theorem setAutoUpdate_panel (v : Bool) : (s.setAutoUpdate v).panel = s.panel := rfl
@[simp] theorem setAutoUpdate_hostPort (v : Bool) : (s.setAutoUpdate v).hostPort = s.hostPort := rfl
@[simp] theorem setAutoUpdate_seqCmds (v : Bool) : (s.setAutoUpdate v).seqCmds = s.seqCmds := rfl

/-! ### `writeByte` -/

@[simp] theorem writeByte_cfg (a : Nat) (v : Byte) : (s.writeByte a v).cfg = s.cfg := rfl
@[simp] theorem writeByte_powerOn (a : Nat) (v : Byte) : (s.writeByte a v).powerOn = s.powerOn := rfl
@[simp] theorem writeByte_fb (a : Nat) (v : Byte) : (s.writeByte a v).fb = Memory.write s.fb a v := rfl
@[simp] theorem writeByte_topview (a : Nat) (v : Byte) : (s.writeByte a v).topview = s.topview := rfl
@[simp] theorem writeByte_autoUpdate (a : Nat) (v : Byte) : (s.writeByte a v).autoUpdate = s.autoUpdate := rfl
@[simp] theorem writeByte_charX (a : Nat) (v : Byte) : (s.writeByte a v).charX = s.charX := rfl
@[simp] theorem writeByte_charY (a : Nat) (v : Byte) : (s.writeByte a v).charY = s.charY := rfl
@[simp] theorem writeByte_font (a : Nat) (v : Byte) : (s.writeByte a v).font = s.font := rfl
@[simp] theorem writeByte_trace (a : Nat) (v : Byte) : (s.writeByte a v).trace = s.trace := rfl
@[simp] theorem writeByte_replies (a : Nat) (v : Byte) : (s.writeByte a v).replies = s.replies := rfl
@[simp] theorem writeByte_lines (a : Nat) (v : Byte) : (s.writeByte a v).lines = s.lines := rfl
@[simp] theorem writeByte_panel (a : Nat) (v : Byte) : (s.writeByte a v).panel = s.panel := rfl
@[simp] theorem writeByte_hostPort (a : Nat) (v : Byte) : (s.writeByte a v).hostPort = s.hostPort := rfl
@[simp] theorem writeByte_seqCmds (a : Nat) (v : Byte) : (s.writeByte a v).seqCmds = s.seqCmds := rfl

/-! ### `zeroFb` -/

@[simp] theorem zeroFb_cfg : s.zeroFb.cfg = s.cfg := rfl
@[simp] theorem zeroFb_powerOn : s.zeroFb.powerOn = s.powerOn := rfl
@[simp] theorem zeroFb_fb : s.zeroFb.fb = Memory.clear (fbSize s.cfg) s.fb := rfl
@[simp] theorem zeroFb_topview : s.zeroFb.topview = s.topview := rfl
@[simp] theorem zeroFb_autoUpdate : s.zeroFb.autoUpdate = s.autoUpdate := rfl
@[simp] theorem zeroFb_charX : s.zeroFb.charX = s.charX := rfl
@[simp] theorem zeroFb_charY : s.zeroFb.charY = s.charY := rfl
@[simp] theorem zeroFb_font : s.zeroFb.font = s.font := rfl
@[simp] theorem zeroFb_trace : s.zeroFb.trace = s.trace := rfl
@[simp] theorem zeroFb_replies : s.zeroFb.replies = s.replies := rfl
@[simp] theorem zeroFb_lines : s.zeroFb.lines = s.lines := rfl
@[simp] theorem zeroFb_panel : s.zeroFb.panel = s.panel := rfl
@[simp] theorem zeroFb_hostPort : s.zeroFb.hostPort = s.hostPort := rfl
@[simp] theorem zeroFb_seqCmds : s.zeroFb.seqCmds = s.seqCmds := rfl

/-! ### `emit` -/

@[simp] theorem emit_cfg (es : List Event) : (s.emit es).cfg = s.cfg := rfl
@[simp] theorem emit_powerOn (es : List Event) : (s.emit es).powerOn = s.powerOn := rfl
@[simp] theorem emit_fb (es : List Event) : (s.emit es).fb = s.fb := rfl
@[simp] theorem emit_topview (es : List Event) : (s.emit es).topview = s.topview := rfl
@[simp] theorem emit_autoUpdate (es : List Event) : (s.emit es).autoUpdate = s.autoUpdate := rfl
@[simp] theorem emit_charX (es : List Event) : (s.emit es).charX = s.charX := rfl
@[simp] theorem emit_charY (es : List Event) : (s.emit es).charY = s.charY := rfl
@[simp] theorem emit_font (es : List Event) : (s.emit es).font = s.font := rfl
@[simp] theorem emit_trace (es : List Event) : (s.emit es).trace = s.trace ++ es := rfl
@[simp] theorem emit_replies (es : List Event) : (s.emit es).replies = s.replies := rfl
@[simp] theorem emit_lines (es : List Event) : (s.emit es).lines = es.foldl SerialLines.after s.lines := rfl
@[simp] theorem emit_panel (es : List Event) : (s.emit es).panel = es.foldl (Panel.observe s.cfg) s.panel := rfl
@[simp] theorem emit_hostPort (es : List Event) : (s.emit es).hostPort = s.hostPort := rfl
@[simp] theorem emit_seqCmds (es : List Event) : (s.emit es).seqCmds = s.seqCmds := rfl

/-! ### `sendCmds` -/

@[simp] theorem sendCmds_cfg (bs : List Byte) : (s.sendCmds bs).cfg = s.cfg := rfl
@[simp] theorem sendCmds_powerOn (bs : List Byte) : (s.sendCmds bs).powerOn = s.powerOn := rfl
@[simp] theorem sendCmds_fb (bs : List Byte) : (s.sendCmds bs).fb = s.fb := rfl
@[simp] theorem sendCmds_topview (bs : List Byte) : (s.sendCmds bs).topview = s.topview := rfl
@[simp] theorem sendCmds_autoUpdate (bs : List Byte) : (s.sendCmds bs).autoUpdate = s.autoUpdate := rfl
@[simp] theorem sendCmds_charX (bs : List Byte) : (s.sendCmds bs).charX = s.charX := rfl
@[simp] theorem sendCmds_charY (bs : List Byte) : (s.sendCmds bs).charY = s.charY := rfl
@[simp] theorem sendCmds_font (bs : List Byte) : (s.sendCmds bs).font = s.font := rfl
@[simp] theorem sendCmds_trace (bs : List Byte) : (s.sendCmds bs).trace = s.trace ++ bs.map Event.cmd := rfl
@[simp] theorem sendCmds_replies (bs : List Byte) : (s.sendCmds bs).replies = s.replies := rfl
@[simp] theorem sendCmds_lines (bs : List Byte) : (s.sendCmds bs).lines = (bs.map Event.cmd).foldl SerialLines.after s.lines := rfl
@[simp] theorem sendCmds_panel (bs : List Byte) : (s.sendCmds bs).panel = (bs.map Event.cmd).foldl (Panel.observe s.cfg) s.panel := rfl
@[simp] theorem sendCmds_hostPort (bs : List Byte) : (s.sendCmds bs).hostPort = s.hostPort := rfl
@[simp] theorem sendCmds_seqCmds (bs : List Byte) : (s.sendCmds bs).seqCmds = s.seqCmds := rfl

/-! ### `reply` -/

@[simp] theorem reply_cfg (r : Reply) : (s.reply r).cfg = s.cfg := rfl
@[simp] theorem reply_powerOn (r : Reply) : (s.reply r).powerOn = s.powerOn := rfl
@[simp] theorem reply_fb (r : Reply) : (s.reply r).fb = s.fb := rfl
@[simp] theorem reply_topview (r : Reply) : (s.reply r).topview = s.topview := rfl
@[simp] theorem reply_autoUpdate (r : Reply) : (s.reply r).autoUpdate = s.autoUpdate := rfl
@[simp] theorem reply_charX (r : Reply) : (s.reply r).charX = s.charX := rfl
@[simp] theorem reply_charY (r : Reply) : (s.reply r).charY = s.charY := rfl
@[simp] theorem reply_font (r : Reply) : (s.reply r).font = s.font := rfl
@[simp] theorem reply_trace (r : Reply) : (s.reply r).trace = s.trace := rfl
@[simp] theorem reply_replies (r : Reply) : (s.reply r).replies = s.replies ++ [r] := rfl
@[simp] theorem reply_lines (r : Reply) : (s.reply r).lines = s.lines := rfl
@[simp] theorem reply_panel (r : Reply) : (s.reply r).panel = s.panel := rfl
@[simp] theorem reply_hostPort (r : Reply) : (s.reply r).hostPort = s.hostPort := rfl
@[simp] theorem reply_seqCmds (r : Reply) : (s.reply r).seqCmds = s.seqCmds := rfl

/-! ### `setCursor` -/

@[simp] theorem setCursor_cfg (x y : Byte) : (s.setCursor x y).cfg = s.cfg := rfl
@[simp] theorem setCursor_powerOn (x y : Byte) : (s.setCursor x y).powerOn = s.powerOn := rfl
@[simp] theorem setCursor_fb (x y : Byte) : (s.setCursor x y).fb = s.fb := rfl
@[simp] theorem setCursor_topview (x y : Byte) : (s.setCursor x y).topview = s.topview := rfl
@[simp] theorem setCursor_autoUpdate (x y : Byte) : (s.setCursor x y).autoUpdate = s.autoUpdate := rfl
@[simp] theorem setCursor_charX (x y : Byte) : (s.setCursor x y).charX = x := rfl
@[simp] theorem setCursor_charY (x y : Byte) : (s.setCursor x y).charY = y := rfl
@[simp] theorem setCursor_font (x y : Byte) : (s.setCursor x y).font = s.font := rfl
@[simp] theorem setCursor_trace (x y : Byte) : (s.setCursor x y).trace = s.trace := rfl
@[simp] theorem setCursor_replies (x y : Byte) : (s.setCursor x y).replies = s.replies := rfl
@[simp] theorem setCursor_lines (x y : Byte) : (s.setCursor x y).lines = s.lines := rfl
@[simp] theorem setCursor_panel (x y : Byte) : (s.setCursor x y).panel = s.panel := rfl
@[simp] theorem setCursor_hostPort (x y : Byte) : (s.setCursor x y).hostPort = s.hostPort := rfl
@[simp] theorem setCursor_seqCmds (x y : Byte) : (s.setCursor x y).seqCmds = s.seqCmds := rfl

/-! ### `setFont` -/

@[simp] theorem setFont_cfg (h : Half) : (s.setFont h).cfg = s.cfg := rfl
@[simp] theorem setFont_powerOn (h : Half) : (s.setFont h).powerOn = s.powerOn := rfl
@[simp] theorem setFont_fb (h : Half) : (s.setFont h).fb = s.fb := rfl
@[simp] theorem setFont_topview (h : Half) : (s.setFont h).topview = s.topview := rfl
@[simp] theorem setFont_autoUpdate (h : Half) : (s.setFont h).autoUpdate = s.autoUpdate := rfl
@[simp] theorem setFont_charX (h : Half) : (s.setFont h).charX = s.charX := rfl
@[simp] theorem setFont_charY (h : Half) : (s.setFont h).charY = s.charY := rfl
@[simp] theorem setFont_font (h : Half) : (s.setFont h).font = h := rfl
@[simp] theorem setFont_trace (h : Half) : (s.setFont h).trace = s.trace := rfl
@[simp] theorem setFont_replies (h : Half) : (s.setFont h).replies = s.replies := rfl
@[simp] theorem setFont_lines (h : Half) : (s.setFont h).lines = s.lines := rfl
@[simp] theorem setFont_panel (h : Half) : (s.setFont h).panel = s.panel := rfl
@[simp] theorem setFont_hostPort (h : Half) : (s.setFont h).hostPort = s.hostPort := rfl
@[simp] theorem setFont_seqCmds (h : Half) : (s.setFont h).seqCmds = s.seqCmds := rfl

/-! ### `takeHost` -/

@[simp] theorem takeHost_cfg (rest : List Byte) : (s.takeHost rest).cfg = s.cfg := rfl
@[simp] theorem takeHost_powerOn (rest : List Byte) : (s.takeHost rest).powerOn = s.powerOn := rfl
@[simp] theorem takeHost_fb (rest : List Byte) : (s.takeHost rest).fb = s.fb := rfl
@[simp] theorem takeHost_topview (rest : List Byte) : (s.takeHost rest).topview = s.topview := rfl
@[simp] theorem takeHost_autoUpdate (rest : List Byte) : (s.takeHost rest).autoUpdate = s.autoUpdate := rfl
@[simp] theorem takeHost_charX (rest : List Byte) : (s.takeHost rest).charX = s.charX := rfl
@[simp] theorem takeHost_charY (rest : List Byte) : (s.takeHost rest).charY = s.charY := rfl
@[simp] theorem takeHost_font (rest : List Byte) : (s.takeHost rest).font = s.font := rfl
@[simp] theorem takeHost_trace (rest : List Byte) : (s.takeHost rest).trace = s.trace := rfl
@[simp] theorem takeHost_replies (rest : List Byte) : (s.takeHost rest).replies = s.replies := rfl
@[simp] theorem takeHost_lines (rest : List Byte) : (s.takeHost rest).lines = s.lines := rfl
@[simp] theorem takeHost_panel (rest : List Byte) : (s.takeHost rest).panel = s.panel := rfl
@[simp] theorem takeHost_hostPort (rest : List Byte) : (s.takeHost rest).hostPort = rest := rfl
@[simp] theorem takeHost_seqCmds (rest : List Byte) : (s.takeHost rest).seqCmds = s.seqCmds := rfl

/-! ### `takeSeq` -/

@[simp] theorem takeSeq_cfg (rest : List Byte) : (s.takeSeq rest).cfg = s.cfg := rfl
@[simp] theorem takeSeq_powerOn (rest : List Byte) : (s.takeSeq rest).powerOn = s.powerOn := rfl
@[simp] theorem takeSeq_fb (rest : List Byte) : (s.takeSeq rest).fb = s.fb := rfl
@[simp] theorem takeSeq_topview (rest : List Byte) : (s.takeSeq rest).topview = s.topview := rfl
@[simp] theorem takeSeq_autoUpdate (rest : List Byte) : (s.takeSeq rest).autoUpdate = s.autoUpdate := rfl
@[simp] theorem takeSeq_charX (rest : List Byte) : (s.takeSeq rest).charX = s.charX := rfl
@[simp] theorem takeSeq_charY (rest : List Byte) : (s.takeSeq rest).charY = s.charY := rfl
@[simp] theorem takeSeq_font (rest : List Byte) : (s.takeSeq rest).font = s.font := rfl
@[simp] theorem takeSeq_trace (rest : List Byte) : (s.takeSeq rest).trace = s.trace := rfl
@[simp] theorem takeSeq_replies (rest : List Byte) : (s.takeSeq rest).replies = s.replies := rfl
@[simp] theorem takeSeq_lines (rest : List Byte) : (s.takeSeq rest).lines = s.lines := rfl
@[simp] theorem takeSeq_panel (rest : List Byte) : (s.takeSeq rest).panel = s.panel := rfl
@[simp] theorem takeSeq_hostPort (rest : List Byte) : (s.takeSeq rest).hostPort = s.hostPort := rfl
@[simp] theorem takeSeq_seqCmds (rest : List Byte) : (s.takeSeq rest).seqCmds = rest := rfl

end Sys2Proof.Machine
end

