-- ==== Sys2Proof/Laws/Pixel.lean ====
section
/-! SUPPORT. What the pixel primitive and a sequence of its calls do, said once: the byte read after a write, the bit put in
a byte, the addressing of a pixel, and the picture after drawing. -/

namespace Sys2Proof.Machine

/-! ## Bytes -/

/-- A byte reads by `fb` and `powerOn` alone. -/
theorem readByte_congr {s t : State} (hf : t.fb = s.fb) (hp : t.powerOn = s.powerOn) (a : Nat) :
    t.readByte a = s.readByte a := by simp only [State.readByte, hf, hp]

theorem readByte_writeByte (s : State) (a b : Nat) (v : Byte) :
    (s.writeByte a v).readByte b = if b = a then v else s.readByte b := by
  simp only [State.readByte, writeByte_fb, writeByte_powerOn, Memory.read_write]
  split_ifs <;> rfl

theorem readByte_zeroFb (s : State) (a : Nat) :
    s.zeroFb.readByte a = if a < fbSize s.cfg then 0 else s.readByte a := by
  simp only [State.readByte, zeroFb_fb, zeroFb_powerOn, Memory.read_clear]
  split_ifs <;> rfl

/-- Bit `j` of a byte with bit `k` put. -/
theorem bitOf_putBit (v : Byte) {k j : Nat} (hk : k < 8) (hj : j < 8) (on : Bool) :
    bitOf (putBit v k on) j = if j = k then on else bitOf v j := by
  cases on
  · simp only [bitOf, putBit, Bool.false_eq_true, if_false, BitVec.getLsbD_and]
    interval_cases k <;> interval_cases j <;> simp
  · simp only [bitOf, putBit, if_true, BitVec.getLsbD_or]
    interval_cases k <;> interval_cases j <;> simp

/-- Two bytes with the same eight bits are the same byte. -/
theorem byte_ext {v w : Byte} (h : ∀ k < 8, bitOf v k = bitOf w k) : v = w :=
  BitVec.eq_of_getLsbD_eq h

/-! ## Addresses -/

theorem inside_iff (c : Config) (x y : Int) :
    inside c x y = true ↔ 0 ≤ x ∧ x < c.w ∧ 0 ≤ y ∧ y < c.h := by
  simp [inside, and_assoc]

theorem pixelBit_lt (y : Int) : pixelBit y < 8 := Nat.mod_lt _ (by decide)

theorem pixelAddr_lt {c : Config} {x y : Int} (h : inside c x y = true) : pixelAddr c x y < fbSize c := by
  obtain ⟨hx0, hxw, hy0, hyh⟩ := (inside_iff c x y).mp h
  have hh : c.h = 8 * c.p := c.wellFormed.2.2.1
  have h1 : x.toNat + 1 ≤ c.w := by omega
  have h2 : y.toNat / 8 + 1 ≤ c.p := by omega
  calc x.toNat + y.toNat / 8 * c.w < c.w + y.toNat / 8 * c.w := by omega
    _ = (y.toNat / 8 + 1) * c.w := by ring
    _ ≤ c.p * c.w := Nat.mul_le_mul_right _ h2
    _ = fbSize c := Nat.mul_comm _ _

/-- The pixel an address and a bit stand for is unique. -/
theorem pixel_unique {c : Config} {x y x' y' : Int} (h : inside c x y = true) (h' : inside c x' y' = true)
    (ha : pixelAddr c x y = pixelAddr c x' y') (hb : pixelBit y = pixelBit y') : x = x' ∧ y = y' := by
  obtain ⟨hx0, hxw, hy0, hyh⟩ := (inside_iff c x y).mp h
  obtain ⟨hx0', hxw', hy0', hyh'⟩ := (inside_iff c x' y').mp h'
  have h1 : x.toNat < c.w := by omega
  have h1' : x'.toNat < c.w := by omega
  have hm : x.toNat = x'.toNat := by
    have := congrArg (· % c.w) ha
    simpa [pixelAddr, Nat.add_mul_mod_self_right, Nat.mod_eq_of_lt h1, Nat.mod_eq_of_lt h1'] using this
  have hd : y.toNat / 8 = y'.toNat / 8 := by
    have hw : 0 < c.w := c.wellFormed.1
    have := congrArg (· / c.w) ha
    simpa [pixelAddr, Nat.add_mul_div_right _ _ hw, Nat.div_eq_of_lt h1, Nat.div_eq_of_lt h1'] using this
  have hb' : y.toNat % 8 = y'.toNat % 8 := hb
  omega

/-! ## One call of the pixel primitive -/

theorem setPixel_outside {s : State} {x y : Int} (h : inside s.cfg x y = false) (on : Bool) :
    s.setPixel x y on = s := by simp [State.setPixel, h]

theorem setPixel_inside {s : State} {x y : Int} (h : inside s.cfg x y = true) (on : Bool) :
    s.setPixel x y on =
      s.writeByte (pixelAddr s.cfg x y) (putBit (s.readByte (pixelAddr s.cfg x y)) (pixelBit y) on) := by
  simp [State.setPixel, h]

/-- Everything but `fb` is as before. -/
theorem setPixel_rest (s : State) (x y : Int) (on : Bool) :
    s.setPixel x y on = { s with fb := (s.setPixel x y on).fb } := by
  simp only [State.setPixel]
  split_ifs <;> rfl

@[simp] theorem setPixel_cfg (s : State) (x y : Int) (on : Bool) : (s.setPixel x y on).cfg = s.cfg := by
  rw [setPixel_rest]

theorem getPixel_setPixel (s : State) (x y : Int) (on : Bool) (px py : Int) :
    (s.setPixel x y on).getPixel px py =
      if inside s.cfg x y = true ∧ px = x ∧ py = y then on else s.getPixel px py := by
  by_cases h : inside s.cfg x y = true
  · rw [setPixel_inside h]
    simp only [State.getPixel, writeByte_cfg, readByte_writeByte, h, true_and]
    by_cases hp : inside s.cfg px py = true
    · by_cases ha : pixelAddr s.cfg px py = pixelAddr s.cfg x y
      · rw [if_pos ha, bitOf_putBit _ (pixelBit_lt y) (pixelBit_lt py), hp, Bool.true_and, Bool.true_and, ha]
        by_cases hb : pixelBit py = pixelBit y
        · obtain ⟨rfl, rfl⟩ := pixel_unique hp h ha hb
          simp
        · rw [if_neg hb, if_neg]
          rintro ⟨rfl, rfl⟩
          exact hb rfl
      · rw [if_neg ha, if_neg]
        rintro ⟨rfl, rfl⟩
        exact ha rfl
    · have hf : inside s.cfg px py = false := by simpa using hp
      rw [hf, Bool.false_and, Bool.false_and, if_neg]
      rintro ⟨rfl, rfl⟩
      exact hp h
  · rw [setPixel_outside (by simpa using h), if_neg (fun hc => h hc.1)]

/-- The bytes a call does not address are as before. -/
theorem readByte_setPixel_other {s : State} {x y : Int} (on : Bool) {a : Nat}
    (h : inside s.cfg x y = true → a ≠ pixelAddr s.cfg x y) :
    (s.setPixel x y on).readByte a = s.readByte a := by
  by_cases hi : inside s.cfg x y = true
  · rw [setPixel_inside hi, readByte_writeByte, if_neg (h hi)]
  · rw [setPixel_outside (by simpa using hi)]

/-- The cursor has no part in drawing. -/
theorem setPixel_setCursor (s : State) (x y : Int) (on : Bool) (cx cy : Byte) :
    (s.setCursor cx cy).setPixel x y on = (s.setPixel x y on).setCursor cx cy := by
  by_cases h : inside s.cfg x y = true
  · rw [setPixel_inside h, setPixel_inside (s := s.setCursor cx cy) h]
    rfl
  · have hf : inside s.cfg x y = false := by simpa using h
    rw [setPixel_outside hf, setPixel_outside (s := s.setCursor cx cy) hf]

/-! ## A sequence of calls -/

theorem draw_nil (s : State) : s.draw [] = s := rfl

theorem draw_cons (s : State) (d : Dot) (dots : List Dot) :
    s.draw (d :: dots) = (s.setPixel d.x d.y d.on).draw dots := rfl

theorem draw_append (s : State) (l m : List Dot) : s.draw (l ++ m) = (s.draw l).draw m := by
  simp [State.draw, List.foldl_append]

theorem draw_setCursor (s : State) (cx cy : Byte) (dots : List Dot) :
    (s.setCursor cx cy).draw dots = (s.draw dots).setCursor cx cy := by
  induction dots generalizing s with
  | nil => rfl
  | cons d dots ih => rw [draw_cons, setPixel_setCursor, ih, draw_cons]

/-- Drawing changes `fb` alone. -/
theorem draw_rest (s : State) (dots : List Dot) : s.draw dots = { s with fb := (s.draw dots).fb } := by
  induction dots generalizing s with
  | nil => rfl
  | cons d dots ih =>
    rw [draw_cons, ih]
    rw [setPixel_rest s]

@[simp] theorem draw_cfg (s : State) (dots : List Dot) : (s.draw dots).cfg = s.cfg := by rw [draw_rest]
@[simp] theorem draw_powerOn (s : State) (dots : List Dot) : (s.draw dots).powerOn = s.powerOn := by rw [draw_rest]
@[simp] theorem draw_topview (s : State) (dots : List Dot) : (s.draw dots).topview = s.topview := by rw [draw_rest]
@[simp] theorem draw_autoUpdate (s : State) (dots : List Dot) : (s.draw dots).autoUpdate = s.autoUpdate := by rw [draw_rest]
@[simp] theorem draw_charX (s : State) (dots : List Dot) : (s.draw dots).charX = s.charX := by rw [draw_rest]
@[simp] theorem draw_charY (s : State) (dots : List Dot) : (s.draw dots).charY = s.charY := by rw [draw_rest]
@[simp] theorem draw_font (s : State) (dots : List Dot) : (s.draw dots).font = s.font := by rw [draw_rest]
@[simp] theorem draw_trace (s : State) (dots : List Dot) : (s.draw dots).trace = s.trace := by rw [draw_rest]
@[simp] theorem draw_replies (s : State) (dots : List Dot) : (s.draw dots).replies = s.replies := by rw [draw_rest]
@[simp] theorem draw_lines (s : State) (dots : List Dot) : (s.draw dots).lines = s.lines := by rw [draw_rest]
@[simp] theorem draw_panel (s : State) (dots : List Dot) : (s.draw dots).panel = s.panel := by rw [draw_rest]
@[simp] theorem draw_hostPort (s : State) (dots : List Dot) : (s.draw dots).hostPort = s.hostPort := by rw [draw_rest]
@[simp] theorem draw_seqCmds (s : State) (dots : List Dot) : (s.draw dots).seqCmds = s.seqCmds := by rw [draw_rest]

/-- The picture after drawing points in one colour. -/
theorem getPixel_draw_dotsOf (s : State) (on : Bool) (points : List (Int × Int)) (px py : Int) :
    (s.draw (dotsOf on points)).getPixel px py =
      if inside s.cfg px py = true ∧ (px, py) ∈ points then on else s.getPixel px py := by
  induction points generalizing s with
  | nil => simp [dotsOf, draw_nil]
  | cons p points ih =>
    change ((s.setPixel p.1 p.2 on).draw (dotsOf on points)).getPixel px py = _
    rw [ih, getPixel_setPixel, setPixel_cfg]
    by_cases hp : (px, py) = p
    · subst hp
      by_cases hi : inside s.cfg px py = true <;> simp [hi]
    · have hne : ¬(px = p.1 ∧ py = p.2) := fun h => hp (Prod.ext h.1 h.2)
      simp only [hne, and_false, if_false, List.mem_cons, hp, false_or]

/-- A pixel none of the calls names is as before. -/
theorem getPixel_draw_other {s : State} {dots : List Dot} {px py : Int}
    (h : ∀ d ∈ dots, ¬(d.x = px ∧ d.y = py)) : (s.draw dots).getPixel px py = s.getPixel px py := by
  induction dots generalizing s with
  | nil => rfl
  | cons d dots ih =>
    rw [draw_cons, ih fun e he => h e (List.mem_cons_of_mem _ he), getPixel_setPixel, if_neg]
    rintro ⟨-, rfl, rfl⟩
    exact h d (by simp) ⟨rfl, rfl⟩

/-- Calls that name each pixel at most once leave the value each one writes. -/
theorem getPixel_draw_of_mem {s : State} {dots : List Dot} {d : Dot}
    (hn : dots.Pairwise (fun d e => ¬(d.x = e.x ∧ d.y = e.y))) (hd : d ∈ dots) (hi : inside s.cfg d.x d.y = true) :
    (s.draw dots).getPixel d.x d.y = d.on := by
  induction dots generalizing s with
  | nil => simp at hd
  | cons e dots ih =>
    obtain ⟨he, hn⟩ := List.pairwise_cons.mp hn
    rw [draw_cons]
    rcases List.mem_cons.mp hd with rfl | hd
    · rw [getPixel_draw_other fun f hf => fun h => he f hf ⟨h.1.symm, h.2.symm⟩, getPixel_setPixel,
        if_pos ⟨hi, rfl, rfl⟩]
    · exact ih hn hd (by simpa using hi)

/-- The bytes no call addresses are as before. -/
theorem readByte_draw_other {s : State} {dots : List Dot} {a : Nat}
    (h : ∀ d ∈ dots, inside s.cfg d.x d.y = true → a ≠ pixelAddr s.cfg d.x d.y) :
    (s.draw dots).readByte a = s.readByte a := by
  induction dots generalizing s with
  | nil => rfl
  | cons d dots ih =>
    rw [draw_cons, ih, readByte_setPixel_other d.on (h d (by simp))]
    intro e he
    simpa using h e (List.mem_cons_of_mem _ he)

end Sys2Proof.Machine
end

