-- ==== Sys2Proof/Laws/Port.lean ====
section
/-! SUPPORT. What the serial port, the page transfer, the update policy and `CLS` do, said once: which fields they write, and
that a page transfer depends on the configuration, the framebuffer and `topview` alone. -/

namespace Sys2Proof.Machine

variable (s : State)

/-- Two emissions are one of the joined events. -/
theorem emit_emit (es fs : List Event) : (s.emit es).emit fs = s.emit (es ++ fs) := by
  simp [State.emit, List.foldl_append]

@[simp] theorem emit_nil : s.emit [] = s := by simp [State.emit]

@[simp] theorem readByte_emit (es : List Event) (a : Nat) : (s.emit es).readByte a = s.readByte a := rfl

@[simp] theorem readByte_sendCmds (bs : List Byte) (a : Nat) : (s.sendCmds bs).readByte a = s.readByte a := rfl

@[simp] theorem getPixel_emit (es : List Event) (x y : Int) : (s.emit es).getPixel x y = s.getPixel x y := rfl

/-- A page transfer is the same for states that agree in what it reads. -/
theorem flushEvents_congr {s t : State} (hc : t.cfg = s.cfg) (hf : t.fb = s.fb) (hp : t.powerOn = s.powerOn)
    (hv : t.topview = s.topview) : t.flushEvents = s.flushEvents := by
  have h : t.pageEvents = s.pageEvents := by
    funext pg
    simp only [State.pageEvents, State.columnStart, State.readByte, hc, hf, hp, hv]
  simp only [State.flushEvents, hc, h]

/-- A page transfer changes what emitting its events changes. -/
theorem flush_eq : s.flush = s.emit s.flushEvents := rfl

theorem sync_on (h : s.autoUpdate = true) : s.sync = s.emit s.flushEvents := by simp [State.sync, h, State.flush]

theorem sync_off (h : s.autoUpdate = false) : s.sync = s := by simp [State.sync, h]

/-- `SYNC` changes the serial port alone. -/
theorem sync_rest : s.sync = { s with trace := s.sync.trace, lines := s.sync.lines, panel := s.sync.panel } := by
  simp only [State.sync]
  split_ifs <;> rfl

/-- `CLS` changes `fb` and the serial port alone. -/
theorem clear_rest : s.clear =
    { s with fb := s.clear.fb, trace := s.clear.trace, lines := s.clear.lines, panel := s.clear.panel } := by
  simp only [State.clear]
  split
  · rw [sync_rest]; rfl
  · rfl
  · rfl

@[simp] theorem flush_cfg : s.flush.cfg = s.cfg := rfl
@[simp] theorem flush_powerOn : s.flush.powerOn = s.powerOn := rfl
@[simp] theorem flush_fb : s.flush.fb = s.fb := rfl
@[simp] theorem flush_topview : s.flush.topview = s.topview := rfl
@[simp] theorem flush_autoUpdate : s.flush.autoUpdate = s.autoUpdate := rfl
@[simp] theorem flush_charX : s.flush.charX = s.charX := rfl
@[simp] theorem flush_charY : s.flush.charY = s.charY := rfl
@[simp] theorem flush_font : s.flush.font = s.font := rfl
@[simp] theorem flush_replies : s.flush.replies = s.replies := rfl
@[simp] theorem flush_hostPort : s.flush.hostPort = s.hostPort := rfl
@[simp] theorem flush_seqCmds : s.flush.seqCmds = s.seqCmds := rfl

@[simp] theorem sync_cfg : s.sync.cfg = s.cfg := by rw [sync_rest]
@[simp] theorem sync_powerOn : s.sync.powerOn = s.powerOn := by rw [sync_rest]
@[simp] theorem sync_fb : s.sync.fb = s.fb := by rw [sync_rest]
@[simp] theorem sync_topview : s.sync.topview = s.topview := by rw [sync_rest]
@[simp] theorem sync_autoUpdate : s.sync.autoUpdate = s.autoUpdate := by rw [sync_rest]
@[simp] theorem sync_charX : s.sync.charX = s.charX := by rw [sync_rest]
@[simp] theorem sync_charY : s.sync.charY = s.charY := by rw [sync_rest]
@[simp] theorem sync_font : s.sync.font = s.font := by rw [sync_rest]
@[simp] theorem sync_replies : s.sync.replies = s.replies := by rw [sync_rest]
@[simp] theorem sync_hostPort : s.sync.hostPort = s.hostPort := by rw [sync_rest]
@[simp] theorem sync_seqCmds : s.sync.seqCmds = s.seqCmds := by rw [sync_rest]

@[simp] theorem clear_cfg : s.clear.cfg = s.cfg := by rw [clear_rest]
@[simp] theorem clear_powerOn : s.clear.powerOn = s.powerOn := by rw [clear_rest]
@[simp] theorem clear_topview : s.clear.topview = s.topview := by rw [clear_rest]
@[simp] theorem clear_autoUpdate : s.clear.autoUpdate = s.autoUpdate := by rw [clear_rest]
@[simp] theorem clear_charX : s.clear.charX = s.charX := by rw [clear_rest]
@[simp] theorem clear_charY : s.clear.charY = s.charY := by rw [clear_rest]
@[simp] theorem clear_font : s.clear.font = s.font := by rw [clear_rest]
@[simp] theorem clear_replies : s.clear.replies = s.replies := by rw [clear_rest]
@[simp] theorem clear_hostPort : s.clear.hostPort = s.hostPort := by rw [clear_rest]
@[simp] theorem clear_seqCmds : s.clear.seqCmds = s.seqCmds := by rw [clear_rest]

theorem clear_fb : s.clear.fb = s.zeroFb.fb := by
  simp only [State.clear]
  split <;> simp

/-- After `CLS` every byte of the framebuffer is 0 and the rest reads as before. -/
theorem readByte_clear (a : Nat) : s.clear.readByte a = if a < fbSize s.cfg then 0 else s.readByte a := by
  rw [readByte_congr (s := s.zeroFb) (clear_fb s) (by simp), readByte_zeroFb]

@[simp] theorem readByte_flush (a : Nat) : s.flush.readByte a = s.readByte a := rfl

@[simp] theorem readByte_sync (a : Nat) : s.sync.readByte a = s.readByte a :=
  readByte_congr (sync_fb s) (sync_powerOn s) a

@[simp] theorem getPixel_sync (x y : Int) : s.sync.getPixel x y = s.getPixel x y := by
  simp only [State.getPixel, sync_cfg, readByte_sync]

/-- A drawing macro-operation is its drawing, then the terminal `SYNC`. -/
theorem drawSync_eq (dots : List Dot) : s.drawSync dots = (s.draw dots).sync := rfl

end Sys2Proof.Machine
end

