-- ==== Sys2Proof/Laws/Text.lean ====
section
/-! SUPPORT. What the text and bitmap operations do, said once: a read of an asset, a sequence of reads, the newline, the
width wrap, the glyph and the bitmap, each with everything it can answer. -/

namespace Sys2Proof.Machine

/-! ## Reads -/

theorem assetByte_ok_iff {c : Config} {h : Half} {i : Nat} {b : Byte} :
    assetByte c h i = .ok b ↔ assetByte? c h i = some b := by
  unfold assetByte
  cases assetByte? c h i <;> simp

theorem assetByte_error_iff {c : Config} {h : Half} {i : Nat} {e : Refusal} :
    assetByte c h i = .error e ↔ assetByte? c h i = none ∧ e = .assetRead h i := by
  unfold assetByte
  cases assetByte? c h i <;> simp [eq_comm]

theorem fontByte_ok_iff {s : State} {i : Nat} {b : Byte} :
    s.fontByte i = .ok b ↔ assetByte? s.cfg s.font i = some b := assetByte_ok_iff

theorem fontByte_error_iff {s : State} {i : Nat} {e : Refusal} :
    s.fontByte i = .error e ↔ assetByte? s.cfg s.font i = none ∧ e = .assetRead s.font i := assetByte_error_iff

/-- Past a missing byte of an asset every byte is missing. -/
theorem assetByte?_none_mono {c : Config} {h : Half} {i j : Nat} (hij : i ≤ j) (hi : assetByte? c h i = none) :
    assetByte? c h j = none := by
  unfold assetByte? at *
  split at hi
  · simp only [List.getElem?_eq_none_iff] at hi ⊢
    omega
  · rfl

/-- A sequence of reads that succeeds has read every element, in order. -/
theorem gather_ok_iff {α β : Type} {f : α → Except Refusal β} {l : List α} {bs : List β} :
    gather f l = .ok bs ↔ List.Forall₂ (fun a b => f a = .ok b) l bs := by
  induction l generalizing bs with
  | nil => simp [gather, eq_comm]
  | cons a l ih =>
    simp only [gather]
    cases ha : f a with
    | error e => simp [List.forall₂_cons_left_iff, ha]
    | ok b =>
      cases hl : gather f l with
      | error e =>
        simp only [List.forall₂_cons_left_iff, ha]
        constructor
        · intro h; cases h
        · rintro ⟨b', u, -, hu, -⟩
          rw [← ih, hl] at hu
          cases hu
      | ok cs =>
        simp only [List.forall₂_cons_left_iff, ha, ← ih, hl, Except.ok.injEq]
        constructor
        · rintro rfl
          exact ⟨b, cs, rfl, rfl, rfl⟩
        · rintro ⟨b', u, rfl, rfl, rfl⟩
          rfl

/-- A sequence of reads that fails has met an element that cannot be read. -/
theorem gather_error {α β : Type} {f : α → Except Refusal β} {l : List α} {e : Refusal}
    (h : gather f l = .error e) : ∃ a ∈ l, f a = .error e := by
  induction l with
  | nil => simp [gather] at h
  | cons a l ih =>
    simp only [gather] at h
    cases ha : f a with
    | error e' => rw [ha] at h; cases h; exact ⟨a, by simp, ha⟩
    | ok b =>
      rw [ha] at h
      cases hl : gather f l with
      | error e' =>
        rw [hl] at h
        cases h
        obtain ⟨a', hm, hf⟩ := ih hl
        exact ⟨a', List.mem_cons_of_mem _ hm, hf⟩
      | ok cs => rw [hl] at h; cases h

/-- A sequence of reads fails where one read does. -/
theorem gather_error_of_mem {α β : Type} {f : α → Except Refusal β} {l : List α} {a : α} {e : Refusal} (ha : a ∈ l)
    (h : f a = .error e) : ∃ e', gather f l = .error e' := by
  induction l with
  | nil => cases ha
  | cons b l ih =>
    rcases List.mem_cons.mp ha with rfl | ha
    · exact ⟨e, by simp only [gather, h]⟩
    · obtain ⟨e', he⟩ := ih ha
      cases hb : f b with
      | error e'' => exact ⟨e'', by simp only [gather, hb]⟩
      | ok c => exact ⟨e', by simp only [gather, hb, he]⟩

/-- A sequence of reads succeeds where each read does. -/
theorem gather_total {α β : Type} {f : α → Except Refusal β} {l : List α} (h : ∀ a ∈ l, ∃ b, f a = .ok b) :
    ∃ bs, gather f l = .ok bs := by
  induction l with
  | nil => exact ⟨[], rfl⟩
  | cons a l ih =>
    obtain ⟨b, hb⟩ := h a (by simp)
    obtain ⟨bs, hbs⟩ := ih fun a' ha' => h a' (List.mem_cons_of_mem _ ha')
    exact ⟨b :: bs, by simp only [gather, hb, hbs]⟩

/-! ## The cursor -/

/-- The new line is on the display, unless the old one was beyond the byte range. -/
theorem nextLine_toNat (c : Config) (gh y : Byte) :
    ((nextLine c gh y).toNat : Int) =
      if (c.h : Int) - gh.toNat ≤ y.toNat + gh.toNat then 0 else (y.toNat : Int) + gh.toNat := by
  unfold nextLine
  split_ifs with h
  · rfl
  · have hh : c.h ≤ 64 := by have := c.wellFormed.2.2.1; have := c.wellFormed.2.2.2.1; omega
    rw [BitVec.toNat_add, Nat.mod_eq_of_lt (by omega)]
    simp

/-! ## The newline, the wrap, the glyph -/

theorem newline_ok_iff {s t : State} : s.newline = .ok t ↔
    ∃ gh, assetByte? s.cfg s.font 2 = some gh ∧ t = s.setCursor 0 (nextLine s.cfg gh s.charY) := by
  unfold State.newline
  cases h : s.fontByte 2 with
  | error e => simp [(fontByte_error_iff.mp h).1]
  | ok gh => simp [fontByte_ok_iff.mp h, eq_comm]

/-- The width wrap moves the cursor or leaves the state. -/
theorem wrapFor_ok_iff {s t : State} {gw : Byte} : s.wrapFor gw = .ok t ↔
    (s.charX.toNat + gw.toNat ≤ s.cfg.w ∧ t = s) ∨
    (s.cfg.w < s.charX.toNat + gw.toNat ∧
      ∃ gh, assetByte? s.cfg s.font 2 = some gh ∧ t = s.setCursor 0 (nextLine s.cfg gh s.charY)) := by
  unfold State.wrapFor
  by_cases hw : s.cfg.w < s.charX.toNat + gw.toNat
  · rw [if_pos hw]
    cases h : s.fontByte 2 with
    | error e => simp [(fontByte_error_iff.mp h).1]; omega
    | ok gh => simp [fontByte_ok_iff.mp h, eq_comm, hw]
  · rw [if_neg hw]
    simp [eq_comm, hw]
    omega

/-- The blit draws the dots of the glyph and advances the cursor. -/
theorem blitGlyph_ok_iff {s t : State} {idx : Nat} {gw : Byte} : s.blitGlyph idx gw = .ok t ↔
    ∃ gh bps dots, assetByte? s.cfg s.font 2 = some gh ∧ assetByte? s.cfg s.font 3 = some bps ∧
      gather (s.glyphDot idx bps) (glyphCells gh gw) = .ok dots ∧
      t = (s.draw dots).setCursor (s.charX + gw) s.charY := by
  unfold State.blitGlyph
  cases h2 : s.fontByte 2 with
  | error e => simp [(fontByte_error_iff.mp h2).1]
  | ok gh =>
    cases h3 : s.fontByte 3 with
    | error e => simp [(fontByte_error_iff.mp h3).1]
    | ok bps =>
      simp only [fontByte_ok_iff.mp h2, fontByte_ok_iff.mp h3, Option.some.injEq, exists_and_left, exists_eq_left']
      cases hg : gather (s.glyphDot idx bps) (glyphCells gh gw) with
      | error e => simp
      | ok dots => simp [eq_comm]

/-- The printable branch reads the header and the width, wraps, and draws. -/
theorem putGlyph_ok_iff {s t : State} {v : Byte} : s.putGlyph v = .ok t ↔
    ∃ bpg gw u, assetByte? s.cfg s.font 0 = some bpg ∧ assetByte? s.cfg s.font (glyphIndex v bpg) = some gw ∧
      s.wrapFor gw = .ok u ∧ u.blitGlyph (glyphIndex v bpg) gw = .ok t := by
  unfold State.putGlyph
  cases h0 : s.fontByte 0 with
  | error e => simp [(fontByte_error_iff.mp h0).1]
  | ok bpg =>
    simp only [fontByte_ok_iff.mp h0, Option.some.injEq, exists_and_left, exists_eq_left']
    cases h1 : s.fontByte (glyphIndex v bpg) with
    | error e => simp [(fontByte_error_iff.mp h1).1]
    | ok gw =>
      simp only [fontByte_ok_iff.mp h1, Option.some.injEq, exists_eq_left']
      cases hw : s.wrapFor gw with
      | error e => simp
      | ok u => simp

/-- The printable branch changes the framebuffer and the cursor alone. -/
theorem putGlyph_rest {s t : State} {v : Byte} (h : s.putGlyph v = .ok t) :
    ∃ dots, t = (s.draw dots).setCursor t.charX t.charY := by
  obtain ⟨bpg, gw, u, -, -, hw, hb⟩ := putGlyph_ok_iff.mp h
  obtain ⟨gh, bps, dots, -, -, -, rfl⟩ := blitGlyph_ok_iff.mp hb
  refine ⟨dots, ?_⟩
  have key : ∀ x y : Byte, (s.setCursor x y).draw dots = (s.draw dots).setCursor x y := by
    intro x y
    rw [draw_setCursor]
  rcases wrapFor_ok_iff.mp hw with ⟨-, rfl⟩ | ⟨-, gh', -, rfl⟩
  · rfl
  · rw [key]; rfl

/-! ## The calls of the pixel primitive a glyph and a bitmap make -/

theorem mem_glyphCells (gh gw : Byte) (c : Nat × Nat) : c ∈ glyphCells gh gw ↔ c.1 < gh.toNat ∧ c.2 < gw.toNat := by
  simp only [glyphCells, List.mem_flatMap, List.mem_map, List.mem_range]
  constructor
  · rintro ⟨a, ha, b, hb, rfl⟩
    exact ⟨ha, hb⟩
  · rintro ⟨ha, hb⟩
    exact ⟨_, ha, _, hb, rfl⟩

/-- The rows or columns a loop visits before its break. -/
theorem mem_visited (n : Nat) (k h : Int) (v : Nat) :
    v ∈ (List.range n).takeWhile (fun (v : Nat) => decide (k + (v : Int) < h)) ↔ v < n ∧ k + v < h := by
  constructor
  · intro hv
    exact ⟨List.mem_range.mp (List.takeWhile_subset _ hv), by
      simpa using List.mem_takeWhile_imp (p := fun (v : Nat) => decide (k + (v : Int) < h)) hv⟩
  · rintro ⟨hn, hk⟩
    obtain ⟨m, rfl⟩ : ∃ m, n = v + 1 + m := ⟨n - (v + 1), by omega⟩
    rw [List.range_add, List.takeWhile_append_of_pos]
    · exact List.mem_append_left _ (List.mem_range.mpr (by omega))
    · intro a ha
      have := List.mem_range.mp ha
      exact decide_eq_true (by omega)

theorem mem_bitmapCells (c : Config) (bw bh : Byte) (x y : Int) (cell : Nat × Nat) :
    cell ∈ bitmapCells c bw bh x y ↔
      (cell.1 < bh.toNat ∧ y + cell.1 < c.h) ∧ (cell.2 < bw.toNat ∧ x + cell.2 < c.w) := by
  simp only [bitmapCells, List.mem_flatMap, List.mem_map]
  constructor
  · rintro ⟨a, ha, b, hb, rfl⟩
    exact ⟨(mem_visited _ _ _ _).mp ha, (mem_visited _ _ _ _).mp hb⟩
  · rintro ⟨ha, hb⟩
    exact ⟨_, (mem_visited _ _ _ _).mpr ha, _, (mem_visited _ _ _ _).mpr hb, rfl⟩

/-- Dots gathered from cells whose places differ: each place holds what its cell writes, and every dot comes from a cell. -/
theorem draw_gathered {α : Type} {f : α → Except Refusal Dot} {l : List α} {dots : List Dot} (h : gather f l = .ok dots)
    (place : α → Int × Int) (hp : ∀ a d, f a = .ok d → (d.x, d.y) = place a) (hn : (l.map place).Nodup) (s : State) :
    (∀ a ∈ l, ∀ d, f a = .ok d → inside s.cfg d.x d.y = true → (s.draw dots).getPixel d.x d.y = d.on) ∧
    (∀ d ∈ dots, ∃ a ∈ l, f a = .ok d) := by
  rw [gather_ok_iff] at h
  have key : dots.map (fun d => (d.x, d.y)) = l.map place ∧ (∀ d ∈ dots, ∃ a ∈ l, f a = .ok d) ∧
      ∀ a ∈ l, ∀ d, f a = .ok d → d ∈ dots := by
    clear hn
    induction h with
    | nil => simp
    | cons h1 _ ih =>
      obtain ⟨i1, i2, i3⟩ := ih
      refine ⟨by simp [i1, hp _ _ h1], fun d hd => ?_, fun a ha d hd => ?_⟩
      · rcases List.mem_cons.mp hd with rfl | hd
        · exact ⟨_, by simp, h1⟩
        · obtain ⟨a, ha, hf⟩ := i2 d hd
          exact ⟨a, List.mem_cons_of_mem _ ha, hf⟩
      · rcases List.mem_cons.mp ha with rfl | ha
        · rw [hd] at h1
          cases h1
          simp
        · exact List.mem_cons_of_mem _ (i3 a ha d hd)
  refine ⟨fun a ha d hd hi => getPixel_draw_of_mem ?_ (key.2.2 a ha d hd) hi, key.2.1⟩
  have hd : (dots.map fun d => (d.x, d.y)).Nodup := key.1 ▸ hn
  rw [List.Nodup, List.pairwise_map] at hd
  exact hd.imp fun hne he => hne (Prod.ext he.1 he.2)

end Sys2Proof.Machine
end

