-- ==== Sys2Proof/Laws/Frames.lean ====
section
/-! SUPPORT. The frame every operation of the block stays in, and that each shared operation stays in it: the environment is
untouched, the serial port saw a sequence of events, and the framebuffer kept its form. -/

namespace Sys2Proof.Machine

/-- The framebuffer's part of the invariant. -/
structure FbForm (s : State) : Prop where
  canonical : Memory.wf s.fb = true
  bounded : ∀ c ∈ s.fb, c.1 < fbSize s.cfg

/-- What every operation of the block keeps. -/
structure Framed (s t : State) : Prop where
  env : SameEnv s t
  emits : ∃ es, Emits s t es
  replies : s.replies <+: t.replies
  form : FbForm s → FbForm t

theorem Emits.nil (s : State) : Emits s s [] := ⟨by simp, rfl, rfl⟩

theorem Emits.trans {s t u : State} {es fs : List Event} (hc : t.cfg = s.cfg) (h : Emits s t es) (g : Emits t u fs) :
    Emits s u (es ++ fs) := by
  refine ⟨?_, ?_, ?_⟩
  · rw [g.trace, h.trace, List.append_assoc]
  · rw [g.lines, h.lines, List.foldl_append]
  · rw [g.panel, h.panel, List.foldl_append, hc]

theorem SameEnv.refl (s : State) : SameEnv s s := ⟨rfl, rfl, rfl, rfl⟩

theorem SameEnv.trans {s t u : State} (h : SameEnv s t) (g : SameEnv t u) : SameEnv s u :=
  ⟨g.cfg.trans h.cfg, g.powerOn.trans h.powerOn, g.hostPort.trans h.hostPort, g.seqCmds.trans h.seqCmds⟩

theorem SamePort.emits {s t : State} (h : SamePort s t) : Emits s t [] := ⟨by simp [h.trace], h.lines, h.panel⟩

theorem SamePort.of_emits {s t : State} (h : Emits s t []) : SamePort s t := ⟨by simpa using h.trace, h.lines, h.panel⟩

theorem Framed.refl (s : State) : Framed s s := ⟨SameEnv.refl s, ⟨[], Emits.nil s⟩, List.prefix_refl _, id⟩

theorem Framed.trans {s t u : State} (h : Framed s t) (g : Framed t u) : Framed s u := by
  obtain ⟨es, he⟩ := h.emits
  obtain ⟨fs, hf⟩ := g.emits
  exact ⟨h.env.trans g.env, ⟨es ++ fs, he.trans h.env.cfg hf⟩, h.replies.trans g.replies, fun k => g.form (h.form k)⟩

/-! ## The shared operations -/

theorem emits_emit (s : State) (es : List Event) : Emits s (s.emit es) es := ⟨rfl, rfl, rfl⟩

theorem framed_emit (s : State) (es : List Event) : Framed s (s.emit es) :=
  ⟨⟨rfl, rfl, rfl, rfl⟩, ⟨es, emits_emit s es⟩, List.prefix_refl _, fun h => ⟨h.canonical, h.bounded⟩⟩

theorem framed_sendCmds (s : State) (bs : List Byte) : Framed s (s.sendCmds bs) := framed_emit s _

theorem framed_flush (s : State) : Framed s s.flush := framed_emit s _

theorem framed_sync (s : State) : Framed s s.sync := by
  cases h : s.autoUpdate
  · rw [sync_off s h]; exact Framed.refl s
  · rw [sync_on s h]; exact framed_emit s _

theorem framed_setTopview (s : State) (v : Bool) : Framed s (s.setTopview v) :=
  ⟨⟨rfl, rfl, rfl, rfl⟩, ⟨[], SamePort.emits ⟨rfl, rfl, rfl⟩⟩, List.prefix_refl _, fun h => ⟨h.canonical, h.bounded⟩⟩

theorem framed_setAutoUpdate (s : State) (v : Bool) : Framed s (s.setAutoUpdate v) :=
  ⟨⟨rfl, rfl, rfl, rfl⟩, ⟨[], SamePort.emits ⟨rfl, rfl, rfl⟩⟩, List.prefix_refl _, fun h => ⟨h.canonical, h.bounded⟩⟩

theorem framed_setCursor (s : State) (x y : Byte) : Framed s (s.setCursor x y) :=
  ⟨⟨rfl, rfl, rfl, rfl⟩, ⟨[], SamePort.emits ⟨rfl, rfl, rfl⟩⟩, List.prefix_refl _, fun h => ⟨h.canonical, h.bounded⟩⟩

theorem framed_setFont (s : State) (h : Half) : Framed s (s.setFont h) :=
  ⟨⟨rfl, rfl, rfl, rfl⟩, ⟨[], SamePort.emits ⟨rfl, rfl, rfl⟩⟩, List.prefix_refl _, fun h => ⟨h.canonical, h.bounded⟩⟩

theorem framed_reply (s : State) (r : Reply) : Framed s (s.reply r) :=
  ⟨⟨rfl, rfl, rfl, rfl⟩, ⟨[], SamePort.emits ⟨rfl, rfl, rfl⟩⟩, List.prefix_append _ _, fun h => ⟨h.canonical, h.bounded⟩⟩

theorem framed_zeroFb (s : State) : Framed s s.zeroFb := by
  refine ⟨⟨rfl, rfl, rfl, rfl⟩, ⟨[], SamePort.emits ⟨rfl, rfl, rfl⟩⟩, List.prefix_refl _, fun h => ⟨?_, ?_⟩⟩
  · exact Memory.wf_clear h.canonical _
  · intro c hc
    rcases Memory.mem_clear hc with ⟨hlt, -⟩ | ⟨-, hm⟩
    · exact hlt
    · exact h.bounded c hm

theorem framed_clear (s : State) : Framed s s.clear := by
  simp only [State.clear]
  split
  · exact (framed_zeroFb s).trans (framed_sync _)
  · exact (framed_zeroFb s).trans (framed_flush _)
  · exact framed_zeroFb s

theorem framed_setPixel (s : State) (x y : Int) (on : Bool) : Framed s (s.setPixel x y on) := by
  by_cases hi : inside s.cfg x y = true
  · rw [setPixel_inside hi]
    refine ⟨⟨rfl, rfl, rfl, rfl⟩, ⟨[], SamePort.emits ⟨rfl, rfl, rfl⟩⟩, List.prefix_refl _, fun h => ⟨?_, ?_⟩⟩
    · exact Memory.wf_write h.canonical _ _
    · intro c hc
      rcases Memory.mem_write hc with rfl | hc
      · exact pixelAddr_lt hi
      · exact h.bounded c hc
  · rw [setPixel_outside (by simpa using hi)]
    exact Framed.refl s

theorem framed_draw (s : State) (dots : List Dot) : Framed s (s.draw dots) := by
  induction dots generalizing s with
  | nil => exact Framed.refl s
  | cons d dots ih => exact (framed_setPixel s d.x d.y d.on).trans (ih _)

theorem framed_drawSync (s : State) (dots : List Dot) : Framed s (s.drawSync dots) :=
  (framed_draw s dots).trans (framed_sync _)

theorem framed_newline {s t : State} (h : s.newline = .ok t) : Framed s t := by
  obtain ⟨gh, -, rfl⟩ := newline_ok_iff.mp h
  exact framed_setCursor s _ _

theorem framed_putGlyph {s t : State} {v : Byte} (h : s.putGlyph v = .ok t) : Framed s t := by
  obtain ⟨dots, ht⟩ := putGlyph_rest h
  rw [ht]
  exact (framed_draw s dots).trans (framed_setCursor _ _ _)

/-- The serial port after a `SYNC`. -/
theorem syncs_sync (s : State) : Syncs s s.sync := by
  refine ⟨fun h => ?_, fun h => ?_⟩
  · rw [sync_off s h]; exact ⟨rfl, rfl, rfl⟩
  · have hf : s.sync.flushEvents = s.flushEvents := flushEvents_congr (by simp) (by simp) (by simp) (by simp)
    rw [hf, sync_on s h]
    exact emits_emit s _

/-- A drawing macro-operation in one colour is a drawing call of the points on its list. -/
theorem draws_of_drawSync {s : State} {i : Instr} {on : Bool} {points : List (Int × Int)} {P : Int → Int → Prop}
    (h : exec i s = .next (s.drawSync (dotsOf on points))) (hP : ∀ px py, P px py ↔ (px, py) ∈ points) :
    Draws s i on P := by
  refine ⟨_, h, ⟨?_, ?_, ?_, ?_⟩, ?_, ?_, ?_, ?_⟩
  · exact (framed_drawSync s _).env
  · exact ⟨by simp [drawSync_eq], by simp [drawSync_eq]⟩
  · exact ⟨by simp [drawSync_eq], by simp [drawSync_eq], by simp [drawSync_eq]⟩
  · simp [drawSync_eq]
  · have hs := syncs_sync (s.draw (dotsOf on points))
    refine ⟨fun h0 => ?_, fun h1 => ?_⟩
    · obtain ⟨h2, h3, h4⟩ := hs.1 (by simpa using h0)
      exact ⟨by simpa [drawSync_eq] using h2, by simpa [drawSync_eq] using h3, by simpa [drawSync_eq] using h4⟩
    · obtain ⟨h2, h3, h4⟩ := hs.2 (by simpa using h1)
      exact ⟨by simpa [drawSync_eq] using h2, by simpa [drawSync_eq] using h3, by simpa [drawSync_eq] using h4⟩
  · intro px py hi hp
    rw [drawSync_eq, getPixel_sync, getPixel_draw_dotsOf, if_pos ⟨hi, (hP px py).mp hp⟩]
  · intro px py hp
    rw [drawSync_eq, getPixel_sync, getPixel_draw_dotsOf, if_neg fun hc => hp ((hP px py).mpr hc.2)]
  · intro a ha
    rw [drawSync_eq, readByte_sync, readByte_draw_other]
    intro d hd hi
    obtain ⟨p, hp, rfl⟩ := List.mem_map.mp hd
    exact ha p.1 p.2 ((hP _ _).mpr hp) hi

end Sys2Proof.Machine
end

