-- ==== Sys2Proof/Laws/Panel.lean ====
section
/-! SUPPORT. What an event does to the far side of the serial port, said once: which events can change the data RAM, that
its form is kept, and that nothing of the controller is known before the first reset pulse. -/

namespace Sys2Proof.Machine

@[simp] theorem initProgress_pulsed (p : Panel) (b : Byte) : (p.initProgress b).pulsed = p.pulsed := by
  unfold Panel.initProgress
  split
  · split <;> [split <;> rfl; rfl]
  · rfl

@[simp] theorem initProgress_ddram (p : Panel) (b : Byte) : (p.initProgress b).ddram = p.ddram := by
  unfold Panel.initProgress
  split
  · split <;> [split <;> rfl; rfl]
  · rfl

/-- Outside an initialisation sequence a command byte makes no progress in one. -/
theorem initProgress_idle {p : Panel} (h : p.initLeft = none) (b : Byte) : p.initProgress b = p := by
  simp [Panel.initProgress, h]

@[simp] theorem learn_pulsed (p : Panel) (i : Instr) : (p.learn i).pulsed = p.pulsed := by cases i <;> rfl

@[simp] theorem learn_ddram (p : Panel) (i : Instr) : (p.learn i).ddram = p.ddram := by cases i <;> rfl

/-- Once a reset pulse has occurred a command is learned. -/
theorem command_pulsed {p : Panel} (h : p.pulsed = true) (i : Instr) :
    p.command i = Panel.learn { p with arg := awaitedArg i } i := if_pos h

/-- Before it, only the command stream moves on. -/
theorem command_unpulsed {p : Panel} (h : p.pulsed = false) (i : Instr) : p.command i = { p with arg := awaitedArg i } := by
  simp [Panel.command, h]

/-- A reset pulse leaves the data RAM (R61) and makes the rest of the address unknown. -/
@[simp] theorem resetPulse_ddram (c : Config) (p : Panel) : (p.resetPulse c).ddram = p.ddram := by
  unfold Panel.resetPulse
  split <;> rfl

@[simp] theorem resetPulse_pulsed (c : Config) (p : Panel) : (p.resetPulse c).pulsed = true := by
  unfold Panel.resetPulse
  split <;> rfl

/-- Only a data byte can change the data RAM: "Commands leave `DDRAM` unchanged" (R66). -/
theorem observe_ddram (c : Config) (p : Panel) {e : Event} (h : ∀ b, e ≠ .dat b) :
    (Panel.observe c p e).ddram = p.ddram := by
  cases e with
  | busCfg => rfl
  | csHigh => rfl
  | rstPulse => exact resetPulse_ddram c p
  | dat b => exact absurd rfl (h b)
  | cmd b =>
    simp only [Panel.observe]
    split
    · rename_i i _
      unfold Panel.command
      split <;> simp
    · simp [Panel.unknownCommand]

/-- What a command byte does depends on the data RAM in nothing. -/
theorem observe_cmd_ddram (c : Config) (p : Panel) (d : Memory) (b : Byte) :
    Panel.observe c { p with ddram := d } (.cmd b) = { Panel.observe c p (.cmd b) with ddram := d } := by
  have h : ({ p with ddram := d } : Panel).initProgress b = { p.initProgress b with ddram := d } := by
    simp only [Panel.initProgress]
    split
    · split
      · split <;> rfl
      · rfl
    · rfl
  simp only [Panel.observe, h]
  split
  · rename_i i _
    simp only [Panel.command]
    split
    · cases i <;> rfl
    · rfl
  · rfl

/-- A sequence of events without a data byte leaves the data RAM. -/
theorem foldl_observe_ddram (c : Config) {es : List Event} (p : Panel) (h : ∀ b, Event.dat b ∉ es) :
    (es.foldl (Panel.observe c) p).ddram = p.ddram := by
  induction es generalizing p with
  | nil => rfl
  | cons e es ih =>
    rw [List.foldl_cons, ih _ fun b hb => h b (List.mem_cons_of_mem _ hb),
      observe_ddram c p fun b hb => h b (hb ▸ List.mem_cons_self ..)]

/-- A data byte at a known column: the column moves on by one up to the end, whatever the page is (R66). -/
theorem data_column {p : Panel} {hi lo : BitVec 4} (h1 : p.colHi = some hi) (h2 : p.colLo = some lo) (b : Byte) :
    (p.data b).colHi = some (BitVec.ofNat 4 (if hi.toNat * 16 + lo.toNat < panelColumns
      then (hi.toNat * 16 + lo.toNat + 1) / 16 else hi.toNat)) ∧
    (p.data b).colLo = some (BitVec.ofNat 4 (if hi.toNat * 16 + lo.toNat < panelColumns
      then (hi.toNat * 16 + lo.toNat + 1) % 16 else lo.toNat)) := by
  simp only [Panel.data, nextColumn, h1, h2]
  split <;> simp

/-- A data byte at a known address on the display data RAM is read back there, and every other cell reads as before (R66). -/
theorem read_data_known {p : Panel} {hi lo pg : BitVec 4} (h1 : p.colHi = some hi) (h2 : p.colLo = some lo)
    (h3 : p.page = some pg) (h : hi.toNat * 16 + lo.toNat < panelColumns) (b : Byte) (a : Nat) :
    Memory.read (p.data b).ddram a =
      if a = pg.toNat * panelColumns + (hi.toNat * 16 + lo.toNat) then some b else Memory.read p.ddram a := by
  simp only [Panel.data, Panel.storeData, h1, h2, h3, if_pos h, Memory.read_write]

/-- A data byte at an address that is not wholly known makes exactly the cells unknown that the address can be. -/
theorem read_data_unknown {p : Panel} (h : p.colHi = none ∨ p.colLo = none ∨ p.page = none) (b : Byte) (a : Nat) :
    Memory.read (p.data b).ddram a = if p.mayAddress a then none else Memory.read p.ddram a := by
  rw [← Memory.read_forget]
  congr 1
  simp only [Panel.data, Panel.storeData]
  split
  · rename_i e1 e2 e3
    simp [e1, e2, e3] at h
  · rfl

/-- A data byte keeps the form of the data RAM. -/
theorem wf_data {p : Panel} (h : Memory.wf p.ddram = true) (b : Byte) : Memory.wf (p.data b).ddram = true := by
  simp only [Panel.data, Panel.storeData]
  split
  · split
    · exact Memory.wf_write h _ _
    · exact h
  · exact Memory.wf_forget h _

/-- Every sequence of events keeps the form of the data RAM. -/
theorem wf_foldl_observe (c : Config) (es : List Event) {p : Panel} (h : Memory.wf p.ddram = true) :
    Memory.wf (es.foldl (Panel.observe c) p).ddram = true := by
  induction es generalizing p with
  | nil => exact h
  | cons e es ih =>
    refine ih ?_
    cases e with
    | dat b => exact wf_data h b
    | busCfg => exact h
    | csHigh => exact h
    | rstPulse => rw [observe_ddram c p (by simp)]; exact h
    | cmd b => rw [observe_ddram c p (by simp)]; exact h

/-- A controller that has had no reset pulse takes any other event without becoming known (R291). -/
theorem observe_unknown (c : Config) (a : Option SerialArg) {e : Event} (h : e ≠ .rstPulse) :
    ∃ b, Panel.observe c { Panel.unknown with arg := a } e = { Panel.unknown with arg := b } := by
  cases e with
  | rstPulse => exact absurd rfl h
  | busCfg => exact ⟨a, rfl⟩
  | csHigh => exact ⟨a, rfl⟩
  | dat b => exact ⟨a, rfl⟩
  | cmd b =>
    simp only [Panel.observe, initProgress_idle (show ({ Panel.unknown with arg := a } : Panel).initLeft = none from rfl)]
    split
    · rename_i i _
      exact ⟨awaitedArg i, command_unpulsed rfl i⟩
    · exact ⟨none, rfl⟩

/-- Nothing of the controller is known until the first reset pulse (R291). -/
theorem foldl_observe_unknown (c : Config) {es : List Event} (a : Option SerialArg) (h : Event.rstPulse ∉ es) :
    ∃ b, es.foldl (Panel.observe c) { Panel.unknown with arg := a } = { Panel.unknown with arg := b } := by
  induction es generalizing a with
  | nil => exact ⟨a, rfl⟩
  | cons e es ih =>
    obtain ⟨b, hb⟩ := observe_unknown c a fun he => h (he ▸ List.mem_cons_self ..)
    rw [List.foldl_cons, hb]
    exact ih b fun he => h (List.mem_cons_of_mem _ he)

/-- An event other than a reset pulse leaves the mark of the first pulse. -/
theorem observe_pulsed (c : Config) (p : Panel) {e : Event} (h : e ≠ .rstPulse) :
    (Panel.observe c p e).pulsed = p.pulsed := by
  cases e with
  | rstPulse => exact absurd rfl h
  | busCfg => rfl
  | csHigh => rfl
  | dat b => rfl
  | cmd b =>
    simp only [Panel.observe]
    split
    · unfold Panel.command
      split <;> simp
    · simp [Panel.unknownCommand]

/-- The mark of the first pulse stands exactly if it stood or a pulse is among the events. -/
theorem foldl_observe_pulsed (c : Config) (es : List Event) (p : Panel) :
    (es.foldl (Panel.observe c) p).pulsed = true ↔ p.pulsed = true ∨ Event.rstPulse ∈ es := by
  induction es generalizing p with
  | nil => simp
  | cons e es ih =>
    rw [List.foldl_cons, ih]
    by_cases he : e = .rstPulse
    · subst he
      simp [Panel.observe]
    · rw [observe_pulsed c p he]
      simp [Ne.symm he]

/-- Between events the lines are idle. -/
theorem foldl_after_idle (es : List Event) : es.foldl SerialLines.after SerialLines.idle = SerialLines.idle := by
  induction es with
  | nil => rfl
  | cons e es ih =>
    rw [List.foldl_cons, show SerialLines.after SerialLines.idle e = SerialLines.idle by cases e <;> rfl, ih]

end Sys2Proof.Machine
end

