-- ==== Sys2Proof/Laws/PerInstr.lean ====
section
/-! SUPPORT. Lemmas made per instruction. PacketForm: a well-formed host instruction encodes to a packet of the length that
`30_encoding.md` R87 finds from its first bytes, a serial one to one byte (R89). -/

namespace Sys2Proof.Laws

/-- The length of an encoded instruction is the one R87 gives. -/
def PacketForm.Statement (i : Instr) : Prop :=
  ∀ (sc : SerCmd) (bias : Byte), i.wellFormed = true →
    (encode sc bias i).length = if i.serial then 1 else packetLength (encode sc bias i)

theorem PacketForm.init : PacketForm.Statement .init := fun _ _ _ => rfl

theorem PacketForm.flush : PacketForm.Statement .flush := fun _ _ _ => rfl

theorem PacketForm.sync : PacketForm.Statement .sync := fun _ _ _ => rfl

theorem PacketForm.cls : PacketForm.Statement .cls := fun _ _ _ => rfl

theorem PacketForm.updmode (m : Byte) : PacketForm.Statement (.updmode m) := fun _ _ _ => rfl

theorem PacketForm.dmOn : PacketForm.Statement .dmOn := fun _ _ _ => rfl

theorem PacketForm.dmOff : PacketForm.Statement .dmOff := fun _ _ _ => rfl

theorem PacketForm.dmSleep : PacketForm.Statement .dmSleep := fun _ _ _ => rfl

theorem PacketForm.dmInvert : PacketForm.Statement .dmInvert := fun _ _ _ => rfl

theorem PacketForm.dmDefault : PacketForm.Statement .dmDefault := fun _ _ _ => rfl

theorem PacketForm.dmTopview : PacketForm.Statement .dmTopview := fun _ _ _ => rfl

theorem PacketForm.dmBottom : PacketForm.Statement .dmBottom := fun _ _ _ => rfl

theorem PacketForm.dmContrast : PacketForm.Statement .dmContrast := fun _ _ _ => rfl

theorem PacketForm.dispmodeReserved (mode : Byte) : PacketForm.Statement (.dispmodeReserved mode) := fun _ _ _ => rfl

theorem PacketForm.dispmodevContrast (value : Byte) : PacketForm.Statement (.dispmodevContrast value) := fun _ _ _ => rfl

theorem PacketForm.dispmodevOther (mode value : Byte) : PacketForm.Statement (.dispmodevOther mode value) := fun _ _ _ => rfl

theorem PacketForm.setpix (x y : Half) (c : Byte) : PacketForm.Statement (.setpix x y c) := fun _ _ _ => rfl

theorem PacketForm.getpix (x y : Half) : PacketForm.Statement (.getpix x y) := fun _ _ _ => rfl

theorem PacketForm.point (x y : Half) (c : Byte) : PacketForm.Statement (.point x y c) := fun _ _ _ => rfl

theorem PacketForm.line (x0 y0 x1 y1 : Half) (c : Byte) : PacketForm.Statement (.line x0 y0 x1 y1 c) := fun _ _ _ => rfl

theorem PacketForm.rect (x0 y0 x1 y1 : Half) (c : Byte) : PacketForm.Statement (.rect x0 y0 x1 y1 c) := fun _ _ _ => rfl

theorem PacketForm.fillrect (x0 y0 x1 y1 : Half) (c : Byte) : PacketForm.Statement (.fillrect x0 y0 x1 y1 c) := fun _ _ _ => rfl

theorem PacketForm.roundrect (x0 y0 x1 y1 rnd : Half) (c : Byte) : PacketForm.Statement (.roundrect x0 y0 x1 y1 rnd c) := fun _ _ _ => rfl

theorem PacketForm.fillrrect (x0 y0 x1 y1 rnd : Half) (c : Byte) : PacketForm.Statement (.fillrrect x0 y0 x1 y1 rnd c) := fun _ _ _ => rfl

theorem PacketForm.circle (x0 y0 r : Half) (c : Byte) : PacketForm.Statement (.circle x0 y0 r c) := fun _ _ _ => rfl

theorem PacketForm.fillcircle (x0 y0 r : Half) (c : Byte) : PacketForm.Statement (.fillcircle x0 y0 r c) := fun _ _ _ => rfl

theorem PacketForm.locate (x y : Byte) : PacketForm.Statement (.locate x y) := fun _ _ _ => rfl

theorem PacketForm.font (h : Half) : PacketForm.Statement (.font h) := fun _ _ _ => rfl

theorem PacketForm.wrchar (v : Byte) : PacketForm.Statement (.wrchar v) := fun _ _ _ => rfl

theorem PacketForm.textwidth (str : List Byte) : PacketForm.Statement (.textwidth str) := by
  intro sc bias h
  have hl : str.length ≤ 255 := of_decide_eq_true h
  simp [encode, packetLength, Instr.serial, Nat.mod_eq_of_lt (show str.length < 256 by omega)]
  omega

theorem PacketForm.bitmap (h x y : Half) : PacketForm.Statement (.bitmap h x y) := fun _ _ _ => rfl

theorem PacketForm.reservedHostOpcode (op : Byte) : PacketForm.Statement (.reservedHostOpcode op) := by
  intro sc bias h
  revert h
  simp only [Instr.wellFormed, encode, Instr.serial, List.length_singleton, Bool.false_eq_true, if_false]
  revert op
  decide

theorem PacketForm.cColLo (n : BitVec 4) : PacketForm.Statement (.cColLo n) := fun _ _ _ => rfl

theorem PacketForm.cColHi (n : BitVec 4) : PacketForm.Statement (.cColHi n) := fun _ _ _ => rfl

theorem PacketForm.cPage (n : BitVec 4) : PacketForm.Statement (.cPage n) := fun _ _ _ => rfl

theorem PacketForm.cStartLine (n : BitVec 6) : PacketForm.Statement (.cStartLine n) := fun _ _ _ => rfl

theorem PacketForm.cAdcNormal : PacketForm.Statement .cAdcNormal := fun _ _ _ => rfl

theorem PacketForm.cAdcReverse : PacketForm.Statement .cAdcReverse := fun _ _ _ => rfl

theorem PacketForm.cComNormal : PacketForm.Statement .cComNormal := fun _ _ _ => rfl

theorem PacketForm.cComReverse : PacketForm.Statement .cComReverse := fun _ _ _ => rfl

theorem PacketForm.cDispNormal : PacketForm.Statement .cDispNormal := fun _ _ _ => rfl

theorem PacketForm.cDispInvert : PacketForm.Statement .cDispInvert := fun _ _ _ => rfl

theorem PacketForm.cAllptsOff : PacketForm.Statement .cAllptsOff := fun _ _ _ => rfl

theorem PacketForm.cAllptsOn : PacketForm.Statement .cAllptsOn := fun _ _ _ => rfl

theorem PacketForm.cBias (r : BitVec 1) : PacketForm.Statement (.cBias r) := fun _ _ _ => rfl

theorem PacketForm.cPowerAll : PacketForm.Statement .cPowerAll := fun _ _ _ => rfl

theorem PacketForm.cBoost : PacketForm.Statement .cBoost := fun _ _ _ => rfl

theorem PacketForm.cBoostArg : PacketForm.Statement .cBoostArg := fun _ _ _ => rfl

theorem PacketForm.cContrast : PacketForm.Statement .cContrast := fun _ _ _ => rfl

theorem PacketForm.contrastArgument (v : BitVec 6) : PacketForm.Statement (.contrastArgument v) := fun _ _ _ => rfl

theorem PacketForm.cIndOff : PacketForm.Statement .cIndOff := fun _ _ _ => rfl

theorem PacketForm.cIndArg : PacketForm.Statement .cIndArg := fun _ _ _ => rfl

theorem PacketForm.cDispOn : PacketForm.Statement .cDispOn := fun _ _ _ => rfl

theorem PacketForm.cDispOff : PacketForm.Statement .cDispOff := fun _ _ _ => rfl

end Sys2Proof.Laws
end

