-- ==== Sys2Proof/Laws/Raster.lean ====
section
/-! SUPPORT. The point sets of the shapes that are straight, said once: a horizontal or vertical line under either tie rule,
and the points of a filled rectangle. -/

namespace Sys2Proof.Machine

/-- One turn of the loop of `line` at the end point. -/
theorem lineLoop_end (j : LineJob) (n : Nat) (err : Int) : lineLoop j (n + 1) j.x1 j.y1 err = [(j.x1, j.y1)] := by
  simp [lineLoop]

/-- The loop of `line` on a row: `n` more steps to the end point, the error stays. -/
theorem mem_lineLoop_row (j : LineJob) (n : Nat) (x : Int) (hdx : 0 < j.dx) (hdy : j.dy = 0)
    (hx : x + n * j.sx = j.x1) (hs : j.sx = 1 ∨ j.sx = -1) (p : Int × Int) :
    p ∈ lineLoop j (n + 1) x j.y1 j.dx ↔ p.2 = j.y1 ∧ min x j.x1 ≤ p.1 ∧ p.1 ≤ max x j.x1 := by
  induction n generalizing x with
  | zero =>
    obtain rfl : x = j.x1 := by simpa using hx
    rw [lineLoop_end, List.mem_singleton, Prod.ext_iff]
    constructor
    · rintro ⟨h1, h2⟩; exact ⟨h2, by omega, by omega⟩
    · rintro ⟨h1, h2, h3⟩; exact ⟨by omega, h1⟩
  | succ n ih =>
    have hne : ¬(x = j.x1 ∧ j.y1 = j.y1) := by
      rintro ⟨h, -⟩
      rcases hs with hs | hs <;> rw [hs] at hx <;> push_cast at hx <;> omega
    have hX : lineStepsX j.tie (2 * j.dx) j.dy = true := by
      unfold lineStepsX; split <;> simp only [decide_eq_true_eq] <;> omega
    have hY : lineStepsY j.tie (2 * j.dx) j.dx = false := by
      unfold lineStepsY; split <;> simp only [decide_eq_false_iff_not] <;> omega
    rw [lineLoop, if_neg hne]
    simp only [hX, hY, if_true, Bool.false_eq_true, if_false, add_zero, List.mem_cons]
    rw [hdy, add_zero]
    have hx' : x + j.sx + n * j.sx = j.x1 := by
      rw [← hx]; push_cast; ring
    rw [ih (x + j.sx) hx', Prod.ext_iff]
    rcases hs with hs | hs <;> rw [hs] at hx hx' ⊢ <;> push_cast at hx <;> constructor
    · rintro (⟨h1, h2⟩ | ⟨h1, h2, h3⟩)
      · exact ⟨h2, by omega, by omega⟩
      · exact ⟨h1, by omega, by omega⟩
    · rintro ⟨h1, h2, h3⟩
      by_cases h : p.1 = x
      · exact .inl ⟨h, h1⟩
      · exact .inr ⟨h1, by omega, by omega⟩
    · rintro (⟨h1, h2⟩ | ⟨h1, h2, h3⟩)
      · exact ⟨h2, by omega, by omega⟩
      · exact ⟨h1, by omega, by omega⟩
    · rintro ⟨h1, h2, h3⟩
      by_cases h : p.1 = x
      · exact .inl ⟨h, h1⟩
      · exact .inr ⟨h1, by omega, by omega⟩

/-- The loop of `line` on a column. -/
theorem mem_lineLoop_column (j : LineJob) (n : Nat) (y : Int) (hdx : j.dx = 0) (hdy : j.dy < 0)
    (hy : y + n * j.sy = j.y1) (hs : j.sy = 1 ∨ j.sy = -1) (p : Int × Int) :
    p ∈ lineLoop j (n + 1) j.x1 y j.dy ↔ p.1 = j.x1 ∧ min y j.y1 ≤ p.2 ∧ p.2 ≤ max y j.y1 := by
  induction n generalizing y with
  | zero =>
    obtain rfl : y = j.y1 := by simpa using hy
    rw [lineLoop_end, List.mem_singleton, Prod.ext_iff]
    constructor
    · rintro ⟨h1, h2⟩; exact ⟨h1, by omega, by omega⟩
    · rintro ⟨h1, h2, h3⟩; exact ⟨h1, by omega⟩
  | succ n ih =>
    have hne : ¬(j.x1 = j.x1 ∧ y = j.y1) := by
      rintro ⟨-, h⟩
      rcases hs with hs | hs <;> rw [hs] at hy <;> push_cast at hy <;> omega
    have hX : lineStepsX j.tie (2 * j.dy) j.dy = false := by
      unfold lineStepsX; split <;> simp only [decide_eq_false_iff_not] <;> omega
    have hY : lineStepsY j.tie (2 * j.dy) j.dx = true := by
      unfold lineStepsY; split <;> simp only [decide_eq_true_eq] <;> omega
    rw [lineLoop, if_neg hne]
    simp only [hX, hY, if_true, Bool.false_eq_true, if_false, add_zero, List.mem_cons]
    rw [hdx, add_zero]
    have hy' : y + j.sy + n * j.sy = j.y1 := by
      rw [← hy]; push_cast; ring
    rw [ih (y + j.sy) hy', Prod.ext_iff]
    rcases hs with hs | hs <;> rw [hs] at hy hy' ⊢ <;> push_cast at hy <;> constructor
    · rintro (⟨h1, h2⟩ | ⟨h1, h2, h3⟩)
      · exact ⟨h1, by omega, by omega⟩
      · exact ⟨h1, by omega, by omega⟩
    · rintro ⟨h1, h2, h3⟩
      by_cases h : p.2 = y
      · exact .inl ⟨h1, h⟩
      · exact .inr ⟨h1, by omega, by omega⟩
    · rintro (⟨h1, h2⟩ | ⟨h1, h2, h3⟩)
      · exact ⟨h1, by omega, by omega⟩
      · exact ⟨h1, by omega, by omega⟩
    · rintro ⟨h1, h2, h3⟩
      by_cases h : p.2 = y
      · exact .inl ⟨h1, h⟩
      · exact .inr ⟨h1, by omega, by omega⟩

/-- A line from a point to itself is that point. -/
theorem linePoints_point (tie : LineTie) (x y : Int) : linePoints tie x y x y = [(x, y)] := by
  simp [linePoints, lineLength, lineJob, lineLoop]

/-- The points of a horizontal line. -/
theorem mem_linePoints_row (tie : LineTie) (x0 x1 y : Int) (p : Int × Int) :
    p ∈ linePoints tie x0 y x1 y ↔ p.2 = y ∧ min x0 x1 ≤ p.1 ∧ p.1 ≤ max x0 x1 := by
  by_cases h : x0 = x1
  · subst h
    rw [linePoints_point, List.mem_singleton, Prod.ext_iff]
    constructor
    · rintro ⟨h1, h2⟩; exact ⟨h2, by omega, by omega⟩
    · rintro ⟨h1, h2, h3⟩; exact ⟨by omega, h1⟩
  · have hl : lineLength x0 y x1 y = (x1 - x0).natAbs + 1 := by simp [lineLength]
    have he : (lineJob tie x0 y x1 y).dx + (lineJob tie x0 y x1 y).dy = (lineJob tie x0 y x1 y).dx := by simp [lineJob]
    simp only [linePoints, hl, he]
    refine mem_lineLoop_row (lineJob tie x0 y x1 y) _ x0 ?_ ?_ ?_ ?_ p
    · exact abs_pos.mpr (by omega)
    · simp [lineJob]
    · simp only [lineJob]; split_ifs <;> omega
    · simp only [lineJob]; split_ifs <;> simp

/-- The points of a vertical line. -/
theorem mem_linePoints_column (tie : LineTie) (x y0 y1 : Int) (p : Int × Int) :
    p ∈ linePoints tie x y0 x y1 ↔ p.1 = x ∧ min y0 y1 ≤ p.2 ∧ p.2 ≤ max y0 y1 := by
  by_cases h : y0 = y1
  · subst h
    rw [linePoints_point, List.mem_singleton, Prod.ext_iff]
    constructor
    · rintro ⟨h1, h2⟩; exact ⟨h1, by omega, by omega⟩
    · rintro ⟨h1, h2, h3⟩; exact ⟨h1, by omega⟩
  · have hl : lineLength x y0 x y1 = (y1 - y0).natAbs + 1 := by simp [lineLength]
    have he : (lineJob tie x y0 x y1).dx + (lineJob tie x y0 x y1).dy = (lineJob tie x y0 x y1).dy := by simp [lineJob]
    simp only [linePoints, hl, he]
    refine mem_lineLoop_column (lineJob tie x y0 x y1) _ y0 ?_ ?_ ?_ ?_ p
    · simp [lineJob]
    · simp only [lineJob, Left.neg_neg_iff]; exact abs_pos.mpr (by omega)
    · simp only [lineJob]; split_ifs <;> omega
    · simp only [lineJob]; split_ifs <;> simp

theorem mem_intRange (a b v : Int) : v ∈ intRange a b ↔ a ≤ v ∧ v ≤ b := by
  simp only [intRange, List.mem_map, List.mem_range]
  constructor
  · rintro ⟨k, hk, rfl⟩; omega
  · rintro ⟨h1, h2⟩; exact ⟨(v - a).toNat, by omega, by omega⟩

theorem mem_gridPoints (xa xb ya yb : Int) (p : Int × Int) :
    p ∈ gridPoints xa xb ya yb ↔ xa ≤ p.1 ∧ p.1 ≤ xb ∧ ya ≤ p.2 ∧ p.2 ≤ yb := by
  simp only [gridPoints, List.mem_flatMap, List.mem_map, mem_intRange]
  constructor
  · rintro ⟨y, ⟨h1, h2⟩, x, ⟨h3, h4⟩, rfl⟩; exact ⟨h3, h4, h1, h2⟩
  · rintro ⟨h3, h4, h1, h2⟩; exact ⟨p.2, ⟨h1, h2⟩, p.1, ⟨h3, h4⟩, rfl⟩

/-- The points of a filled rectangle. -/
theorem mem_fillRectPoints (x0 y0 x1 y1 : Int) (p : Int × Int) :
    p ∈ fillRectPoints x0 y0 x1 y1 ↔
      min x0 x1 ≤ p.1 ∧ p.1 ≤ max x0 x1 ∧ min y0 y1 ≤ p.2 ∧ p.2 ≤ max y0 y1 := mem_gridPoints _ _ _ _ p

end Sys2Proof.Machine
end

