-- ==== Sys2Proof/Tests/Slice0.lean ====
section
/-! SUPPORT. Own tests: the check of ill-formed terms, every constructor's decoding from a word written out from the spec's
encoding, one-step tests whose expected results are those of spec/95_test_vectors.md (the vector is named) or worked out by
hand from the rule named, and a witness for the hypotheses of every statement. -/

namespace Sys2Proof.Tests

open Sys2Proof Sys2Proof.Machine

/-! ## The check refuses ill-formed terms, and takes the boundary next to them -/

theorem test_wellFormed_dispmodeReserved : (Instr.dispmodeReserved 7).wellFormed = false ∧
    (Instr.dispmodeReserved 8).wellFormed = true := by decide

theorem test_wellFormed_dispmodevOther : (Instr.dispmodevOther 7 1).wellFormed = false ∧
    (Instr.dispmodevOther 8 1).wellFormed = true := by decide

theorem test_wellFormed_textwidth : (Instr.textwidth (List.replicate 256 0x21)).wellFormed = false ∧
    (Instr.textwidth (List.replicate 255 0x21)).wellFormed = true := by decide +kernel

theorem test_wellFormed_reservedHostOpcode : (Instr.reservedHostOpcode 0x16).wellFormed = false ∧
    (Instr.reservedHostOpcode 0x17).wellFormed = true ∧ (Instr.reservedHostOpcode 0x0A).wellFormed = false ∧
    (Instr.reservedHostOpcode 0x0B).wellFormed = true := by decide

theorem test_config_refused : (Config.ofRecord (variantRecord 0 4 0x1F 0)).isNone = true ∧
    (Config.ofRecord (variantRecord 256 4 0x1F 0)).isNone = true ∧ (Config.ofRecord (variantRecord 132 5 0x1F 0)).isNone = true ∧
    (Config.ofRecord (variantRecord 132 4 64 0)).isNone = true ∧ (Config.ofRecord (variantRecord 132 4 0x1F 16)).isNone = true ∧
    (Config.ofRecord (variantRecord 255 8 63 15)).isSome = true := by decide

/-! ## Decoding: host packets, byte by byte from R82 to R84 (E1 to E6 among them) -/

theorem test_decode_init : decodeHost [0x01] = .ok (.init, []) := by decide
theorem test_decode_flush : decodeHost [0x02] = .ok (.flush, []) := by decide
theorem test_decode_sync : decodeHost [0x03] = .ok (.sync, []) := by decide
theorem test_decode_cls : decodeHost [0x04] = .ok (.cls, []) := by decide
theorem test_decode_updmode : decodeHost [0x05, 0x01] = .ok (.updmode 1, []) := by decide
theorem test_decode_dmOn : decodeHost [0x06, 0x00] = .ok (.dmOn, []) := by decide
theorem test_decode_dmOff : decodeHost [0x06, 0x01] = .ok (.dmOff, []) := by decide
theorem test_decode_dmSleep : decodeHost [0x06, 0x02] = .ok (.dmSleep, []) := by decide
theorem test_decode_dmInvert : decodeHost [0x06, 0x03] = .ok (.dmInvert, []) := by decide
theorem test_decode_dmDefault : decodeHost [0x06, 0x04] = .ok (.dmDefault, []) := by decide
theorem test_decode_dmTopview : decodeHost [0x06, 0x05] = .ok (.dmTopview, []) := by decide
theorem test_decode_dmBottom : decodeHost [0x06, 0x06] = .ok (.dmBottom, []) := by decide
theorem test_decode_dmContrast : decodeHost [0x06, 0x07] = .ok (.dmContrast, []) := by decide
theorem test_decode_dispmodeReserved : decodeHost [0x06, 0xFF] = .ok (.dispmodeReserved 0xFF, []) := by decide
theorem test_decode_dispmodevContrast : decodeHost [0x07, 0x07, 0x2A] = .ok (.dispmodevContrast 0x2A, []) := by decide
theorem test_decode_dispmodevOther : decodeHost [0x07, 0x03, 0x01] = .ok (.dispmodevOther 3 1, []) := by decide
theorem test_decode_setpix : decodeHost [0x08, 0x80, 0x00, 0x7F, 0xFF, 0x00] = .ok (.setpix (-32768) 32767 0, []) := by decide
theorem test_decode_getpix : decodeHost [0x09, 0xFF, 0xFF, 0x00, 0x05] = .ok (.getpix (-1) 5, []) := by decide
theorem test_decode_point : decodeHost [0x0A, 0x00, 0xC8, 0x00, 0x00, 0x01] = .ok (.point 200 0 1, []) := by decide
theorem test_decode_line : decodeHost [0x10, 0xFF, 0xFE, 0xFF, 0xFD, 0x00, 0x02, 0x01, 0x03, 0x04] = .ok (.line (-2) (-3) 2 0x103 4, []) := by decide
theorem test_decode_rect : decodeHost [0x11, 0x00, 0x02, 0x00, 0x03, 0x00, 0x09, 0x00, 0x08, 0x01] = .ok (.rect 2 3 9 8 1, []) := by decide
theorem test_decode_fillrect : decodeHost [0x12, 0x00, 0x7E, 0x00, 0x3E, 0x00, 0xC8, 0x00, 0xC9, 0x01] = .ok (.fillrect 126 62 200 201 1, []) := by decide
theorem test_decode_roundrect : decodeHost [0x13, 0x00, 0x01, 0x00, 0x02, 0x00, 0x09, 0x00, 0x0A, 0x00, 0x03, 0x04] = .ok (.roundrect 1 2 9 10 3 4, []) := by decide
theorem test_decode_fillrrect : decodeHost [0x14, 0x00, 0x01, 0x00, 0x02, 0x00, 0x09, 0x00, 0x0A, 0x00, 0x03, 0x04] = .ok (.fillrrect 1 2 9 10 3 4, []) := by decide
theorem test_decode_circle : decodeHost [0x15, 0x00, 0x05, 0x00, 0x06, 0xFF, 0xFF, 0x01] = .ok (.circle 5 6 (-1) 1, []) := by decide
theorem test_decode_fillcircle : decodeHost [0x16, 0x00, 0x0A, 0x00, 0x0B, 0x00, 0x03, 0x01] = .ok (.fillcircle 10 11 3 1, []) := by decide
theorem test_decode_locate : decodeHost [0x20, 0xC8, 0x08] = .ok (.locate 200 8, []) := by decide
theorem test_decode_font : decodeHost [0x21, 0x12, 0x34] = .ok (.font 0x1234, []) := by decide
theorem test_decode_wrchar : decodeHost [0x22, 0x21] = .ok (.wrchar 0x21, []) := by decide
theorem test_decode_textwidth : decodeHost [0x23, 0x02, 0x41, 0x42] = .ok (.textwidth [0x41, 0x42], []) := by decide
theorem test_decode_bitmap : decodeHost [0x30, 0x00, 0x02, 0xFF, 0xFE, 0xFF, 0xFF] = .ok (.bitmap 2 (-2) (-1), []) := by decide
theorem test_decode_reservedHostOpcode : decodeHost [0x31] = .ok (.reservedHostOpcode 0x31, []) := by decide

/-! ### Serial bytes, bit by bit from the values and masks of R90 -/

theorem test_decode_cColLo : decodeSerial SerCmd.standard biasStandard none 0b00000100 = some (.cColLo 4) := by decide
theorem test_decode_cColHi : decodeSerial SerCmd.standard biasStandard none 0b00011001 = some (.cColHi 9) := by decide
theorem test_decode_cPage : decodeSerial SerCmd.standard biasStandard none 0b10110101 = some (.cPage 5) := by decide
theorem test_decode_cStartLine : decodeSerial SerCmd.standard biasStandard none 0b01100001 = some (.cStartLine 0x21) := by decide
theorem test_decode_cAdcNormal : decodeSerial SerCmd.standard biasStandard none 0b10100000 = some .cAdcNormal := by decide
theorem test_decode_cAdcReverse : decodeSerial SerCmd.standard biasStandard none 0b10100001 = some .cAdcReverse := by decide
theorem test_decode_cComNormal : decodeSerial SerCmd.standard biasStandard none 0b11000000 = some .cComNormal := by decide
theorem test_decode_cComReverse : decodeSerial SerCmd.standard biasStandard none 0b11001000 = some .cComReverse := by decide
theorem test_decode_cDispNormal : decodeSerial SerCmd.standard biasStandard none 0b10100110 = some .cDispNormal := by decide
theorem test_decode_cDispInvert : decodeSerial SerCmd.standard biasStandard none 0b10100111 = some .cDispInvert := by decide
theorem test_decode_cAllptsOff : decodeSerial SerCmd.standard biasStandard none 0b10100100 = some .cAllptsOff := by decide
theorem test_decode_cAllptsOn : decodeSerial SerCmd.standard biasStandard none 0b10100101 = some .cAllptsOn := by decide
theorem test_decode_cBias : decodeSerial SerCmd.standard biasStandard none 0b10100011 = some (.cBias 1) := by decide
theorem test_decode_cPowerAll : decodeSerial SerCmd.standard biasStandard none 0b00101111 = some .cPowerAll := by decide
theorem test_decode_cBoost : decodeSerial SerCmd.standard biasStandard none 0b11111000 = some .cBoost := by decide
theorem test_decode_cBoostArg : decodeSerial SerCmd.standard biasStandard (some .boost) 0b00000000 = some .cBoostArg := by decide
theorem test_decode_cContrast : decodeSerial SerCmd.standard biasStandard none 0b10000001 = some .cContrast := by decide
theorem test_decode_contrastArgument : decodeSerial SerCmd.standard biasStandard (some .contrast) 0b00101010 = some (.contrastArgument 0x2A) := by decide
theorem test_decode_cIndOff : decodeSerial SerCmd.standard biasStandard none 0b10101100 = some .cIndOff := by decide
theorem test_decode_cIndArg : decodeSerial SerCmd.standard biasStandard (some .indicator) 0b00000000 = some .cIndArg := by decide
theorem test_decode_cDispOn : decodeSerial SerCmd.standard biasStandard none 0b10101111 = some .cDispOn := by decide
theorem test_decode_cDispOff : decodeSerial SerCmd.standard biasStandard none 0b10101110 = some .cDispOff := by decide
/-! ### What the decoders refuse -/

theorem test_decode_truncated : decodeHost [0x08, 0x00, 0x05] = .error (.truncated 0x08) ∧
    decodeHost [0x23, 0x02, 0x41] = .error (.truncated 0x23) ∧ decodeHost [] = .error .empty := by decide

theorem test_decode_no_serial_row : decodeSerial SerCmd.standard biasStandard none 0xE2 = none ∧
    decodeSerial SerCmd.standard biasStandard (some .boost) 0x01 = none ∧
    decodeSerial SerCmd.standard biasStandard (some .contrast) 0x40 = none := by decide

/-! ### Words of the table -/

theorem test_tableWord_host : decodeTableWord 8 0x02 = some .flush ∧ decodeTableWord 16 0x0605 = some .dmTopview ∧
    decodeTableWord 16 0x0707 = some (.dispmodevContrast 0) ∧ decodeTableWord 8 0x08 = some (.setpix 0 0 0) ∧
    decodeTableWord 8 0x23 = some (.textwidth []) := by decide

theorem test_tableWord_serial : decodeTableWord 8 0xB5 = some (.cPage 5) ∧ decodeTableWord 8 0xAE = some .cDispOff ∧
    decodeTableWord 8 0x00 = some (.cColLo 0) := by decide

/-- A word laid out in full, byte 0 in the lowest bits: `SETPIX 5,10,1` of vector V1. -/
theorem test_tableWord_full : decodeTableWord 48 0x010A00050008 = some (.setpix 5 10 1) := by decide

/-! ## Small states -/

/-- The assets of the vectors: `TF`, `TF2` and the two bitmaps (95_test_vectors.md, sections 2.5 and 2.6). -/
def vectorAssets : List (Half × List Byte) :=
  [(0, [0x04, 0x03, 0x08, 0x01, 0x02, 0x00, 0x00, 0x00, 0x03, 0xFF, 0x81, 0xFF]),
   (1, [0x05, 0x02, 0x10, 0x02, 0x02, 0x01, 0x80, 0xFF, 0x00]),
   (2, [0x05, 0x02, 0x01, 0xA8, 0xF8]),
   (3, [0x0A, 0x01, 0x02, 0xFF, 0xC0])]

/-- V_TALL_A with the assets of the vectors. -/
def tallA : Config where
  toConfigRecord := { variantRecord 128 8 0x16 4 with assets := vectorAssets }
  wellFormed := by decide

/-- Two columns, four pages, with the assets: for a page transfer that can be read. -/
def tiny : Config where
  toConfigRecord := { variantRecord 2 4 0x1F 3 with assets := vectorAssets }
  wellFormed := by decide

/-- `tiny` under each `CLS_FLUSH`. -/
def tinyFlush (f : ClsFlush) : Config where
  toConfigRecord := { variantRecord 2 4 0x1F 3 with clsFlush := f }
  wellFormed := by cases f <;> decide

/-- A state right after reset but for the framebuffer bytes `fb`. -/
def start (c : Config) (fb : Memory) : State := { State.resetOf c 0 with fb := fb }

/-- A state right after reset with a clear framebuffer. -/
def clean (c : Config) : State := (State.resetOf c 0).zeroFb

/-- The state after one step with a packet on the host port. -/
def after (packet : List Byte) (s : State) : Option State :=
  match step { s with hostPort := packet } with
  | .next t => some t
  | _ => none

/-- What a step with a packet on the host port is refused for. -/
def refusedFor (packet : List Byte) (s : State) : Option Refusal :=
  match step { s with hostPort := packet } with
  | .refused r => some r
  | _ => none

/-- The state after one serial instruction of the sequencer. -/
def afterSerial (b : Byte) (s : State) : Option State :=
  match step { s with seqCmds := [b] } with
  | .next t => some t
  | _ => none

/-! ## Pixels -/

/-- V1. -/
theorem test_setpix_sets : (after [0x08, 0x00, 0x05, 0x00, 0x0A, 0x01] (start tallA [(133, 0x00)])).map (·.fb) =
    some [(133, 0x04)] := by decide

/-- V5; V7 is the drop. -/
theorem test_setpix_clears : (after [0x08, 0x00, 0x05, 0x00, 0x0A, 0x00] (start tallA [(133, 0xFF)])).map (·.fb) =
    some [(133, 0xFB)] ∧
    (after [0x08, 0xFF, 0xFF, 0x00, 0x00, 0x01] (start tallA [(0, 0x55)])).map (·.fb) = some [(0, 0x55)] := by decide

/-- V9. -/
theorem test_getpix_replies : (after [0x09, 0x00, 0x03, 0x00, 0x14] (start tallA [(259, 0x10)])).map (·.replies) =
    some [[1]] ∧ (after [0x09, 0x00, 0x03, 0x00, 0x15] (start tallA [(259, 0x10)])).map (·.replies) = some [[0]] ∧
    (after [0x09, 0xFF, 0xFF, 0x00, 0x05] (start tallA [])).map (·.replies) = some [[0]] := by decide

/-- V10 and V12, on two columns. -/
theorem test_cls_clears : (after [0x04] (start tiny [(7, 0x80)])).map (·.fb) = some ((List.range 8).map fun a => (a, 0x00)) ∧
    (after [0x04] (start tiny [])).map (·.trace) = some [] ∧
    (after [0x04] (start (tinyFlush .always) [])).map (·.trace.length) = some 21 := by decide

/-- V14, on two columns: the pixel is dropped, the transfer is not. -/
theorem test_point_dropped : (after [0x0A, 0x00, 0xC8, 0x00, 0x00, 0x01]
    { clean tiny with autoUpdate := true }).map (fun t => (t.fb == (clean tiny).fb, t.trace.length)) =
    some (true, 21) := by decide

/-! ## Transfers -/

/-- X2 on two columns: R146 worked out by hand for `W = 2`, `P = 4`, `TOPVIEW_OFFSET = 3`, `topview = 1`. -/
theorem test_flush_events : (after [0x02] { start tiny [(0, 0xAA), (1, 0x55), (2, 0x01), (3, 0x02), (4, 0x03), (5, 0x04),
      (6, 0x05), (7, 0x06)] with topview := true }).map (·.trace) =
    some [.cmd 0x03, .cmd 0x10, .cmd 0xB0, .dat 0xAA, .dat 0x55, .cmd 0x03, .cmd 0x10, .cmd 0xB1, .dat 0x01, .dat 0x02,
      .cmd 0x03, .cmd 0x10, .cmd 0xB2, .dat 0x03, .dat 0x04, .cmd 0x03, .cmd 0x10, .cmd 0xB3, .dat 0x05, .dat 0x06,
      .csHigh] := by decide

/-- X5. -/
theorem test_sync_policy : (after [0x03] (start tiny [])).map (·.trace) = some [] ∧
    (after [0x03] { clean tiny with autoUpdate := true }).map (·.trace.length) = some 21 := by decide

/-- X6. -/
theorem test_updmode : (after [0x05, 0x01] (start tiny [])).map (·.autoUpdate) = some true ∧
    (after [0x05, 0x00] { start tiny [] with autoUpdate := true }).map (·.autoUpdate) = some false ∧
    (after [0x05, 0xFF] { start tiny [] with autoUpdate := true }).map (·.autoUpdate) = some true := by decide

/-! ## Session -/

/-- I2. -/
theorem test_init_trace : (after [0x01] (start tallA [])).map (·.trace) =
    some [.busCfg, .rstPulse, .cmd 0x40, .cmd 0xA1, .cmd 0xC0, .cmd 0xA6, .cmd 0xA2, .cmd 0x2F, .cmd 0xF8, .cmd 0x00,
      .cmd 0x81, .cmd 0x16, .cmd 0xAC, .cmd 0x00, .cmd 0xAF] := by decide

/-- I4 on two columns: `topview` stays 1, and the transfer of the clear step comes last. -/
theorem test_init_again : (after [0x01] { start tiny [] with autoUpdate := true, topview := true, charX := 9 }).map
    (fun t => (t.topview, t.autoUpdate, t.charX, t.trace.length, t.trace[15]?)) =
    some (true, true, 0, 36, some (.cmd 0x03)) := by decide

/-- M0 to M4 and M7. -/
theorem test_dispmode_commands : (after [0x06, 0x00] (start tallA [])).map (·.trace) = some [.cmd 0xA4, .cmd 0xAF] ∧
    (after [0x06, 0x01] (start tallA [])).map (·.trace) = some [.cmd 0xAE] ∧
    (after [0x06, 0x02] (start tallA [])).map (·.trace) = some [.cmd 0xA5, .cmd 0xAE] ∧
    (after [0x06, 0x03] (start tallA [])).map (·.trace) = some [.cmd 0xA7] ∧
    (after [0x06, 0x04] (start tallA [])).map (·.trace) = some [.cmd 0xA6] ∧
    (after [0x06, 0x07] (start tallA [])).map (·.trace) = some [.cmd 0x81, .cmd 0x16] := by decide

/-- M5 and M6 on two columns. -/
theorem test_orientation : (after [0x06, 0x05] (clean tiny)).map (fun t => (t.topview, t.trace.take 3, t.trace.length)) =
    some (true, [.cmd 0xA0, .cmd 0xC8, .cmd 0x03], 23) ∧
    (after [0x06, 0x06] (clean tiny)).map (fun t => (t.topview, t.trace.take 3, t.trace.length)) =
    some (false, [.cmd 0xA1, .cmd 0xC0, .cmd 0x00], 23) := by decide

/-- M10 to M14. -/
theorem test_contrast_argument : (after [0x07, 0x07, 0x3F] (start tallA [])).map (·.trace) = some [.cmd 0x81, .cmd 0x3F] ∧
    (after [0x07, 0x07, 0x40] (start tallA [])).map (·.trace) = some [] ∧
    (after [0x07, 0x03, 0x01] (start tallA [])).map (·.trace) = some [] ∧
    (after [0x06, 0x08] (start tallA [])).map (·.trace) = some [] := by decide

/-- E3: a reserved opcode is a packet of one byte. -/
theorem test_reserved_opcode : (after [0x24, 0x02] (start tallA [])).map (fun t => (t.hostPort, t.trace)) =
    some ([0x02], []) := by decide

/-! ## Rasteriser -/

/-- L5, both settings. -/
theorem test_line_tie : linePoints .nonstrict 0 0 2 1 = [(0, 0), (1, 1), (2, 1)] ∧
    linePoints .strict 0 0 2 1 = [(0, 0), (1, 0), (2, 1)] := by decide

/-- L8: the points off the display are dropped. -/
theorem test_line_clipped : (after [0x10, 0x00, 0x7E, 0x00, 0x00, 0x00, 0x82, 0x00, 0x00, 0x01]
    (start tallA [(126, 0x00), (127, 0x00), (128, 0x00)])).map (·.fb) =
    some [(126, 0x01), (127, 0x01), (128, 0x00)] := by decide

/-- L11. -/
theorem test_rect : (after [0x11, 0x00, 0x03, 0x00, 0x03, 0x00, 0x00, 0x00, 0x00, 0x01]
    (start tallA [(0, 0), (1, 0), (2, 0), (3, 0), (4, 0)])).map (·.fb) =
    some [(0, 0x0F), (1, 0x09), (2, 0x09), (3, 0x0F), (4, 0)] := by decide +kernel

/-- The second of L14, and L16. -/
theorem test_fillrect : (after [0x12, 0x00, 0x03, 0x00, 0x00, 0x00, 0x00, 0x00, 0x03, 0x01]
    (start tallA [(0, 0), (1, 0), (2, 0), (3, 0), (4, 0)])).map (·.fb) =
    some [(0, 0x0F), (1, 0x0F), (2, 0x0F), (3, 0x0F), (4, 0)] ∧
    (after [0x12, 0x00, 0x00, 0x00, 0x00, 0x00, 0x03, 0x00, 0x03, 0x00]
    (start tallA [(0, 0xFF), (1, 0xFF), (2, 0xFF), (3, 0xFF)])).map (·.fb) =
    some [(0, 0xF0), (1, 0xF0), (2, 0xF0), (3, 0xF0)] := by decide +kernel

/-- The table of `arc(r)`, `r` = 3 and 7. -/
theorem test_arc : arcOffsets 3 = [(3, 0), (3, 1), (2, 2), (1, 3), (0, 3)] ∧
    arcOffsets 7 = [(7, 0), (7, 1), (7, 2), (6, 3), (6, 4), (5, 5), (4, 6), (3, 6), (2, 7), (1, 7), (0, 7)] := by
  decide

/-- CV5, clipped, and CV6, refused. -/
theorem test_circle : (after [0x15, 0x00, 0x00, 0x00, 0x00, 0x00, 0x02, 0x01]
    (start tallA [(0, 0), (1, 0), (2, 0), (3, 0)])).map (·.fb) =
    some [(0, 0x04), (1, 0x04), (2, 0x03), (3, 0)] ∧
    refusedFor [0x15, 0x00, 0x05, 0x00, 0x05, 0xFF, 0xFF, 0x01] (start tallA []) = some .negativeRadius := by decide

/-- CV8. -/
theorem test_fillcircle : (after [0x16, 0x00, 0x05, 0x00, 0x05, 0x00, 0x01, 0x01]
    (start tallA [(3, 0), (4, 0), (5, 0), (6, 0), (7, 0)])).map (·.fb) =
    some [(3, 0), (4, 0x20), (5, 0x70), (6, 0x20), (7, 0)] := by decide

/-- CV13, and the pixel count of CV9. -/
theorem test_roundrect : refusedFor [0x13, 0, 0, 0, 0, 0, 9, 0, 9, 0, 5, 1] (start tallA []) = some .roundRectPrecondition ∧
    (roundRectPoints .nonstrict 0 0 9 9 3).dedup.length = 28 := by decide

/-- The pixel count of CV10. -/
theorem test_fillrrect : (fillRoundRectPoints .nonstrict 0 0 9 9 3).dedup.length = 88 := by decide +kernel

/-! ## Text and bitmaps -/

/-- The packet of T11's `LOCATE`. -/
theorem test_locate : (after [0x20, 0xC8, 0x08] (start tallA [])).map (fun t => (t.charX, t.charY)) =
    some (0xC8, 0x08) := by decide

/-- T23: `FONT 7` succeeds, and the character then is refused. -/
theorem test_font : (after [0x21, 0x00, 0x07] (start tallA [])).map (·.font) = some 7 ∧
    refusedFor [0x22, 0x21] { start tallA [] with font := 7 } = some (.assetRead 7 0) := by decide

/-- T2: unlit pixels clear. -/
theorem test_wrchar_clears : (after [0x22, 0x20] (start tallA [(0, 0xFF), (1, 0xFF)])).map (fun t => (t.fb, t.charX)) =
    some ([(0, 0x00), (1, 0x00)], 2) := by decide +kernel

/-- T4: the width wrap; T9 and T7: the newline. -/
theorem test_wrchar_wraps : (after [0x22, 0x21] { start tallA [(128, 0), (129, 0), (130, 0)] with charX := 126 }).map
    (fun t => (t.fb, t.charX, t.charY)) = some ([(128, 0xFF), (129, 0x81), (130, 0xFF)], 3, 8) ∧
    (after [0x22, 0x0A] { start tallA [] with charX := 50, charY := 48 }).map (fun t => (t.charX, t.charY)) = some (0, 0) ∧
    (after [0x22, 0x0A] { start tallA [] with charY := 40 }).map (fun t => (t.charX, t.charY)) = some (0, 48) := by
  decide +kernel

/-- T16, and T22's missing byte. -/
theorem test_textwidth : (after [0x23, 0x03, 0x21, 0x20, 0x21] (start tallA [])).map (·.replies) = some [[0x00, 0x08]] ∧
    refusedFor [0x23, 0x01, 0x22] (start tallA []) = some (.assetRead 0 12) := by decide

/-- B6. -/
theorem test_bitmap : (after [0x30, 0x00, 0x02, 0x00, 0x00, 0x00, 0x00]
    (start tallA [(0, 0xFF), (1, 0xFF), (2, 0), (3, 0), (4, 0)])).map (·.fb) =
    some [(0, 0xFF), (1, 0xFE), (2, 0x03), (3, 0x02), (4, 0x03)] := by decide

/-- B3: negative destinations; B5: no data byte is read. -/
theorem test_bitmap_clipped : (after [0x30, 0x00, 0x02, 0xFF, 0xFE, 0xFF, 0xFF]
    (start tallA [(0, 0), (1, 0), (2, 0), (3, 0)])).map (·.fb) = some [(0, 0x01), (1, 0x01), (2, 0x01), (3, 0)] ∧
    (after [0x30, 0x00, 0x02, 0x00, 0x0A, 0x00, 0x40] (start tallA [])).map (·.fb) = some [] := by decide

/-! ## Serial bytes -/

/-- The address commands of R66 by hand: page 5, column 0x19, then a data byte in cell `5 * 132 + 25`. A second reset pulse
leaves the cell (R61); without any pulse it stays unknown (R291). -/
theorem test_serial_address :
    ((start tallA []).emit [.rstPulse, .cmd 0xB5, .cmd 0x11, .cmd 0x09, .dat 0x7E]).panel.cell 5 25 = some 0x7E ∧
    ((start tallA []).emit [.rstPulse, .cmd 0xB5, .cmd 0x11, .cmd 0x09, .dat 0x7E, .rstPulse]).panel.cell 5 25 = some 0x7E ∧
    ((start tallA []).emit [.cmd 0xB5, .cmd 0x11, .cmd 0x09, .dat 0x7E]).panel = Panel.unknown := by decide

/-- The column moves on where the page is unknown, from 0x0F to 0x10 (R66 by hand), and a data byte at an unknown page makes its
column unknown in every page and leaves the others. -/
theorem test_data_unknown_page :
    (((start tallA []).emit [.rstPulse, .cmd 0x10, .cmd 0x0F, .dat 0x7E]).panel.colHi,
      ((start tallA []).emit [.rstPulse, .cmd 0x10, .cmd 0x0F, .dat 0x7E]).panel.colLo) = (some 1, some 0) ∧
    ((start tallA []).emit [.rstPulse, .cmd 0xB2, .cmd 0x10, .cmd 0x03, .dat 0x11, .dat 0x22, .rstPulse, .cmd 0x10,
      .cmd 0x04, .dat 0x33]).panel.ddram = [(2 * 132 + 3, 0x11)] := by decide

/-- A byte that no row of R90 has is never sent (R92: no software-reset command). -/
theorem test_serial_unlisted : (afterSerial 0xE2 (start tallA [])).map (fun t => (t.seqCmds, t.trace)) = some ([], []) := by
  decide

/-- A contrast pair, its second byte told by position (R94). -/
theorem test_serial_contrast : (afterSerial 0x81 (start tallA [])).map (fun t => (t.trace, t.panel.arg)) =
    some ([.cmd 0x81], some .contrast) ∧
    (afterSerial 0x2A ((start tallA []).emit [.rstPulse, .cmd 0x81])).map (fun t => t.panel.view.contrast) =
      some (some 0x2A) := by
  decide

/-- The named session states of R185: after `INIT`, then after `DM_SLEEP`; `DM_SLEEP` before the first `INIT` leaves the
view unknown (R291). -/
theorem test_session_named : (after [0x01] (start tallA [])).map (fun t => t.panel.view.named) = some (some .on) ∧
    (after [0x06, 0x02] ((start tallA []).emit [.rstPulse])).map (fun t => t.panel.view.named) = some (some .sleep) ∧
    (after [0x06, 0x02] (start tallA [])).map (fun t => t.panel.view.named) = some none := by decide

/-- A word of the table stored where the next step takes it from, right after reset. -/
theorem test_withFetchWord : (match step (State.reset.withFetchWord 16 0x0600) with
      | .next t => some t.trace
      | _ => none) = some [.cmd 0xA4, .cmd 0xAF] ∧
    (match step (State.reset.withFetchWord 8 0xB5) with
      | .next t => some t.trace
      | _ => none) = some [.cmd 0xB5] := by decide

/-! ## Witnesses

One theorem for each statement that has hypotheses: a state and operands that meet them, at the boundaries of each clause. -/

/-- A pixel of a cleared framebuffer is unlit. -/
theorem clean_unlit (c : Config) (x y : Int) : (clean c).getPixel x y = false := by
  by_cases h : inside c x y = true
  · have ha : (clean c).readByte (pixelAddr c x y) = 0 := by
      unfold clean
      rw [readByte_zeroFb]
      exact if_pos (pixelAddr_lt h)
    simp only [State.getPixel]
    rw [show (clean c).cfg = c from rfl, ha]
    simp [bitOf]
  · simp only [State.getPixel]
    rw [show (clean c).cfg = c from rfl, Bool.eq_false_iff.mpr h, Bool.false_and]

theorem witness_StepKeepsInv : StateInv (start tallA [(133, 0x04)]) ∧
    ∃ t, step { start tallA [(133, 0x04)] with hostPort := [0x0A, 0x00, 0x05, 0x00, 0x0A, 0x00] } = .next t := by
  refine ⟨⟨by decide, ?_, rfl, rfl, fun _ => rfl, rfl⟩, _, rfl⟩
  intro c hc
  obtain rfl := List.mem_singleton.mp hc
  decide

theorem witness_StepRunsTheDecodedInstruction :
    decodeHost [0x05, 0x01, 0xFF] = .ok (.updmode 1, [0xFF]) ∧ (start tallA []).seqCmds = [] ∧
    decodeSerial tallA.serCmd tallA.biasCmd (start tallA []).panel.arg 0xAF = some .cDispOn ∧
    (start tallA []).hostPort = [] ∧ decodeHost [0x06] = .error (.truncated 0x06) ∧
    decodeSerial tallA.serCmd tallA.biasCmd (start tallA []).panel.arg 0xE2 = none := by decide

theorem witness_HostRoundTrip :
    ((Instr.setpix 0x8000 0xFFFF 0xFF).serial = false ∧ (Instr.setpix 0x8000 0xFFFF 0xFF).wellFormed = true) ∧
    ((Instr.dispmodeReserved 8).serial = false ∧ (Instr.dispmodeReserved 8).wellFormed = true) ∧
    (Instr.textwidth (List.replicate 255 0)).wellFormed = true ∧ (Instr.textwidth []).wellFormed = true ∧
    (Instr.reservedHostOpcode 0x00).wellFormed = true ∧ (Instr.reservedHostOpcode 0xFF).wellFormed = true := by decide +kernel

theorem witness_HostDecodeInverse : decodeHost [0x15, 0x80, 0x00, 0x7F, 0xFF, 0xFF, 0xFF, 0x00, 0x01] =
    .ok (.circle (-32768) 32767 (-1) 0, [0x01]) := by decide

theorem witness_SerialRoundTrip : (Instr.contrastArgument 63).serial = true ∧ (Instr.cBias 1).serial = true ∧
    decodeSerial SerCmd.standard biasStandard (some .contrast) 0x3F = some (.contrastArgument 63) ∧
    decodeSerial SerCmd.standard biasStandard none 0x0F = some (.cColLo 15) := by decide

theorem witness_PixelAddressing : inside tallA 127 63 = true ∧ inside tallA 0 0 = true ∧
    (1023 : Nat) < tallA.w * tallA.p ∧ pixelAddr tallA 127 63 = 1023 ∧ pixelBit 63 = 7 := by decide

/-- Just off each edge, and the last pixel. -/
theorem witness_SetpixWritesOneBit :
    ((-1 : Half).toInt < 0 ∧ (tallA.w : Int) ≤ (128 : Half).toInt ∧ (tallA.h : Int) ≤ (64 : Half).toInt) ∧
    (0 ≤ (127 : Half).toInt ∧ (127 : Half).toInt < tallA.w ∧ 0 ≤ (63 : Half).toInt ∧ (63 : Half).toInt < tallA.h) ∧
    (0 ≤ (0 : Half).toInt ∧ (1022 : Nat) ≠ (127 : Half).toInt.toNat + (63 : Half).toInt.toNat / 8 * tallA.w) := by
  decide

theorem witness_GetpixReplies : (tallA.w : Int) ≤ (128 : Half).toInt ∧ (-32768 : Half).toInt < 0 ∧
    (0 ≤ (127 : Half).toInt ∧ (127 : Half).toInt < tallA.w ∧ 0 ≤ (0 : Half).toInt ∧ (0 : Half).toInt < tallA.h) := by
  decide

theorem witness_PixelRoundTrip : inside tallA (127 : Half).toInt (63 : Half).toInt = true ∧
    inside tallA (128 : Half).toInt (63 : Half).toInt = false ∧ ((3 : Half), (21 : Half)) ≠ (3, 20) ∧
    exec (.getpix 3 20) (start tallA [(259, 0x10)]) =
      .next { start tallA [(259, 0x10)] with replies := (start tallA [(259, 0x10)]).replies ++ [[1]] } :=
  ⟨by decide, by decide, by decide, rfl⟩

theorem witness_ClsClears : (clean tallA).cfg.clsFlush = .policy ∧ (clean (tinyFlush .always)).cfg.clsFlush = .always ∧
    (clean (tinyFlush .never)).cfg.clsFlush = .never ∧ (1023 : Nat) < tallA.w * tallA.p ∧ tallA.w * tallA.p ≤ 1024 := by
  decide

theorem witness_PointDrawsOnePixel : (∃ t, exec (.setpix 127 63 1) (clean tallA) = .next t) ∧
    inside tallA (127 : Half).toInt (63 : Half).toInt = true := ⟨⟨_, rfl⟩, by decide⟩

theorem witness_FlushEventCounts : (State.resetOf vShort 0).cfg = vShort ∧ (State.resetOf vTallA 0).cfg = vTallA ∧
    (State.resetOf vTallB 0).cfg = vTallB := ⟨rfl, rfl, rfl⟩

theorem witness_FlushPageFraming : 3 < (clean tiny).cfg.p ∧ 7 < (clean tallA).cfg.p := by decide

/-- The second event of a transfer, and its last, the `CSHIGH`. -/
theorem witness_FlushDataIgnoresTopview : (1 : Nat) % (3 + tallA.w) ≠ 0 ∧ tallA.p * (3 + tallA.w) ≤ (1048 : Nat) := by decide

theorem witness_SyncByPolicy : (clean tallA).autoUpdate = false ∧
    { clean tallA with autoUpdate := true }.autoUpdate = true := ⟨rfl, rfl⟩

theorem witness_UpdmodeWritesTheFlag : 2 ≤ (2 : Byte).toNat ∧ 2 ≤ (255 : Byte).toNat := by decide

theorem witness_InitState : (1023 : Nat) < (clean tallA).cfg.w * (clean tallA).cfg.p ∧
    (clean tallA).cfg.w * (clean tallA).cfg.p ≤ 1024 := by decide

/-- Each of the four cases of the `CLS` step. -/
theorem witness_InitTrace : (clean (tinyFlush .never)).cfg.clsFlush = .never ∧
    ((clean tallA).cfg.clsFlush = .policy ∧ (clean tallA).autoUpdate = false) ∧
    (clean (tinyFlush .always)).cfg.clsFlush = .always ∧
    ({ clean tallA with autoUpdate := true }.cfg.clsFlush = .policy ∧ { clean tallA with autoUpdate := true }.autoUpdate = true) :=
  ⟨rfl, ⟨rfl, rfl⟩, rfl, rfl, rfl⟩

theorem witness_FirstInitOnShortVariant : (527 : Nat) < 528 := by decide

theorem witness_ContrastTwoArgumentForm : (63 : Byte).toNat < 64 ∧ 64 ≤ (64 : Byte).toNat ∧ 64 ≤ (255 : Byte).toNat := by decide

theorem witness_ReservedEncodingsIgnored : assignedOpcode 0x00 = false ∧ assignedOpcode 0x0B = false ∧
    assignedOpcode 0x31 = false ∧ 8 ≤ (8 : Byte).toNat ∧ 2 ≤ (2 : Byte).toNat ∧ (6 : Byte) ≠ 7 ∧ (8 : Byte) ≠ 7 ∧
    { start tallA [] with hostPort := [0x31, 0x01] }.seqCmds = [] ∧
    { start tallA [] with hostPort := [0x31, 0x01] }.hostPort = 0x31 :: [0x01] ∧
    { start tallA [] with hostPort := [0x06, 8] }.hostPort = 0x06 :: (8 : Byte) :: [] ∧
    { start tallA [] with hostPort := [0x05, 2] }.hostPort = 0x05 :: (2 : Byte) :: [] ∧
    { start tallA [] with hostPort := [0x07, 6, 1] }.hostPort = 0x07 :: (6 : Byte) :: (1 : Byte) :: [] := by decide

theorem witness_LinePath : (linePoints .nonstrict 0 0 2 1)[0]? = some (0, 0) ∧
    (linePoints .nonstrict 0 0 2 1)[0 + 1]? = some (1, 1) := by decide

theorem witness_LineTieAgreesOnStraightLines : ((3 : Int) = 3) ∧ ((2 - 5 : Int).natAbs = (9 - 6 : Int).natAbs) := by decide

theorem witness_StraightLinePixels : inside tallA 2 6 = true ∧ min (6 : Half).toInt (9 : Half).toInt ≤ 9 ∧
    (9 : Int) ≤ max (6 : Half).toInt (9 : Half).toInt := by decide

/-- Radius 0, and the largest radius an operand can hold. -/
theorem witness_ArcShape : (0 : Int) ≤ 0 ∧ (0 : Int) ≤ 32767 ∧ (32767 : Half).toInt = 32767 ∧
    (arcOffsets 3)[0]? = some (3, 0) ∧ (arcOffsets 3)[0 + 1]? = some (3, 1) := by decide

/-- Corners (0, 3) and (10, 14): the radius is exactly half of the shorter side. -/
theorem witness_RoundRectPixels : (0 : Half).toInt ≤ (10 : Half).toInt ∧ (3 : Half).toInt ≤ (14 : Half).toInt ∧
    0 ≤ (5 : Half).toInt ∧ 2 * (5 : Half).toInt ≤ (10 : Half).toInt - (0 : Half).toInt ∧
    2 * (5 : Half).toInt ≤ (14 : Half).toInt - (3 : Half).toInt := by decide

/-- Corners (-3, 0) and (3, 6): the radius is exactly half of both sides. -/
theorem witness_FillRoundRectPixels : (-3 : Half).toInt ≤ (3 : Half).toInt ∧ (0 : Half).toInt ≤ (6 : Half).toInt ∧
    0 ≤ (3 : Half).toInt ∧ 2 * (3 : Half).toInt ≤ (3 : Half).toInt - (-3 : Half).toInt ∧
    2 * (3 : Half).toInt ≤ (6 : Half).toInt - (0 : Half).toInt := by decide

theorem witness_ZeroRadiusRectangles : (2 : Half).toInt ≤ (9 : Half).toInt ∧ (3 : Half).toInt ≤ (3 : Half).toInt := by decide

theorem witness_CirclePixels : 0 ≤ (0 : Half).toInt ∧ 0 ≤ (32767 : Half).toInt := by decide

/-- A circle of radius 1 that touches both edges of the display; then one that is clipped, with two reflected pixels on it. -/
theorem witness_CircleSymmetry : (1 ≤ (1 : Half).toInt ∧ (1 : Byte) ≠ 0 ∧ ∀ px py, (clean tallA).getPixel px py = false) ∧
    ((1 : Half).toInt ≤ (126 : Half).toInt ∧ (126 : Half).toInt + (1 : Half).toInt < (clean tallA).cfg.w ∧
      (1 : Half).toInt ≤ (62 : Half).toInt ∧ (62 : Half).toInt + (1 : Half).toInt < (clean tallA).cfg.h) ∧
    inside (clean tallA).cfg ((0 : Half).toInt + 1) ((1 : Half).toInt + 1) = true ∧
    inside (clean tallA).cfg ((0 : Half).toInt + 1) ((1 : Half).toInt + -1) = true :=
  ⟨⟨by decide, by decide, clean_unlit tallA⟩, ⟨by decide, by decide, by decide, by decide⟩,
    by decide, by decide⟩

theorem witness_FillCirclePixels : 0 ≤ (0 : Half).toInt ∧
    (∃ t, exec (.circle 5 5 1 1) (clean tiny) = .next t) ∧ (∃ t, exec (.fillcircle 5 5 1 1) (clean tiny) = .next t) :=
  ⟨by decide, ⟨_, rfl⟩, ⟨_, rfl⟩⟩

/-- CV6; then each way out of the precondition, CV13 among them. -/
theorem witness_CurvesRefusedOutside : (-1 : Half).toInt < 0 ∧ (8 : Half).toInt < (9 : Half).toInt ∧
    (9 : Half).toInt - (0 : Half).toInt < 2 * (5 : Half).toInt := by decide

theorem witness_WrcharNewline : assetByte? (start tallA []).cfg (start tallA []).font 2 = some 8 := by decide

/-- The two sides of the drawable range. -/
theorem witness_WrcharIgnored : ((31 : Byte) ≠ tallA.newline ∧ (31 : Byte).toNat < 32) ∧
    ((128 : Byte) ≠ tallA.newline ∧ 127 < (128 : Byte).toNat) := by decide

/-- The box glyph of `TF`: it ends at the right edge (T3), and it wraps (T4). -/
theorem witness_WrcharGlyph : (0x21 : Byte) ≠ tallA.newline ∧ 32 ≤ (0x21 : Byte).toNat ∧ (0x21 : Byte).toNat ≤ 127 ∧
    GlyphReadable (start tallA []) 0x21 4 3 8 1 ∧
    (125 : Byte).toNat + (3 : Byte).toNat ≤ tallA.w ∧ tallA.w < (126 : Byte).toNat + (3 : Byte).toNat :=
  ⟨by decide, by decide, by decide,
    ⟨by decide, by decide, by decide, by decide, by decide⟩,
    by decide, by decide⟩

/-- The largest cursor the bound allows. -/
theorem witness_CursorStaysBounded : (∃ t, exec (.wrchar 0x0A) { start tallA [] with charX := 128, charY := 63 } = .next t) ∧
    (128 : Byte).toNat ≤ tallA.w ∧ (63 : Byte).toNat < tallA.h ∧
    (∀ bpg gw : Byte, assetByte? tallA 0 0 = some bpg → assetByte? tallA 0 ((0x21 - 32) * bpg.toNat + 4) = some gw →
      gw.toNat ≤ tallA.w) := by
  refine ⟨⟨_, rfl⟩, by decide, by decide, fun bpg gw h _ => ?_⟩
  have := gw.isLt
  have h0 : assetByte? tallA 0 0 = some 4 := by decide
  obtain rfl : bpg = 4 := Option.some.inj (h.symm.trans h0)
  have h1 : assetByte? tallA 0 ((0x21 - 32) * (4 : Byte).toNat + 4) = some 3 := by decide
  obtain rfl : gw = 3 := Option.some.inj ((‹_› : assetByte? tallA 0 _ = some gw).symm.trans h1)
  decide

/-- V_TALL_A with assets cut short: font 10 before the height, 11 before the strip size, 12 inside a glyph, 13 before the first
glyph; bitmap 20 before the height, 21 before the stride, 22 before the data. -/
def cut : Config where
  toConfigRecord := { variantRecord 128 8 0x16 4 with assets :=
    [(10, [4, 3]), (11, [4, 3, 8]), (12, [1, 3, 8, 1, 3, 0]), (13, [4, 3, 8, 1]), (20, [5]), (21, [5, 2]), (22, [5, 2, 1])] }
  wellFormed := by decide

/-- `cut` with font `h`. -/
def withFont (h : Half) : State := { start cut [] with font := h }

/-- Each missing byte, as it is refused: `WRCHAR` 0x20 without `F[0]` (T23), without the height or the strip size,
without its width byte, without a strip byte; the newline; `TEXTWIDTH` without `F[0]` and without a width byte; `BITMAP` without each header byte and without data. -/
theorem witness_MissingAssetBytesRefused : (0x20 : Byte) ≠ cut.newline ∧
    exec (.wrchar 0x20) (withFont 7) = .refused (.assetRead 7 0) ∧
    exec (.wrchar 0x20) (withFont 10) = .refused (.assetRead 10 4) ∧
    exec (.wrchar 0x20) (withFont 11) = .refused (.assetRead 11 4) ∧
    exec (.wrchar 0x20) (withFont 13) = .refused (.assetRead 13 4) ∧
    exec (.wrchar 0x20) (withFont 12) = .refused (.assetRead 12 6) ∧
    exec (.wrchar 0x0A) (withFont 10) = .refused (.assetRead 10 2) ∧
    exec (.textwidth [0x0A, 0x20]) (withFont 7) = .refused (.assetRead 7 0) ∧
    exec (.textwidth [0x0A, 0x20]) (withFont 13) = .refused (.assetRead 13 4) ∧
    exec (.bitmap 7 0 0) (start cut []) = .refused (.assetRead 7 0) ∧
    exec (.bitmap 20 0 0) (start cut []) = .refused (.assetRead 20 1) ∧
    exec (.bitmap 21 0 0) (start cut []) = .refused (.assetRead 21 2) ∧
    exec (.bitmap 22 0 0) (start cut []) = .refused (.assetRead 22 3) := by
  refine ⟨by decide, rfl, rfl, rfl, rfl, rfl, rfl, rfl, rfl, rfl, rfl, rfl, rfl⟩

/-- T17: only 0x21 counts. -/
theorem witness_TextwidthSum : ([0x0A, 0x21, 0x1F, 0x80] : List Byte).length ≤ 255 ∧
    (∀ v ∈ ([0x0A, 0x21, 0x1F, 0x80] : List Byte), (v.toNat < 32 ∨ 127 < v.toNat) → (if v = 0x21 then 3 else 0) = 0) ∧
    assetByte? tallA 0 0 = some 4 ∧ assetByte? tallA 0 (((0x21 : Byte).toNat - 32) * (4 : Byte).toNat + 4) = some 3 := by
  decide

/-- The 5 x 2 bitmap of the vectors, at the right edge and left of the display (B2, B3). -/
theorem witness_BitmapPixels : assetByte? tallA 2 0 = some 5 ∧ assetByte? tallA 2 1 = some 2 ∧ assetByte? tallA 2 2 = some 1 ∧
    (∀ v < (2 : Byte).toNat, ∀ u < (5 : Byte).toNat, (assetByte? tallA 2 (3 + v * (1 : Byte).toNat + u / 8)).isSome = true) ∧
    inside tallA ((126 : Half).toInt + 1) ((0 : Half).toInt + 1) = true ∧
    inside tallA ((-2 : Half).toInt + 2) ((-1 : Half).toInt + 1) = true := by decide

theorem witness_AutoUpdateGating : drawingCall (clean tiny) (.wrchar 0x20) = true ∧
    (∃ t, exec (.wrchar 0x20) (clean tiny) = .next t) ∧ (∃ t, exec (.rect 0 0 1 1 1) (clean tiny) = .next t) ∧
    drawingCall (clean tiny) (.wrchar 0x0A) = false ∧ drawingCall (clean tiny) (.wrchar 0x1F) = false ∧
    (∃ t, exec (.wrchar 0x0A) (clean tiny) = .next t) :=
  ⟨by decide, ⟨_, rfl⟩, ⟨_, rfl⟩, by decide, by decide, ⟨_, rfl⟩⟩

theorem witness_OthersNeverTransfer : (∃ t, exec (.textwidth [0x21]) (clean tallA) = .next t) ∧
    (∃ t, exec (.dispmodevContrast 63) (clean tallA) = .next t) ∧ (∃ t, exec .dmSleep (clean tallA) = .next t) ∧
    drawingCall (clean tallA) (.wrchar 0x80) = false := ⟨⟨_, rfl⟩, ⟨_, rfl⟩, ⟨_, rfl⟩, by decide⟩

/-- Each part of the state is changed by one of its writers. -/
theorem witness_WriterTable :
    (∃ t, exec .dmTopview (clean tiny) = .next t ∧ t.topview ≠ (clean tiny).topview) ∧
    (∃ t, exec .init (clean tiny) = .next t ∧ t.autoUpdate ≠ (clean tiny).autoUpdate) ∧
    (∃ t, exec (.locate 1 0) (clean tiny) = .next t ∧ t.charX ≠ (clean tiny).charX) ∧
    (∃ t, exec (.font 1) (clean tiny) = .next t ∧ t.font ≠ (clean tiny).font) ∧
    (∃ t, exec (.setpix 0 0 1) (clean tiny) = .next t ∧ t.fb ≠ (clean tiny).fb) ∧
    (∃ t, exec (.getpix 0 0) (clean tiny) = .next t ∧ t.replies ≠ (clean tiny).replies) :=
  ⟨⟨_, rfl, by decide⟩, ⟨_, rfl, by decide⟩, ⟨_, rfl, by decide⟩, ⟨_, rfl, by decide⟩,
    ⟨_, rfl, by decide⟩, ⟨_, rfl, by decide⟩⟩

theorem witness_ObservationsOnlyGrow : ∃ t, step { clean tiny with hostPort := [0x02] } = .next t := ⟨_, rfl⟩

theorem witness_CoreNeverRefuses : mayRefuse .init = false ∧ mayRefuse (.fillrect 0 0 9 9 1) = false ∧
    mayRefuse (.cBias 0) = false := by decide

/-- One refusal of each kind. -/
theorem witness_RefusalsAreTheSpecs : exec (.bitmap 9 0 0) (clean tiny) = .refused (.assetRead 9 0) ∧
    exec (.fillcircle 0 0 (-1) 1) (clean tiny) = .refused .negativeRadius ∧
    exec (.fillrrect 0 0 9 9 5 1) (clean tiny) = .refused .roundRectPrecondition := ⟨rfl, rfl, rfl⟩

/-- `INIT` with its default list; a step with a byte no row has. -/
theorem witness_EmittedCommandsAreTabled : (∃ t, exec .init (clean tiny) = .next t) ∧
    tiny.initSeq = initSeqOf tiny.serCmd tiny.biasCmd tiny.contrastDefault ∧
    ∃ t, step { clean tiny with seqCmds := [0xE2] } = .next t := ⟨⟨_, rfl⟩, rfl, _, rfl⟩

theorem witness_StreamStaysSettled : StandardCommands tiny ∧ Settled (clean tiny) ∧ Instr.dmContrast.serial = false ∧
    ∃ t, exec .dmContrast (clean tiny) = .next t := ⟨⟨rfl, rfl, rfl⟩, ⟨rfl, rfl⟩, rfl, _, rfl⟩

/-- A state in which `INIT` has run. -/
def initialised (c : Config) : State :=
  match exec .init (clean c) with
  | .next t => t
  | _ => clean c

/-- Before and after the first `INIT`; the two sides of the contrast bound; an operation of the last row. -/
theorem witness_SessionTransitions : StandardCommands tallA ∧ Settled (clean tallA) ∧
    (clean tallA).panel.pulsed = false ∧ Settled (initialised tallA) ∧ (initialised tallA).panel.pulsed = true ∧ (63 : Byte).toNat < 64 ∧
    64 ≤ (64 : Byte).toNat ∧ Instr.cls.serial = false ∧ (∃ t, exec .cls (clean tallA) = .next t) ∧ Instr.cls ≠ .init ∧
    ∀ v, Instr.cls ≠ .dispmodevContrast v :=
  ⟨⟨rfl, rfl, rfl⟩, ⟨rfl, rfl⟩, rfl, ⟨rfl, rfl⟩, rfl, by decide, by decide, rfl, ⟨_, rfl⟩, by decide,
    fun _ => Instr.noConfusion⟩

/-- The state after a first `INIT`: it meets the invariant, and its orientation is consistent. -/
theorem witness_OrientationKept : StandardCommands tiny ∧ Settled (initialised tiny) ∧ StateInv (initialised tiny) ∧
    Oriented (initialised tiny) ∧ (initialised tiny).panel.pulsed = true ∧
    (∃ t, exec .dmTopview (initialised tiny) = .next t) ∧ (∃ t, exec .init (initialised tiny) = .next t) :=
  ⟨⟨rfl, rfl, rfl⟩, ⟨rfl, rfl⟩,
    ⟨by decide, by decide, rfl, rfl, fun h => absurd (by decide : Event.rstPulse ∈ (initialised tiny).trace) h, by decide⟩,
    .inl ⟨rfl, rfl, rfl⟩, rfl, ⟨_, rfl⟩, ⟨_, rfl⟩⟩

/-- V_SHORT fills the data RAM exactly: `0 + 132 = 132`; the last column of V_TALL_A in top view; a transfer that changes the
data RAM. -/
theorem witness_FlushShowsFramebuffer : StandardCommands vShort ∧ Settled (initialised vShort) ∧
    (initialised vShort).panel.pulsed = true ∧ (initialised vShort).columnStart + (initialised vShort).cfg.w = 132 ∧
    { clean tallA with topview := true }.columnStart + tallA.w = 132 ∧ 3 < vShort.p ∧ 131 < vShort.w ∧
    ∃ t, exec .flush (initialised tiny) = .next t ∧ t.panel.ddram ≠ (initialised tiny).panel.ddram :=
  ⟨⟨rfl, rfl, rfl⟩, ⟨rfl, rfl⟩, rfl, by decide, by decide, by decide, by decide, _, rfl, by decide⟩

end Sys2Proof.Tests
end

section
/-! SUPPORT. What a completed instruction and a step can have done, said once: the serial rows as their encoding, the effect
of each family of instructions, the frame that every effect stays in, and the inversion of `step`. -/

namespace Sys2Proof.Machine

/-! ## The effect of an instruction -/

/-- A serial row sends the byte that encodes it (`30_encoding.md` R89, R90). -/
theorem exec_serial {i : Instr} (h : i.serial = true) (s : State) :
    exec i s = .next (s.sendCmds (encode s.cfg.serCmd s.cfg.biasCmd i)) := by
  cases i <;> simp [Instr.serial] at h <;> rfl

/-- What a completed instruction has done, by families: `Effect s i t` allows instruction `i` to go from `s` to `t`. The writers
of each register can be read off the constructors (`10_state.md` R33); `exec_effect` ties it to the model. -/
inductive Effect (s : State) : Instr → State → Prop where
  /-- Command bytes and nothing else; none for the instructions that are ignored. -/
  | sends {i : Instr} (bs : List Byte) : Effect s i (s.sendCmds bs)
  | init : Effect s .init
      (((((s.emit [.busCfg, .rstPulse]).sendCmds s.cfg.initSeq).clear.setAutoUpdate true).setCursor 0 0).setFont
        s.cfg.defaultFont)
  | flush : Effect s .flush s.flush
  | sync : Effect s .sync s.sync
  | cls : Effect s .cls s.clear
  | updmode (m : Byte) : Effect s (.updmode m) (s.setAutoUpdate (updateFlag m s.autoUpdate))
  | orient {i : Instr} (hi : i = .dmTopview ∨ i = .dmBottom) (v : Bool) (bs : List Byte) :
      Effect s i ((s.setTopview v).sendCmds bs).flush
  | setpix (x y : Half) (c : Byte) : Effect s (.setpix x y c) (s.draw [⟨signed x, signed y, lit c⟩])
  | draws {i : Instr} (hi : writesFb i = true) (dots : List Dot) : Effect s i (s.drawSync dots)
  | replies {i : Instr} (hi : (∃ x y, i = .getpix x y) ∨ ∃ str, i = .textwidth str) (r : Reply) : Effect s i (s.reply r)
  | locate (x y : Byte) : Effect s (.locate x y) (s.setCursor x y)
  | font (h : Half) : Effect s (.font h) (s.setFont h)
  | newline (v x y : Byte) : Effect s (.wrchar v) (s.setCursor x y)
  | glyph (v : Byte) (dots : List Dot) (x y : Byte) : Effect s (.wrchar v) ((s.draw dots).setCursor x y).sync

/-- An instruction without any effect. -/
theorem Effect.ignored (s : State) (i : Instr) : Effect s i s := by
  simpa [State.sendCmds] using Effect.sends (s := s) (i := i) []

theorem effect_of_wrchar {s t : State} {v : Byte} (h : exec (.wrchar v) s = .next t) : Effect s (.wrchar v) t := by
  simp only [exec, execWrchar] at h
  split at h
  · split at h <;> cases h
    next hn =>
      obtain ⟨gh, -, rfl⟩ := newline_ok_iff.mp hn
      exact .newline _ _ _
  · split at h
    · split at h <;> cases h
      next u hg =>
        obtain ⟨dots, hu⟩ := putGlyph_rest hg
        rw [hu]
        exact .glyph _ dots _ _
    · cases h
      exact .ignored _ _

theorem effect_of_textwidth {s t : State} {str : List Byte} (h : exec (.textwidth str) s = .next t) :
    Effect s (.textwidth str) t := by
  simp only [exec, execTextwidth] at h
  split at h <;> cases h
  exact .replies (.inr ⟨str, rfl⟩) _

theorem effect_of_bitmap {s t : State} {a x y : Half} (h : exec (.bitmap a x y) s = .next t) :
    Effect s (.bitmap a x y) t := by
  simp only [exec, execBitmap] at h
  split at h <;> cases h
  exact .draws rfl _

/-- A shape with a precondition has met it where it completes, and is then a drawing call. -/
theorem effect_of_guarded_draw {s t : State} {i : Instr} {p : Prop} [Decidable p] {dots : List Dot} {r : Refusal}
    (hi : writesFb i = true)
    (h : (if p then .next (s.drawSync dots) else .refused r : Host.Outcome State Fault Refusal) = .next t) :
    Effect s i t := by
  split at h <;> cases h
  exact .draws hi dots

/-- Every instruction that completes has an effect of its family. -/
theorem exec_effect {i : Instr} {s t : State} (h : exec i s = .next t) : Effect s i t := by
  by_cases hs : i.serial = true
  · rw [exec_serial hs] at h
    cases h
    exact .sends _
  cases i with
  | init => cases h; exact .init
  | flush => cases h; exact .flush
  | sync => cases h; exact .sync
  | cls => cases h; exact .cls
  | updmode m => cases h; exact .updmode m
  | dmOn | dmOff | dmSleep | dmInvert | dmDefault | dmContrast => cases h; exact .sends _
  | dmTopview => cases h; exact .orient (.inl rfl) _ _
  | dmBottom => cases h; exact .orient (.inr rfl) _ _
  | dispmodeReserved _ | dispmodevOther _ _ | reservedHostOpcode _ => cases h; exact .ignored _ _
  | dispmodevContrast v =>
    cases h
    split_ifs
    · exact .ignored _ _
    · exact .sends _
  | setpix x y c => cases h; exact .setpix x y c
  | point x y c => cases h; exact .draws rfl [⟨signed x, signed y, lit c⟩]
  | getpix x y => cases h; exact .replies (.inl ⟨x, y, rfl⟩) _
  | line _ _ _ _ _ | rect _ _ _ _ _ | fillrect _ _ _ _ _ => cases h; exact .draws rfl _
  | roundrect _ _ _ _ _ _ | fillrrect _ _ _ _ _ _ => exact effect_of_guarded_draw rfl h
  | circle _ _ _ _ | fillcircle _ _ _ _ =>
    exact effect_of_guarded_draw rfl ((ite_not _ _ _).trans h)
  | locate x y => cases h; exact .locate x y
  | font a => cases h; exact .font a
  | wrchar v => exact effect_of_wrchar h
  | textwidth str => exact effect_of_textwidth h
  | bitmap a x y => exact effect_of_bitmap h
  | _ => exact absurd rfl hs

/-! ## The writers of each part of the state (`10_state.md` R33) -/

section
variable {s t : State} {i : Instr}

/-- Every effect stays in the frame of the block. -/
theorem Effect.framed (h : Effect s i t) : Framed s t := by
  cases h with
  | sends bs => exact framed_sendCmds s bs
  | init =>
    exact ((((framed_emit s _).trans (framed_sendCmds _ _)).trans (framed_clear _)).trans
      (framed_setAutoUpdate _ _)).trans ((framed_setCursor _ _ _).trans (framed_setFont _ _))
  | flush => exact framed_flush s
  | sync => exact framed_sync s
  | cls => exact framed_clear s
  | updmode m => exact framed_setAutoUpdate s _
  | orient _ v bs => exact ((framed_setTopview s v).trans (framed_sendCmds _ bs)).trans (framed_flush _)
  | setpix x y c => exact framed_draw s _
  | draws _ dots => exact framed_drawSync s dots
  | replies _ r => exact framed_reply s r
  | locate x y => exact framed_setCursor s x y
  | font a => exact framed_setFont s a
  | newline v x y => exact framed_setCursor s x y
  | glyph v dots x y => exact ((framed_draw s dots).trans (framed_setCursor _ x y)).trans (framed_sync _)

/-- Every instruction that completes stays in the frame of the block. -/
theorem exec_framed (h : exec i s = .next t) : Framed s t := (exec_effect h).framed

theorem Effect.topview_writer (h : Effect s i t) : t.topview = s.topview ∨ i = .dmTopview ∨ i = .dmBottom := by
  cases h with
  | orient hi => exact .inr hi
  | _ => left; simp [drawSync_eq]

theorem Effect.autoUpdate_writer (h : Effect s i t) : t.autoUpdate = s.autoUpdate ∨ i = .init ∨ ∃ m, i = .updmode m := by
  cases h with
  | init => exact .inr (.inl rfl)
  | updmode m => exact .inr (.inr ⟨m, rfl⟩)
  | _ => left; simp [drawSync_eq]

theorem Effect.cursor_writer (h : Effect s i t) : (t.charX = s.charX ∧ t.charY = s.charY) ∨
    i = .init ∨ (∃ x y, i = .locate x y) ∨ ∃ v, i = .wrchar v := by
  cases h with
  | init => exact .inr (.inl rfl)
  | locate x y => exact .inr (.inr (.inl ⟨x, y, rfl⟩))
  | newline v => exact .inr (.inr (.inr ⟨v, rfl⟩))
  | glyph v => exact .inr (.inr (.inr ⟨v, rfl⟩))
  | _ => left; simp [drawSync_eq]

theorem Effect.font_writer (h : Effect s i t) : t.font = s.font ∨ i = .init ∨ ∃ a, i = .font a := by
  cases h with
  | init => exact .inr (.inl rfl)
  | font a => exact .inr (.inr ⟨a, rfl⟩)
  | _ => left; simp [drawSync_eq]

theorem Effect.fb_writer (h : Effect s i t) : t.fb = s.fb ∨ writesFb i = true := by
  cases h with
  | init => exact .inr rfl
  | cls => exact .inr rfl
  | setpix => exact .inr rfl
  | draws hi => exact .inr hi
  | glyph => exact .inr rfl
  | _ => left; simp

theorem Effect.replies_writer (h : Effect s i t) :
    t.replies = s.replies ∨ (∃ x y, i = .getpix x y) ∨ ∃ str, i = .textwidth str := by
  cases h with
  | replies hi => exact .inr hi
  | _ => left; simp [drawSync_eq]

end

/-! ## A step -/

/-- What a step that answers a next state has done: it idled, dropped a cut packet, took a serial byte that no row has, or ran an
instruction with its bytes taken. -/
theorem step_next_cases {s t : State} (h : step s = .next t) :
    t = s ∨ t = s.takeHost [] ∨ (∃ rest, t = s.takeSeq rest) ∨
    (∃ i rest, exec i (s.takeHost rest) = .next t) ∨ ∃ i rest, exec i (s.takeSeq rest) = .next t := by
  simp only [step] at h
  split at h
  · split at h
    · exact .inr (.inr (.inr (.inr ⟨_, _, h⟩)))
    · cases h
      exact .inr (.inr (.inl ⟨_, rfl⟩))
  · split at h
    · exact .inr (.inr (.inr (.inl ⟨_, _, h⟩)))
    · cases h
      exact .inl rfl
    · cases h
      exact .inr (.inl rfl)

/-- The observations of `t` continue those of `s` (`10_state.md` R31). -/
structure Grows (s t : State) : Prop where
  trace : s.trace <+: t.trace
  replies : s.replies <+: t.replies

theorem Grows.refl (s : State) : Grows s s := ⟨List.prefix_refl _, List.prefix_refl _⟩

theorem Framed.grows {s t : State} (h : Framed s t) : Grows s t := by
  obtain ⟨es, he⟩ := h.emits
  exact ⟨he.trace ▸ List.prefix_append _ _, h.replies⟩

theorem step_grows {s t : State} (h : step s = .next t) : Grows s t := by
  rcases step_next_cases h with rfl | rfl | ⟨rest, rfl⟩ | ⟨i, rest, hx⟩ | ⟨i, rest, hx⟩
  · exact Grows.refl _
  · exact ⟨List.prefix_refl _, List.prefix_refl _⟩
  · exact ⟨List.prefix_refl _, List.prefix_refl _⟩
  · obtain ⟨ht, hr⟩ := (exec_framed hx).grows
    exact ⟨ht, hr⟩
  · obtain ⟨ht, hr⟩ := (exec_framed hx).grows
    exact ⟨ht, hr⟩

/-- The state after reset agrees with itself: the framebuffer is unwritten, the trace empty, the controller unknown. -/
theorem resetOf_meets_inv (c : Config) (draw : Nat) : StateInv (State.resetOf c draw) where
  fbCanonical := rfl
  fbBounded := by simp [State.resetOf]
  linesIdle := rfl
  panelOfTrace := rfl
  unknownUntilPulse := fun _ => rfl
  ramCanonical := rfl

end Sys2Proof.Machine
end

section
/-! SUPPORT. The refusals of the text and bitmap operations: each names a byte its asset does not have (`10_state.md` R32,
`60_exceptions.md` R264). -/

namespace Sys2Proof.Machine

/-- The refusal `e` names a byte that asset `h` does not have. -/
def MissingByte (c : Config) (h : Half) (e : Refusal) : Prop := ∃ k, assetByte? c h k = none ∧ e = .assetRead h k

theorem fontByte_missing {s : State} {i : Nat} (h : assetByte? s.cfg s.font i = none) :
    s.fontByte i = .error (.assetRead s.font i) := fontByte_error_iff.mpr ⟨h, rfl⟩

theorem missingByte_of_fontByte {s : State} {i : Nat} {e : Refusal} (h : s.fontByte i = .error e) :
    MissingByte s.cfg s.font e := ⟨i, fontByte_error_iff.mp h⟩

theorem missingByte_of_assetByte {c : Config} {h : Half} {i : Nat} {e : Refusal} (he : assetByte c h i = .error e) :
    MissingByte c h e := ⟨i, assetByte_error_iff.mp he⟩

/-! ## `WRCHAR` -/

theorem missingByte_of_wrapFor {s : State} {gw : Byte} {e : Refusal} (h : s.wrapFor gw = .error e) :
    MissingByte s.cfg s.font e := by
  unfold State.wrapFor at h
  split at h
  · split at h <;> cases h
    next h2 => exact missingByte_of_fontByte h2
  · cases h

theorem missingByte_of_glyphDot {s : State} {idx : Nat} {bps : Byte} {cell : Nat × Nat} {e : Refusal}
    (h : s.glyphDot idx bps cell = .error e) : MissingByte s.cfg s.font e := by
  unfold State.glyphDot at h
  split at h <;> cases h
  next hb => exact missingByte_of_fontByte hb

theorem missingByte_of_blitGlyph {s : State} {idx : Nat} {gw : Byte} {e : Refusal}
    (h : s.blitGlyph idx gw = .error e) : MissingByte s.cfg s.font e := by
  unfold State.blitGlyph at h
  split at h
  next h2 => cases h; exact missingByte_of_fontByte h2
  split at h
  next h3 => cases h; exact missingByte_of_fontByte h3
  split at h <;> cases h
  next hg =>
    obtain ⟨cell, -, hd⟩ := gather_error hg
    exact missingByte_of_glyphDot hd

/-- The width wrap leaves the configuration and the font. -/
theorem wrapFor_same_font {s t : State} {gw : Byte} (h : s.wrapFor gw = .ok t) : t.cfg = s.cfg ∧ t.font = s.font := by
  rcases wrapFor_ok_iff.mp h with ⟨-, rfl⟩ | ⟨-, gh, -, rfl⟩ <;> exact ⟨rfl, rfl⟩

theorem missingByte_of_putGlyph {s : State} {v : Byte} {e : Refusal} (h : s.putGlyph v = .error e) :
    MissingByte s.cfg s.font e := by
  unfold State.putGlyph at h
  split at h
  next h0 => cases h; exact missingByte_of_fontByte h0
  split at h
  next hw => cases h; exact missingByte_of_fontByte hw
  split at h
  next hr => cases h; exact missingByte_of_wrapFor hr
  next u hu =>
    obtain ⟨hc, hf⟩ := wrapFor_same_font hu
    rw [← hc, ← hf]
    exact missingByte_of_blitGlyph h

theorem putGlyph_no_header {s : State} (v : Byte) (h : assetByte? s.cfg s.font 0 = none) :
    s.putGlyph v = .error (.assetRead s.font 0) := by
  simp only [State.putGlyph, fontByte_missing h]

theorem putGlyph_no_width {s : State} {v bpg : Byte} (h0 : assetByte? s.cfg s.font 0 = some bpg)
    (h : assetByte? s.cfg s.font (glyphIndex v bpg) = none) :
    s.putGlyph v = .error (.assetRead s.font (glyphIndex v bpg)) := by
  simp only [State.putGlyph, fontByte_ok_iff.mpr h0, fontByte_missing h]

/-- A printed glyph has had every byte of its record read. -/
theorem glyphReadable_of_putGlyph {s t : State} {v : Byte} (h : s.putGlyph v = .ok t) :
    ∃ bpg gw gh bps, GlyphReadable s v bpg gw gh bps := by
  obtain ⟨bpg, gw, u, h0, hw, hu, hb⟩ := putGlyph_ok_iff.mp h
  obtain ⟨gh, bps, dots, h2, h3, hg, -⟩ := blitGlyph_ok_iff.mp hb
  obtain ⟨hc, hf⟩ := wrapFor_same_font hu
  rw [hc, hf] at h2 h3
  refine ⟨bpg, gw, gh, bps, h0, h2, h3, hw, fun row hr column hcol => ?_⟩
  have hread : ∃ d, u.glyphDot (glyphIndex v bpg) bps (row, column) = .ok d := by
    have hm : (row, column) ∈ glyphCells gh gw := (mem_glyphCells gh gw _).mpr ⟨hr, hcol⟩
    cases hd : u.glyphDot (glyphIndex v bpg) bps (row, column) with
    | ok d => exact ⟨d, rfl⟩
    | error e =>
      obtain ⟨e', he⟩ := gather_error_of_mem hm hd
      rw [hg] at he
      cases he
  obtain ⟨d, hd⟩ := hread
  unfold State.glyphDot at hd
  split at hd <;> cases hd
  next b hbyte =>
    rw [fontByte_ok_iff, hc, hf] at hbyte
    exact Option.isSome_of_eq_some hbyte

theorem drawable_iff (v : Byte) : drawable v = true ↔ 32 ≤ v.toNat ∧ v.toNat ≤ 127 := by simp [drawable]

theorem exec_wrchar_error {s : State} {v : Byte} {e : Refusal} (hn : v ≠ s.cfg.newline) (hd : drawable v = true)
    (h : s.putGlyph v = .error e) : exec (.wrchar v) s = .refused e := by
  simp only [exec, execWrchar, if_neg hn, if_pos hd, h]

theorem exec_newline_missing {s : State} (h : assetByte? s.cfg s.font 2 = none) :
    exec (.wrchar s.cfg.newline) s = .refused (.assetRead s.font 2) := by
  simp only [exec, execWrchar, if_true, State.newline, fontByte_missing h]

/-- A glyph whose record cannot be read whole is refused, naming a missing byte. -/
theorem exec_wrchar_unreadable {s : State} {v : Byte} (hn : v ≠ s.cfg.newline) (hd : drawable v = true)
    (h : ∀ bpg gw gh bps, ¬ GlyphReadable s v bpg gw gh bps) :
    ∃ k, assetByte? s.cfg s.font k = none ∧ exec (.wrchar v) s = .refused (.assetRead s.font k) := by
  cases hp : s.putGlyph v with
  | ok t =>
    obtain ⟨bpg, gw, gh, bps, hr⟩ := glyphReadable_of_putGlyph hp
    exact absurd hr (h bpg gw gh bps)
  | error e =>
    obtain ⟨k, hk, rfl⟩ := missingByte_of_putGlyph hp
    exact ⟨k, hk, exec_wrchar_error hn hd hp⟩

/-- The bytes of a readable glyph are those read, so a strip byte that is missing makes it unreadable. -/
theorem not_glyphReadable_of_missing_strip {s : State} {v bpg gw gh bps : Byte} {row column : Nat}
    (h0 : assetByte? s.cfg s.font 0 = some bpg) (hw : assetByte? s.cfg s.font (glyphIndex v bpg) = some gw)
    (h2 : assetByte? s.cfg s.font 2 = some gh) (h3 : assetByte? s.cfg s.font 3 = some bps)
    (hrow : row < gh.toNat) (hcol : column < gw.toNat)
    (hb : assetByte? s.cfg s.font (glyphIndex v bpg + 1 + (column * bps.toNat + row / 8)) = none)
    (bpg' gw' gh' bps' : Byte) : ¬ GlyphReadable s v bpg' gw' gh' bps' := by
  intro hr
  obtain rfl : bpg = bpg' := Option.some.inj (h0.symm.trans hr.hBpg)
  obtain rfl : gw = gw' := Option.some.inj (hw.symm.trans hr.hGw)
  obtain rfl : gh = gh' := Option.some.inj (h2.symm.trans hr.hGh)
  obtain rfl : bps = bps' := Option.some.inj (h3.symm.trans hr.hBps)
  have hstrip := hr.hStrips row hrow column hcol
  rw [← glyphIndex, hb] at hstrip
  cases hstrip

/-! ## `TEXTWIDTH` -/

theorem charWidth_no_header {s : State} {v : Byte} {e : Refusal} (h0 : assetByte? s.cfg s.font 0 = none)
    (h : s.charWidth v = .error e) : e = .assetRead s.font 0 := by
  simp only [State.charWidth, fontByte_missing h0] at h
  split at h <;> cases h
  rfl

theorem missingByte_of_charWidth {s : State} {v : Byte} {e : Refusal} (h : s.charWidth v = .error e) :
    MissingByte s.cfg s.font e := by
  unfold State.charWidth at h
  split at h
  · split at h
    next h0 => cases h; exact missingByte_of_fontByte h0
    split at h <;> cases h
    next hw => exact missingByte_of_fontByte hw
  · cases h

/-- The width of a drawable character whose header or width byte is missing cannot be read. -/
theorem charWidth_error {s : State} {v : Byte} (hd : drawable v = true)
    (h : ∀ bpg, assetByte? s.cfg s.font 0 = some bpg → assetByte? s.cfg s.font (glyphIndex v bpg) = none) :
    ∃ e, s.charWidth v = .error e := by
  simp only [State.charWidth, if_pos hd]
  cases h0 : s.fontByte 0 with
  | error e => exact ⟨e, rfl⟩
  | ok bpg =>
    refine ⟨.assetRead s.font (glyphIndex v bpg), ?_⟩
    simp only [fontByte_missing (h bpg (fontByte_ok_iff.mp h0))]

/-- A string with a character whose width cannot be read is refused, for the reason of one of its characters. -/
theorem exec_textwidth_error {s : State} {str : List Byte} {v : Byte} (hm : v ∈ str) (h : ∃ e, s.charWidth v = .error e) :
    ∃ a ∈ str, ∃ e, s.charWidth a = .error e ∧ exec (.textwidth str) s = .refused e := by
  obtain ⟨e, he⟩ := h
  obtain ⟨e', hg⟩ := gather_error_of_mem hm he
  obtain ⟨a, ha, hae⟩ := gather_error hg
  exact ⟨a, ha, e', hae, by simp only [exec, execTextwidth, hg]⟩

/-! ## `BITMAP` -/

theorem exec_bitmap_error {s : State} {h x y : Half} {e : Refusal}
    (he : bitmapDots s.cfg h (signed x) (signed y) = .error e) : exec (.bitmap h x y) s = .refused e := by
  simp only [exec, execBitmap, he]

theorem missingByte_of_bitmapDot {c : Config} {h : Half} {bs : Byte} {x y : Int} {cell : Nat × Nat} {e : Refusal}
    (he : bitmapDot c h bs x y cell = .error e) : MissingByte c h e := by
  unfold bitmapDot at he
  split at he <;> cases he
  next hb => exact missingByte_of_assetByte hb

theorem bitmapDot_missing {c : Config} {h : Half} {bs : Byte} (x y : Int) {cell : Nat × Nat}
    (hb : assetByte? c h (3 + cell.1 * bs.toNat + cell.2 / 8) = none) :
    bitmapDot c h bs x y cell = .error (.assetRead h (3 + cell.1 * bs.toNat + cell.2 / 8)) := by
  simp only [bitmapDot, assetByte_error_iff.mpr ⟨hb, rfl⟩]

section
variable {c : Config} {h : Half} {bw bh bs : Byte} (x y : Int)

theorem bitmapDots_no_width (h0 : assetByte? c h 0 = none) : bitmapDots c h x y = .error (.assetRead h 0) := by
  simp only [bitmapDots, assetByte_error_iff.mpr ⟨h0, rfl⟩]

theorem bitmapDots_no_height (h0 : assetByte? c h 0 = some bw) (h1 : assetByte? c h 1 = none) :
    bitmapDots c h x y = .error (.assetRead h 1) := by
  simp only [bitmapDots, assetByte_ok_iff.mpr h0, assetByte_error_iff.mpr ⟨h1, rfl⟩]

theorem bitmapDots_no_stride (h0 : assetByte? c h 0 = some bw) (h1 : assetByte? c h 1 = some bh)
    (h2 : assetByte? c h 2 = none) : bitmapDots c h x y = .error (.assetRead h 2) := by
  simp only [bitmapDots, assetByte_ok_iff.mpr h0, assetByte_ok_iff.mpr h1, assetByte_error_iff.mpr ⟨h2, rfl⟩]

theorem bitmapDots_header (h0 : assetByte? c h 0 = some bw) (h1 : assetByte? c h 1 = some bh)
    (h2 : assetByte? c h 2 = some bs) :
    bitmapDots c h x y = gather (bitmapDot c h bs x y) (bitmapCells c bw bh x y) := by
  simp only [bitmapDots, assetByte_ok_iff.mpr h0, assetByte_ok_iff.mpr h1, assetByte_ok_iff.mpr h2]

end

/-- A bitmap with a visited pixel whose byte is missing is refused, naming a missing byte. -/
theorem exec_bitmap_missing_pixel {s : State} {h x y : Half} {bw bh bs : Byte} {v u : Nat}
    (h0 : assetByte? s.cfg h 0 = some bw) (h1 : assetByte? s.cfg h 1 = some bh) (h2 : assetByte? s.cfg h 2 = some bs)
    (hc : (v, u) ∈ bitmapCells s.cfg bw bh (signed x) (signed y))
    (hb : assetByte? s.cfg h (3 + v * bs.toNat + u / 8) = none) :
    ∃ k, assetByte? s.cfg h k = none ∧ exec (.bitmap h x y) s = .refused (.assetRead h k) := by
  obtain ⟨e, hg⟩ := gather_error_of_mem hc (bitmapDot_missing (signed x) (signed y) hb)
  obtain ⟨cell, -, hd⟩ := gather_error hg
  obtain ⟨k, hk, rfl⟩ := missingByte_of_bitmapDot hd
  exact ⟨k, hk, exec_bitmap_error ((bitmapDots_header _ _ h0 h1 h2).trans hg)⟩

end Sys2Proof.Machine
end

section
/-! SUPPORT. The statements on the state as a whole, settled: reset, the step, who writes what, what only grows, and the reads
outside an asset. -/

namespace Sys2Proof.Machine

/-- Settles O1: each value is the one `State.resetOf` is built with, and an unwritten byte reads as the draw's. -/
theorem resetValues : Obligations.ResetValues := by
  intro c draw
  exact ⟨rfl, rfl, rfl, rfl, rfl, rfl, rfl, rfl, rfl, rfl, rfl, rfl, rfl, fun _ => rfl⟩

/-- Settles O2. -/
theorem resetMeetsInv : Obligations.ResetMeetsInv := ⟨resetOf_meets_inv, resetOf_meets_inv vShort 0⟩

/-- Settles O4: each clause is one branch of `step`. -/
theorem stepRunsTheDecodedInstruction : Obligations.StepRunsTheDecodedInstruction := by
  intro s
  refine ⟨?_, ?_, ?_, ?_, ?_⟩
  · intro i rest hq hd
    simp only [step, hq, hd, State.takeHost]
  · intro b rest i hq hd
    simp only [step, hq, hd, State.takeSeq]
  · intro hq hp
    simp only [step, hq, hp, decodeHost]
  · intro op hq hd
    simp only [step, hq, hd, State.takeHost]
  · intro b rest hq hd
    simp only [step, hq, hd, State.takeSeq]

/-- Settles O52: the writers of each part are read off the effect of the instruction. -/
theorem writerTable : Obligations.WriterTable := by
  intro i s t hx
  have h := exec_effect hx
  refine ⟨h.framed.env, h.topview_writer.resolve_left, h.autoUpdate_writer.resolve_left, fun hne => ?_,
    h.font_writer.resolve_left, h.fb_writer.resolve_left, h.replies_writer.resolve_left⟩
  exact h.cursor_writer.resolve_left fun ⟨hX, hY⟩ => hne.elim (· hX) (· hY)

/-- Settles O53: a step fetches, which leaves the observations, then runs an instruction in its frame. -/
theorem observationsOnlyGrow : Obligations.ObservationsOnlyGrow := by
  intro s t h
  obtain ⟨htrace, hreplies⟩ := step_grows h
  exact ⟨htrace, hreplies⟩

/-- Settles O47: the first bytes read are named exactly; past them an operation that completes has read every byte of the
record, so one with a byte missing is refused, and a refusal names a missing byte. -/
theorem missingAssetBytesRefused : Obligations.MissingAssetBytesRefused := by
  intro s
  refine ⟨fun v hn hlo hhi => ?_, exec_newline_missing, fun str v hm hlo hhi => ?_, fun h x y => ?_⟩
  · have hd : drawable v = true := (drawable_iff v).mpr ⟨hlo, hhi⟩
    refine ⟨fun h0 => exec_wrchar_error hn hd (putGlyph_no_header v h0), fun h23 => ?_, fun bpg h0 => ⟨fun hw => ?_, ?_⟩⟩
    · refine exec_wrchar_unreadable hn hd fun bpg gw gh bps hr => ?_
      simp [hr.hGh, hr.hBps] at h23
    · exact exec_wrchar_error hn hd (putGlyph_no_width h0 hw)
    · rintro gw gh bps hw h2 h3 ⟨row, hrow, column, hcol, hb⟩
      exact exec_wrchar_unreadable hn hd (not_glyphReadable_of_missing_strip h0 hw h2 h3 hrow hcol hb)
  · have hd : drawable v = true := (drawable_iff v).mpr ⟨hlo, hhi⟩
    refine ⟨fun h0 => ?_, fun bpg h0 hw => ?_⟩
    · obtain ⟨a, -, e, ha, hx⟩ := exec_textwidth_error (s := s) hm (charWidth_error hd fun b hb => by simp [h0] at hb)
      rwa [charWidth_no_header h0 ha] at hx
    · have hmiss : ∀ b, assetByte? s.cfg s.font 0 = some b → assetByte? s.cfg s.font (glyphIndex v b) = none := by
        intro b hb
        obtain rfl : bpg = b := Option.some.inj (h0.symm.trans hb)
        exact hw
      obtain ⟨a, -, e, ha, hx⟩ := exec_textwidth_error hm (charWidth_error hd hmiss)
      obtain ⟨k, hk, rfl⟩ := missingByte_of_charWidth ha
      exact ⟨k, hk, hx⟩
  · refine ⟨fun h0 => exec_bitmap_error (bitmapDots_no_width _ _ h0), fun bw h0 =>
      ⟨fun h1 => exec_bitmap_error (bitmapDots_no_height _ _ h0 h1), fun bh h1 =>
      ⟨fun h2 => exec_bitmap_error (bitmapDots_no_stride _ _ h0 h1 h2), fun bs h2 => ?_⟩⟩⟩
    rintro ⟨v, hv, u, hu, hyv, hxu, hb⟩
    exact exec_bitmap_missing_pixel h0 h1 h2 ((mem_bitmapCells _ _ _ _ _ _).mpr ⟨⟨hv, hyv⟩, hu, hxu⟩) hb

end Sys2Proof.Machine
end

section
/-! SUPPORT. The memory of the block and of the far side, settled: the invariant along a step, the addressing of a pixel, and the
data RAM under a page transfer (`20_memory.md` R52, R53, R61, R66). -/

namespace Sys2Proof.Machine

/-! ## The invariant along a step -/

/-- The clauses on the controller's knowledge and on the form of its data RAM follow from the far side being what the trace makes
of it. -/
theorem StateInv.of_panelOfTrace {s : State} (hf : FbForm s) (hl : s.lines = SerialLines.idle)
    (hp : s.panel = s.trace.foldl (Panel.observe s.cfg) Panel.unknown) : StateInv s where
  fbCanonical := hf.canonical
  fbBounded := hf.bounded
  linesIdle := hl
  panelOfTrace := hp
  unknownUntilPulse := fun hn => by
    obtain ⟨a, ha⟩ := foldl_observe_unknown s.cfg none hn
    rw [hp]
    exact ha ▸ rfl
  ramCanonical := hp ▸ wf_foldl_observe s.cfg s.trace rfl

theorem StateInv.fbForm {s : State} (h : StateInv s) : FbForm s := ⟨h.fbCanonical, h.fbBounded⟩

/-- The frame of the block keeps the invariant: the far side takes the events the trace grows by. -/
theorem Framed.keeps_inv {s t : State} (h : Framed s t) (hs : StateInv s) : StateInv t := by
  obtain ⟨es, htrace, hlines, hpanel⟩ := h.emits
  refine .of_panelOfTrace (h.form hs.fbForm) ?_ ?_
  · rw [hlines, hs.linesIdle, foldl_after_idle]
  · rw [hpanel, htrace, List.foldl_append, h.env.cfg, ← hs.panelOfTrace]

/-- The invariant does not read the input ports. -/
theorem StateInv.takeHost {s : State} (h : StateInv s) (rest : List Byte) : StateInv (s.takeHost rest) :=
  .of_panelOfTrace ⟨h.fbCanonical, h.fbBounded⟩ h.linesIdle h.panelOfTrace

theorem StateInv.takeSeq {s : State} (h : StateInv s) (rest : List Byte) : StateInv (s.takeSeq rest) :=
  .of_panelOfTrace ⟨h.fbCanonical, h.fbBounded⟩ h.linesIdle h.panelOfTrace

/-- Settles O3: a step fetches, which the invariant does not see, then runs an instruction in its frame. -/
theorem stepKeepsInv : Obligations.StepKeepsInv := by
  intro s t hs h
  rcases step_next_cases h with rfl | rfl | ⟨rest, rfl⟩ | ⟨i, rest, hx⟩ | ⟨i, rest, hx⟩
  · exact hs
  · exact hs.takeHost []
  · exact hs.takeSeq rest
  · exact (exec_framed hx).keeps_inv (hs.takeHost rest)
  · exact (exec_framed hx).keeps_inv (hs.takeSeq rest)

/-! ## The address of a pixel -/

/-- A framebuffer of at most 255 columns and 8 pages (R10) has at most 2040 bytes. -/
theorem fbSize_le (c : Config) : fbSize c ≤ 2040 := by
  obtain ⟨-, hw, -, hp, -, -⟩ := c.wellFormed
  have hp8 : c.p ≤ 8 := by omega
  exact Nat.mul_le_mul hw hp8

/-- The last pixel is on the display, and its byte is the last of the framebuffer. -/
theorem last_pixel (c : Config) : inside c ((c.w : Int) - 1) ((c.h : Int) - 1) = true ∧
    pixelAddr c ((c.w : Int) - 1) ((c.h : Int) - 1) = c.w * c.p - 1 := by
  obtain ⟨hw, -, hh, hp, -, -⟩ := c.wellFormed
  refine ⟨(inside_iff c _ _).mpr (by omega), ?_⟩
  have hx : ((c.w : Int) - 1).toNat = c.w - 1 := by omega
  have hy : ((c.h : Int) - 1).toNat / 8 = c.p - 1 := by omega
  obtain ⟨n, hn⟩ : ∃ n, c.p = n + 1 := ⟨c.p - 1, by omega⟩
  rw [pixelAddr, hx, hy, hn, Nat.add_sub_cancel, Nat.mul_succ, Nat.mul_comm n]
  omega

/-- Bit `b` of byte `a` of the framebuffer is the pixel of column `a mod W` and row `8 * (a / W) + b`. -/
theorem exists_pixel (c : Config) {a b : Nat} (ha : a < c.w * c.p) (hb : b < 8) :
    ∃ x y, inside c x y = true ∧ pixelAddr c x y = a ∧ pixelBit y = b := by
  obtain ⟨hw, -, hh, -, -, -⟩ := c.wellFormed
  have hx : a % c.w < c.w := Nat.mod_lt _ hw
  have hpage : a / c.w < c.p := Nat.div_lt_of_lt_mul ha
  have hdiv : (8 * (a / c.w) + b) / 8 = a / c.w := by omega
  refine ⟨(a % c.w : Nat), (8 * (a / c.w) + b : Nat), (inside_iff c _ _).mpr (by omega), ?_, ?_⟩
  · rw [pixelAddr, Int.toNat_natCast, Int.toNat_natCast, hdiv]
    exact Nat.mod_add_div' a c.w
  · rw [pixelBit, Int.toNat_natCast]
    omega

/-- Settles O9: `pixelAddr_lt` and `fbSize_le` bound the address, `pixel_unique` and `exists_pixel` say that the bits of `FB` and
the pixels correspond. -/
theorem pixelAddressing : Obligations.PixelAddressing := by
  intro c
  refine ⟨fun x y => ⟨rfl, rfl⟩, fun x y hi => ?_, last_pixel c, fun x y x' y' => pixel_unique,
    fun a b => exists_pixel c⟩
  have hlt := pixelAddr_lt hi
  have hsize := fbSize_le c
  exact ⟨hlt, by omega, by omega, pixelBit_lt y⟩

/-! ## The data RAM changes by page transfers only -/

/-- What changes the data RAM on the way from `s` to `t` ends in a page transfer of `t`'s framebuffer (R61). -/
def RamByTransfer (s t : State) : Prop :=
  t.panel.ddram ≠ s.panel.ddram → ∃ es, t.trace = s.trace ++ es ++ t.flushEvents

/-- Events without a data byte before a transfer are no transfer of their own. -/
theorem RamByTransfer.after {s t u : State} {es : List Event} (he : Emits s t es) (hn : ∀ b, Event.dat b ∉ es)
    (h : RamByTransfer t u) : RamByTransfer s u := by
  intro hne
  have hram : t.panel.ddram = s.panel.ddram := by rw [he.panel, foldl_observe_ddram s.cfg s.panel hn]
  obtain ⟨fs, hfs⟩ := h (hram ▸ hne)
  exact ⟨es ++ fs, by simp only [hfs, he.trace, List.append_assoc]⟩

theorem RamByTransfer.after_samePort {s t u : State} (hp : SamePort s t) (h : RamByTransfer t u) : RamByTransfer s u :=
  h.after hp.emits (by simp)

theorem RamByTransfer.refl (s : State) : RamByTransfer s s := fun h => absurd rfl h

theorem ramByTransfer_of_samePort {s t : State} (hp : SamePort s t) : RamByTransfer s t :=
  .after_samePort hp (.refl t)

theorem ramByTransfer_emit (s : State) {es : List Event} (hn : ∀ b, Event.dat b ∉ es) : RamByTransfer s (s.emit es) :=
  .after (emits_emit s es) hn (.refl _)

theorem dat_not_mem_cmds (bs : List Byte) (b : Byte) : Event.dat b ∉ bs.map Event.cmd := by simp

theorem ramByTransfer_flush (s : State) : RamByTransfer s s.flush :=
  fun _ => ⟨[], by rw [List.append_nil]; rfl⟩

theorem ramByTransfer_sync (s : State) : RamByTransfer s s.sync := by
  cases h : s.autoUpdate
  · rw [sync_off s h]; exact .refl s
  · rw [sync_on s h]; exact ramByTransfer_flush s

theorem ramByTransfer_clear (s : State) : RamByTransfer s s.clear := by
  have hz : SamePort s s.zeroFb := ⟨rfl, rfl, rfl⟩
  simp only [State.clear]
  split
  · exact .after_samePort hz (ramByTransfer_sync _)
  · exact .after_samePort hz (ramByTransfer_flush _)
  · exact ramByTransfer_of_samePort hz

theorem samePort_draw (s : State) (dots : List Dot) : SamePort s (s.draw dots) := ⟨by simp, by simp, by simp⟩

/-- An instruction that changes the data RAM ends its events with a page transfer, whatever its family. -/
theorem Effect.ramByTransfer {s t : State} {i : Instr} (h : Effect s i t) : RamByTransfer s t := by
  cases h with
  | sends bs => exact ramByTransfer_emit s (dat_not_mem_cmds bs)
  | init =>
    have hc : RamByTransfer s ((s.emit [.busCfg, .rstPulse]).sendCmds s.cfg.initSeq).clear :=
      .after (emits_emit s _) (by simp) (.after (emits_emit _ _) (dat_not_mem_cmds _) (ramByTransfer_clear _))
    exact hc
  | flush => exact ramByTransfer_flush s
  | sync => exact ramByTransfer_sync s
  | cls => exact ramByTransfer_clear s
  | orient _ v bs =>
    have hv : SamePort s (s.setTopview v) := ⟨rfl, rfl, rfl⟩
    exact .after_samePort hv (.after (emits_emit _ _) (dat_not_mem_cmds bs) (ramByTransfer_flush _))
  | setpix x y c => exact ramByTransfer_of_samePort (samePort_draw s _)
  | draws _ dots => exact .after_samePort (samePort_draw s dots) (ramByTransfer_sync _)
  | glyph v dots x y =>
    have hd : SamePort s ((s.draw dots).setCursor x y) := ⟨by simp, by simp, by simp⟩
    exact .after_samePort hd (ramByTransfer_sync _)
  | updmode | replies | locate | font | newline => exact ramByTransfer_of_samePort ⟨rfl, rfl, rfl⟩

/-! ## A page transfer on the far side -/

/-- The controller takes commands and knows what they say: a reset pulse has occurred, and the stream is between commands. -/
structure Panel.Listening (p : Panel) : Prop where
  pulsed : p.pulsed = true
  arg : p.arg = none
  initLeft : p.initLeft = none

/-- The address is known to be column `ca` of page `pg`. -/
structure Panel.At (p : Panel) (pg ca : Nat) : Prop where
  page : p.page = some (BitVec.ofNat 4 pg)
  colHi : p.colHi = some (BitVec.ofNat 4 (ca / 16))
  colLo : p.colLo = some (BitVec.ofNat 4 (ca % 16))

theorem Panel.Listening.data {p : Panel} (h : p.Listening) (b : Byte) : (p.data b).Listening :=
  ⟨h.pulsed, h.arg, h.initLeft⟩

/-- A column of the data RAM is the number its two halves make. -/
theorem column_toNat {ca : Nat} (h : ca < panelColumns) :
    (BitVec.ofNat 4 (ca / 16)).toNat * 16 + (BitVec.ofNat 4 (ca % 16)).toNat = ca := by
  rw [panelColumns] at h
  rw [BitVec.toNat_ofNat, BitVec.toNat_ofNat]
  omega

theorem page_toNat {pg : Nat} (h : pg < 16) : (BitVec.ofNat 4 pg).toNat = pg := by
  rw [BitVec.toNat_ofNat]
  omega

/-- A data byte moves the address on by one column. -/
theorem Panel.At.data {p : Panel} {pg ca : Nat} (h : p.At pg ca) (hca : ca < panelColumns) (b : Byte) :
    (p.data b).At pg (ca + 1) := by
  obtain ⟨hhi, hlo⟩ := data_column h.colHi h.colLo b
  rw [column_toNat hca, if_pos hca] at hhi hlo
  exact ⟨h.page, hhi, hlo⟩

/-- A data byte is written to the cell addressed, and to no other. -/
theorem Panel.At.read_data {p : Panel} {pg ca : Nat} (h : p.At pg ca) (hpg : pg < 16) (hca : ca < panelColumns) (b : Byte)
    (a : Nat) : Memory.read (p.data b).ddram a =
      if a = pg * panelColumns + ca then some b else Memory.read p.ddram a := by
  rw [read_data_known h.colHi h.colLo h.page (by rwa [column_toNat hca]), column_toNat hca, page_toNat hpg]

/-- What the data bytes `f 0`, ..., `f (n - 1)`, sent from column `ca` of page `pg` on, make of `p`. -/
structure Filled (p q : Panel) (pg ca n : Nat) (f : Nat → Byte) : Prop where
  listening : q.Listening
  address : q.At pg (ca + n)
  written : ∀ k < n, q.cell pg (ca + k) = some (f k)
  kept : ∀ pg' ≠ pg, ∀ col < panelColumns, q.cell pg' col = p.cell pg' col

/-- Data bytes up to the last column fill the cells from the address on, one after the other. -/
theorem foldl_data_filled (c : Config) {p : Panel} {pg ca : Nat} (hl : p.Listening) (h : p.At pg ca) (hpg : pg < 16)
    (f : Nat → Byte) (n : Nat) (hn : ca + n ≤ panelColumns) :
    Filled p (((List.range n).map fun k => Event.dat (f k)).foldl (Panel.observe c) p) pg ca n f := by
  induction n with
  | zero => exact ⟨hl, h, fun k hk => absurd hk (Nat.not_lt_zero k), fun _ _ _ _ => rfl⟩
  | succ n ih =>
    obtain ⟨hlq, haq, hw, hk⟩ := ih (by omega)
    have hcol : ca + n < panelColumns := by omega
    rw [List.range_succ, List.map_append, List.foldl_append]
    refine ⟨hlq.data _, haq.data hcol _, fun k hkn => ?_, fun pg' hne col hc => ?_⟩
    · refine (haq.read_data hpg hcol _ _).trans ?_
      rcases Nat.lt_succ_iff_lt_or_eq.mp hkn with hlt | rfl
      · rw [if_neg (by omega)]
        exact hw k hlt
      · rw [if_pos rfl]
    · refine (haq.read_data hpg hcol _ _).trans ?_
      rw [if_neg, ← hk pg' hne col hc]
      · rfl
      · simp only [panelColumns] at *
        omega

/-! ### The address commands -/

/-- With the default constants the three address bytes of a page are read as the rows they are sent as. -/
theorem decodeSerial_colLo : ∀ n : BitVec 4, decodeSerial SerCmd.standard biasStandard none
    (withOperand SerCmd.standard.colLo (n.setWidth 8)) = some (.cColLo n) := by decide

theorem decodeSerial_colHi : decodeSerial SerCmd.standard biasStandard none
    (withOperand SerCmd.standard.colHi 0) = some (.cColHi 0) := by decide

theorem decodeSerial_page : ∀ n : BitVec 4, decodeSerial SerCmd.standard biasStandard none
    (withOperand SerCmd.standard.page (n.setWidth 8)) = some (.cPage n) := by decide

/-- An operand below 16 is four bits in a byte. -/
theorem operand_setWidth {n : Nat} (h : n < 16) : BitVec.ofNat 8 n = (BitVec.ofNat 4 n).setWidth 8 := by
  apply BitVec.eq_of_toNat_eq
  simp only [BitVec.toNat_setWidth, BitVec.toNat_ofNat]
  omega

@[simp] theorem learn_arg (p : Panel) (i : Instr) : (p.learn i).arg = p.arg := by cases i <;> rfl

@[simp] theorem learn_initLeft (p : Panel) (i : Instr) : (p.learn i).initLeft = p.initLeft := by cases i <;> rfl

/-- A controller that listens learns the command. -/
theorem observe_cmd_listening {c : Config} (hc : StandardCommands c) {p : Panel} (h : p.Listening) {b : Byte} {i : Instr}
    (hd : decodeSerial SerCmd.standard biasStandard none b = some i) :
    Panel.observe c p (.cmd b) = Panel.learn { p with arg := awaitedArg i } i := by
  simp only [Panel.observe, initProgress_idle h.initLeft, h.arg, hc.serCmd, hc.biasCmd, hd, command_pulsed h.pulsed]

/-- It still listens after a command that awaits no argument. -/
theorem Panel.Listening.learn {p : Panel} (h : p.Listening) {i : Instr} (ha : awaitedArg i = none) :
    (Panel.learn { p with arg := awaitedArg i } i).Listening where
  pulsed := (learn_pulsed _ i).trans h.pulsed
  arg := (learn_arg _ i).trans ha
  initLeft := (learn_initLeft _ i).trans h.initLeft

/-- The three commands of a page set the address and leave the data RAM. -/
theorem foldl_address_commands {c : Config} (hc : StandardCommands c) {p : Panel} (h : p.Listening) {c0 pg : Nat}
    (hc0 : c0 < 16) (hpg : pg < 16) :
    ∃ q : Panel, [Event.cmd (withOperand c.serCmd.colLo (BitVec.ofNat 8 c0)), .cmd (withOperand c.serCmd.colHi 0),
      .cmd (withOperand c.serCmd.page (BitVec.ofNat 8 pg))].foldl (Panel.observe c) p = q ∧
      q.Listening ∧ q.At pg c0 ∧ q.ddram = p.ddram := by
  have hlo := h.learn (i := .cColLo (BitVec.ofNat 4 c0)) rfl
  have hhi := hlo.learn (i := .cColHi 0) rfl
  have hpage := hhi.learn (i := .cPage (BitVec.ofNat 4 pg)) rfl
  rw [hc.serCmd, operand_setWidth hc0, operand_setWidth hpg, List.foldl_cons, List.foldl_cons, List.foldl_cons,
    List.foldl_nil, observe_cmd_listening hc h (decodeSerial_colLo _), observe_cmd_listening hc hlo decodeSerial_colHi,
    observe_cmd_listening hc hhi (decodeSerial_page _)]
  refine ⟨_, rfl, hpage, ⟨rfl, ?_, ?_⟩, rfl⟩
  · rw [Nat.div_eq_of_lt hc0]
    rfl
  · rw [Nat.mod_eq_of_lt hc0]
    rfl

/-! ### The pages -/

theorem columnStart_lt (s : State) : s.columnStart < 16 := by
  obtain ⟨-, -, -, -, -, ht⟩ := s.cfg.wellFormed
  simp only [State.columnStart]
  split_ifs <;> omega

/-- The events of one page fill its cells from the column start on with the page's slice. -/
theorem foldl_pageEvents_filled {s : State} (hc : StandardCommands s.cfg) (hroom : s.columnStart + s.cfg.w ≤ panelColumns)
    {p : Panel} (h : p.Listening) {pg : Nat} (hpg : pg < 16) :
    Filled p ((s.pageEvents pg).foldl (Panel.observe s.cfg) p) pg s.columnStart s.cfg.w
      fun k => s.readByte (pg * s.cfg.w + k) := by
  obtain ⟨q, hq, hlq, haq, hram⟩ := foldl_address_commands hc h (columnStart_lt s) hpg
  rw [State.pageEvents, List.foldl_append, hq]
  obtain ⟨hl, ha, hw, hk⟩ := foldl_data_filled s.cfg hlq haq hpg (fun k => s.readByte (pg * s.cfg.w + k)) s.cfg.w hroom
  refine ⟨hl, ha, hw, fun pg' hne col hcol => ?_⟩
  rw [hk pg' hne col hcol, Panel.cell, hram, Panel.cell]

/-- The first `n` pages of a transfer are shown. -/
theorem foldl_pages_shown {s : State} (hc : StandardCommands s.cfg) (hroom : s.columnStart + s.cfg.w ≤ panelColumns)
    {p : Panel} (h : p.Listening) {n : Nat} (hn : n ≤ 16) :
    (((List.range n).flatMap s.pageEvents).foldl (Panel.observe s.cfg) p).Listening ∧
    ∀ pg < n, ∀ k < s.cfg.w, (((List.range n).flatMap s.pageEvents).foldl (Panel.observe s.cfg) p).cell pg
      (s.columnStart + k) = some (s.readByte (pg * s.cfg.w + k)) := by
  induction n with
  | zero => exact ⟨h, fun pg hpg => absurd hpg (Nat.not_lt_zero pg)⟩
  | succ n ih =>
    obtain ⟨hlq, hshown⟩ := ih (by omega)
    rw [List.range_succ, List.flatMap_append, List.flatMap_singleton, List.foldl_append]
    obtain ⟨hl, -, hw, hk⟩ := foldl_pageEvents_filled hc hroom hlq (show n < 16 by omega)
    refine ⟨hl, fun pg hpg k hkw => ?_⟩
    rcases Nat.lt_succ_iff_lt_or_eq.mp hpg with hlt | rfl
    · rw [hk pg (by omega) _ (by omega), hshown pg hlt k hkw]
    · exact hw k hkw

/-- After a page transfer the data RAM holds the framebuffer. -/
theorem flush_shows_fb {s : State} (hc : StandardCommands s.cfg) (hs : Settled s) (hp : s.panel.pulsed = true)
    (hroom : s.columnStart + s.cfg.w ≤ panelColumns) {pg k : Nat} (hpg : pg < s.cfg.p) (hk : k < s.cfg.w) :
    s.flush.panel.cell pg (s.columnStart + k) = some (s.readByte (pg * s.cfg.w + k)) := by
  obtain ⟨-, -, -, hP, -, -⟩ := s.cfg.wellFormed
  obtain ⟨-, hshown⟩ := foldl_pages_shown hc hroom (p := s.panel) ⟨hp, hs.arg, hs.initLeft⟩ (n := s.cfg.p) (by omega)
  have hend : s.flush.panel = ((List.range s.cfg.p).flatMap s.pageEvents).foldl (Panel.observe s.cfg) s.panel := by
    rw [flush_eq, emit_panel, State.flushEvents, List.foldl_append]
    rfl
  rw [hend]
  exact hshown pg hpg k hk

/-- Settles O60: the pages fill their cells one after the other; and no event outside a transfer is a data byte. -/
theorem flushShowsFramebuffer : Obligations.FlushShowsFramebuffer := by
  refine ⟨fun s hc hs hp hroom => ⟨s.flush, rfl, fun pg hpg k hk => flush_shows_fb hc hs hp hroom hpg hk⟩, ?_⟩
  intro i s t hx
  exact (exec_effect hx).ramByTransfer

end Sys2Proof.Machine
end

section
/-! SUPPORT. The host packets, settled: what a field reader makes of the bytes of a field, decode after encode, encode after
decode, and the reserved encodings (`30_encoding.md` R81 to R87). -/

namespace Sys2Proof

/-! ## Readers on the bytes of their fields -/

section
variable (op : Byte) (rest : List Byte)

theorem readU16_splitHalf (v : Half) (next : Half → List Byte → Decoded) :
    readU16 op (splitHalf v ++ rest) next = next v rest := by
  simp only [splitHalf, List.cons_append, List.nil_append, readU16, joinBytes_extract]

theorem readSpot_fields (x y : Half) (c : Byte) (mk : Half → Half → Byte → Instr) :
    readSpot op (splitHalf x ++ splitHalf y ++ [c] ++ rest) mk = .ok (mk x y c, rest) := by
  simp only [readSpot, List.append_assoc, readU16_splitHalf]
  rfl

theorem readBox_fields (x0 y0 x1 y1 : Half) (c : Byte) (mk : Half → Half → Half → Half → Byte → Instr) :
    readBox op (splitHalf x0 ++ splitHalf y0 ++ splitHalf x1 ++ splitHalf y1 ++ [c] ++ rest) mk =
      .ok (mk x0 y0 x1 y1 c, rest) := by
  simp only [readBox, List.append_assoc, readU16_splitHalf]
  rfl

theorem readRoundBox_fields (x0 y0 x1 y1 rnd : Half) (c : Byte)
    (mk : Half → Half → Half → Half → Half → Byte → Instr) :
    readRoundBox op (splitHalf x0 ++ splitHalf y0 ++ splitHalf x1 ++ splitHalf y1 ++ splitHalf rnd ++ [c] ++ rest) mk =
      .ok (mk x0 y0 x1 y1 rnd c, rest) := by
  simp only [readRoundBox, List.append_assoc, readU16_splitHalf]
  rfl

theorem readDisc_fields (x0 y0 r : Half) (c : Byte) (mk : Half → Half → Half → Byte → Instr) :
    readDisc op (splitHalf x0 ++ splitHalf y0 ++ splitHalf r ++ [c] ++ rest) mk = .ok (mk x0 y0 r c, rest) := by
  simp only [readDisc, List.append_assoc, readU16_splitHalf]
  rfl

end

/-! ## What a reader has read -/

section
variable {op : Byte} {bytes rest : List Byte} {i : Instr}

theorem readSpot_ok {mk : Half → Half → Byte → Instr} (h : readSpot op bytes mk = .ok (i, rest)) :
    ∃ x y c, i = mk x y c ∧ bytes = splitHalf x ++ splitHalf y ++ [c] ++ rest := by
  obtain ⟨x, _, rfl, hx⟩ := readU16_ok h
  obtain ⟨y, _, rfl, hy⟩ := readU16_ok hx
  obtain ⟨c, _, rfl, hc⟩ := readU8_ok hy
  cases hc
  exact ⟨x, y, c, rfl, by simp only [List.append_assoc, List.singleton_append]⟩

theorem readBox_ok {mk : Half → Half → Half → Half → Byte → Instr} (h : readBox op bytes mk = .ok (i, rest)) :
    ∃ x0 y0 x1 y1 c, i = mk x0 y0 x1 y1 c ∧
      bytes = splitHalf x0 ++ splitHalf y0 ++ splitHalf x1 ++ splitHalf y1 ++ [c] ++ rest := by
  obtain ⟨x0, _, rfl, hx0⟩ := readU16_ok h
  obtain ⟨y0, _, rfl, hy0⟩ := readU16_ok hx0
  obtain ⟨x1, _, rfl, hx1⟩ := readU16_ok hy0
  obtain ⟨y1, _, rfl, hy1⟩ := readU16_ok hx1
  obtain ⟨c, _, rfl, hc⟩ := readU8_ok hy1
  cases hc
  exact ⟨x0, y0, x1, y1, c, rfl, by simp only [List.append_assoc, List.singleton_append]⟩

theorem readRoundBox_ok {mk : Half → Half → Half → Half → Half → Byte → Instr}
    (h : readRoundBox op bytes mk = .ok (i, rest)) :
    ∃ x0 y0 x1 y1 rnd c, i = mk x0 y0 x1 y1 rnd c ∧
      bytes = splitHalf x0 ++ splitHalf y0 ++ splitHalf x1 ++ splitHalf y1 ++ splitHalf rnd ++ [c] ++ rest := by
  obtain ⟨x0, _, rfl, hx0⟩ := readU16_ok h
  obtain ⟨y0, _, rfl, hy0⟩ := readU16_ok hx0
  obtain ⟨x1, _, rfl, hx1⟩ := readU16_ok hy0
  obtain ⟨y1, _, rfl, hy1⟩ := readU16_ok hx1
  obtain ⟨rnd, _, rfl, hrnd⟩ := readU16_ok hy1
  obtain ⟨c, _, rfl, hc⟩ := readU8_ok hrnd
  cases hc
  exact ⟨x0, y0, x1, y1, rnd, c, rfl, by simp only [List.append_assoc, List.singleton_append]⟩

theorem readDisc_ok {mk : Half → Half → Half → Byte → Instr} (h : readDisc op bytes mk = .ok (i, rest)) :
    ∃ x0 y0 r c, i = mk x0 y0 r c ∧ bytes = splitHalf x0 ++ splitHalf y0 ++ splitHalf r ++ [c] ++ rest := by
  obtain ⟨x0, _, rfl, hx0⟩ := readU16_ok h
  obtain ⟨y0, _, rfl, hy0⟩ := readU16_ok hx0
  obtain ⟨r, _, rfl, hr⟩ := readU16_ok hy0
  obtain ⟨c, _, rfl, hc⟩ := readU8_ok hr
  cases hc
  exact ⟨x0, y0, r, c, rfl, by simp only [List.append_assoc, List.singleton_append]⟩

end

/-! ## Rows that depend on the value of a byte -/

theorem dispmodeRow_reserved {mode : Byte} (h : 8 ≤ mode.toNat) : dispmodeRow mode = .dispmodeReserved mode := by
  unfold dispmodeRow
  split
  case h_9 => rfl
  all_goals omega

/-- Every mode byte stands for a well-formed host row (R84, R86 (b)). -/
theorem dispmodeRow_host : ∀ mode : Byte,
    (dispmodeRow mode).serial = false ∧ (dispmodeRow mode).wellFormed = true := by decide

theorem encode_dispmodeRow (sc : SerCmd) (bias mode : Byte) : encode sc bias (dispmodeRow mode) = [0x06, mode] := by
  unfold dispmodeRow
  split
  case h_9 => rfl
  all_goals
    next hm => exact congrArg ([0x06, ·]) (BitVec.eq_of_toNat_eq hm.symm)

theorem decodeHost_dispmode (mode : Byte) (rest : List Byte) :
    decodeHost (0x06 :: mode :: rest) = .ok (dispmodeRow mode, rest) := rfl

theorem decodeHost_dispmodevOther {mode : Byte} (h : mode.toNat ≠ 7) (value : Byte) (rest : List Byte) :
    decodeHost (0x07 :: mode :: value :: rest) = .ok (.dispmodevOther mode value, rest) := by
  simp [decodeHost, readU8, h]

theorem byte_eq_of_toNat {b : Byte} {n : Nat} (h : b.toNat = n) : b = BitVec.ofNat 8 n := by
  rw [← h, BitVec.ofNat_toNat, BitVec.setWidth_eq]

/-- An unassigned opcode byte is a packet of its own (R86 (a)). -/
theorem decodeHost_unassigned {op : Byte} (h : assignedOpcode op = false) (rest : List Byte) :
    decodeHost (op :: rest) = .ok (.reservedHostOpcode op, rest) := by
  simp only [decodeHost]
  split
  case h_23 => rfl
  all_goals
    next hop =>
      rw [byte_eq_of_toNat hop] at h
      cases h

/-- The assigned opcode bytes, in the order of R82. -/
def assignedOpcodes : List Byte :=
  [0x01, 0x02, 0x03, 0x04, 0x05, 0x06, 0x07, 0x08, 0x09, 0x0A, 0x10, 0x11, 0x12, 0x13, 0x14, 0x15, 0x16,
   0x20, 0x21, 0x22, 0x23, 0x30]

theorem mem_assignedOpcodes : ∀ op : Byte, assignedOpcode op = true → op ∈ assignedOpcodes := by decide

theorem decodeHost_textwidth {str : List Byte} (h : str.length ≤ 255) (rest : List Byte) :
    decodeHost (0x23 :: BitVec.ofNat 8 str.length :: (str ++ rest)) = .ok (.textwidth str, rest) := by
  have hn : (BitVec.ofNat 8 str.length).toNat = str.length := by
    rw [BitVec.toNat_ofNat]
    omega
  simp [decodeHost, readU8, hn]

theorem decodeHost_getpix (bytes : List Byte) : decodeHost (0x09 :: bytes) =
    readU16 0x09 bytes fun x r1 => readU16 0x09 r1 fun y r2 => .ok (.getpix x y, r2) := rfl

theorem decodeHost_font (bytes : List Byte) : decodeHost (0x21 :: bytes) =
    readU16 0x21 bytes fun h r => .ok (.font h, r) := rfl

theorem decodeHost_bitmap (bytes : List Byte) : decodeHost (0x30 :: bytes) =
    readU16 0x30 bytes fun h r1 => readU16 0x30 r1 fun x r2 => readU16 0x30 r2 fun y r3 => .ok (.bitmap h x y, r3) := rfl

/-! ## The two directions -/

/-- Settles O5, row by row: the opcode selects the reader, which gives back the fields it is given. -/
theorem hostRoundTrip : Obligations.HostRoundTrip := by
  intro sc bias i rest hs hw
  cases i with
  | init | flush | sync | cls | updmode _ => rfl
  | dmOn | dmOff | dmSleep | dmInvert | dmDefault | dmTopview | dmBottom | dmContrast => rfl
  | dispmodevContrast _ | locate _ _ | wrchar _ => rfl
  | dispmodeReserved mode =>
    rw [← dispmodeRow_reserved (of_decide_eq_true hw), encode_dispmodeRow]
    exact decodeHost_dispmode mode rest
  | dispmodevOther mode value => exact decodeHost_dispmodevOther (of_decide_eq_true hw) value rest
  | setpix _ _ _ | point _ _ _ => exact readSpot_fields _ rest _ _ _ _
  | line _ _ _ _ _ | rect _ _ _ _ _ | fillrect _ _ _ _ _ => exact readBox_fields _ rest _ _ _ _ _ _
  | roundrect _ _ _ _ _ _ | fillrrect _ _ _ _ _ _ => exact readRoundBox_fields _ rest _ _ _ _ _ _ _
  | circle _ _ _ _ | fillcircle _ _ _ _ => exact readDisc_fields _ rest _ _ _ _ _
  | getpix _ _ => simp only [encode, List.cons_append, List.append_assoc, decodeHost_getpix, readU16_splitHalf]
  | font _ => simp only [encode, List.cons_append, decodeHost_font, readU16_splitHalf]
  | bitmap _ _ _ => simp only [encode, List.cons_append, List.append_assoc, decodeHost_bitmap, readU16_splitHalf]
  | textwidth str => exact decodeHost_textwidth (of_decide_eq_true hw) rest
  | reservedHostOpcode op => exact decodeHost_unassigned (by simpa [Instr.wellFormed] using hw) rest
  | _ => cases hs

/-- `bytes` is the packet of the host instruction `i`, followed by `rest`. -/
structure IsPacket (bytes : List Byte) (i : Instr) (rest : List Byte) : Prop where
  host : i.serial = false
  wellFormed : i.wellFormed = true
  encoded : ∀ (sc : SerCmd) (bias : Byte), encode sc bias i ++ rest = bytes

/-- The bytes of a string and what follows it, cut by the length byte (R87). -/
theorem isPacket_textwidth {n : Byte} {bytes : List Byte} (h : n.toNat ≤ bytes.length) :
    IsPacket (0x23 :: n :: bytes) (.textwidth (bytes.take n.toNat)) (bytes.drop n.toNat) where
  host := rfl
  wellFormed := decide_eq_true (by rw [List.length_take]; omega)
  encoded := fun _ _ => by
    simp only [encode, List.length_take, Nat.min_eq_left h, BitVec.ofNat_toNat, BitVec.setWidth_eq, List.cons_append,
      List.take_append_drop]

theorem isPacket_dispmode (mode : Byte) (rest : List Byte) : IsPacket (0x06 :: mode :: rest) (dispmodeRow mode) rest where
  host := (dispmodeRow_host mode).1
  wellFormed := (dispmodeRow_host mode).2
  encoded := fun sc bias => by rw [encode_dispmodeRow]; rfl

theorem isPacket_dispmodev (mode value : Byte) (rest : List Byte) : IsPacket (0x07 :: mode :: value :: rest)
    (if mode.toNat = 7 then .dispmodevContrast value else .dispmodevOther mode value) rest := by
  split
  next h7 =>
    obtain rfl : mode = 7 := BitVec.eq_of_toNat_eq h7
    exact ⟨rfl, rfl, fun _ _ => rfl⟩
  next h7 => exact ⟨rfl, decide_eq_true h7, fun _ _ => rfl⟩

/-- The rows with an assigned opcode, in the order of R82. -/
theorem isPacket_of_assigned {op : Byte} {bytes rest : List Byte} {i : Instr} (ho : op ∈ assignedOpcodes)
    (h : decodeHost (op :: bytes) = .ok (i, rest)) : IsPacket (op :: bytes) i rest := by
  simp only [assignedOpcodes, List.mem_cons, List.not_mem_nil, or_false] at ho
  obtain rfl | rfl | rfl | rfl | rfl | rfl | rfl | rfl | rfl | rfl | rfl | rfl | rfl | rfl | rfl | rfl | rfl |
    rfl | rfl | rfl | rfl | rfl := ho
  · cases h
    exact ⟨rfl, rfl, fun _ _ => rfl⟩
  · cases h
    exact ⟨rfl, rfl, fun _ _ => rfl⟩
  · cases h
    exact ⟨rfl, rfl, fun _ _ => rfl⟩
  · cases h
    exact ⟨rfl, rfl, fun _ _ => rfl⟩
  · obtain ⟨m, _, rfl, hm⟩ := readU8_ok h
    cases hm
    exact ⟨rfl, rfl, fun _ _ => rfl⟩
  · obtain ⟨mode, _, rfl, hm⟩ := readU8_ok h
    cases hm
    exact isPacket_dispmode mode rest
  · obtain ⟨mode, _, rfl, hm⟩ := readU8_ok h
    obtain ⟨value, _, rfl, hv⟩ := readU8_ok hm
    cases hv
    exact isPacket_dispmodev mode value rest
  · obtain ⟨x, y, c, rfl, rfl⟩ := readSpot_ok h
    exact ⟨rfl, rfl, fun _ _ => rfl⟩
  · rw [decodeHost_getpix] at h
    obtain ⟨x, _, rfl, hx⟩ := readU16_ok h
    obtain ⟨y, _, rfl, hy⟩ := readU16_ok hx
    cases hy
    exact ⟨rfl, rfl, fun _ _ => rfl⟩
  · obtain ⟨x, y, c, rfl, rfl⟩ := readSpot_ok h
    exact ⟨rfl, rfl, fun _ _ => rfl⟩
  · obtain ⟨x0, y0, x1, y1, c, rfl, rfl⟩ := readBox_ok h
    exact ⟨rfl, rfl, fun _ _ => rfl⟩
  · obtain ⟨x0, y0, x1, y1, c, rfl, rfl⟩ := readBox_ok h
    exact ⟨rfl, rfl, fun _ _ => rfl⟩
  · obtain ⟨x0, y0, x1, y1, c, rfl, rfl⟩ := readBox_ok h
    exact ⟨rfl, rfl, fun _ _ => rfl⟩
  · obtain ⟨x0, y0, x1, y1, rnd, c, rfl, rfl⟩ := readRoundBox_ok h
    exact ⟨rfl, rfl, fun _ _ => rfl⟩
  · obtain ⟨x0, y0, x1, y1, rnd, c, rfl, rfl⟩ := readRoundBox_ok h
    exact ⟨rfl, rfl, fun _ _ => rfl⟩
  · obtain ⟨x0, y0, r, c, rfl, rfl⟩ := readDisc_ok h
    exact ⟨rfl, rfl, fun _ _ => rfl⟩
  · obtain ⟨x0, y0, r, c, rfl, rfl⟩ := readDisc_ok h
    exact ⟨rfl, rfl, fun _ _ => rfl⟩
  · obtain ⟨x, _, rfl, hx⟩ := readU8_ok h
    obtain ⟨y, _, rfl, hy⟩ := readU8_ok hx
    cases hy
    exact ⟨rfl, rfl, fun _ _ => rfl⟩
  · rw [decodeHost_font] at h
    obtain ⟨a, _, rfl, ha⟩ := readU16_ok h
    cases ha
    exact ⟨rfl, rfl, fun _ _ => rfl⟩
  · obtain ⟨v, _, rfl, hv⟩ := readU8_ok h
    cases hv
    exact ⟨rfl, rfl, fun _ _ => rfl⟩
  · obtain ⟨n, bytes, rfl, hn⟩ := readU8_ok h
    split at hn <;> cases hn
    next hl => exact isPacket_textwidth hl
  · rw [decodeHost_bitmap] at h
    obtain ⟨a, _, rfl, ha⟩ := readU16_ok h
    obtain ⟨x, _, rfl, hx⟩ := readU16_ok ha
    obtain ⟨y, _, rfl, hy⟩ := readU16_ok hx
    cases hy
    exact ⟨rfl, rfl, fun _ _ => rfl⟩

/-- What the host decoder reads are packets: the opcode byte is the row's, and the reader has read the row's fields. -/
theorem decodeHost_isPacket {bytes rest : List Byte} {i : Instr} (h : decodeHost bytes = .ok (i, rest)) :
    IsPacket bytes i rest := by
  cases bytes with
  | nil => cases h
  | cons op bytes =>
    cases ha : assignedOpcode op with
    | false =>
      rw [decodeHost_unassigned ha] at h
      cases h
      exact ⟨rfl, by simp [Instr.wellFormed, ha], fun _ _ => rfl⟩
    | true => exact isPacket_of_assigned (mem_assignedOpcodes op ha) h

/-- Settles O6: what the decoder reads is a packet. -/
theorem hostDecodeInverse : Obligations.HostDecodeInverse := by
  intro bytes i rest h
  obtain ⟨hhost, hwf, henc⟩ := decodeHost_isPacket h
  exact ⟨hhost, hwf, henc⟩

/-! ## Written-out words and reserved encodings -/

/-- Settles O8: each word is run through its decoder. -/
theorem decodedWords : Obligations.DecodedWords :=
  ⟨rfl, rfl, rfl, rfl, rfl, rfl, rfl, rfl, rfl, rfl, rfl, rfl⟩

end Sys2Proof

namespace Sys2Proof.Machine

theorem updateFlag_reserved {m : Byte} (h : 2 ≤ m.toNat) (old : Bool) : updateFlag m old = old := by
  have h1 : m ≠ 1 := by rintro rfl; exact absurd h (by decide)
  have h0 : m ≠ 0 := by rintro rfl; exact absurd h (by decide)
  rw [updateFlag, if_neg h1, if_neg h0]

/-- A packet at the front of the host port that decodes to an instruction without effect is consumed, and nothing else. -/
theorem step_ignored {s : State} {i : Instr} {rest : List Byte} (hq : s.seqCmds = [])
    (hd : decodeHost s.hostPort = .ok (i, rest)) (hi : ∀ u, exec i u = .next u) :
    step s = .next { s with hostPort := rest } := by
  obtain ⟨hstep, -⟩ := stepRunsTheDecodedInstruction s
  exact (hstep i rest hq hd).trans (hi _)

/-- Settles O27: each reserved packet decodes to an instruction that leaves every state. -/
theorem reservedEncodingsIgnored : Obligations.ReservedEncodingsIgnored := by
  intro s
  refine ⟨fun _ => rfl, fun _ => rfl, ?_, ?_, ?_, ?_⟩
  · intro op rest hop hq hp
    exact step_ignored hq (hp ▸ decodeHost_unassigned hop rest) fun _ => rfl
  · intro mode rest hm hq hp
    exact step_ignored hq (hp ▸ dispmodeRow_reserved hm ▸ decodeHost_dispmode mode rest) fun _ => rfl
  · intro m rest hm hq hp
    refine step_ignored (i := .updmode m) hq (hp ▸ rfl) fun u => ?_
    exact congrArg (fun v => Host.Outcome.next (u.setAutoUpdate v)) (updateFlag_reserved hm _)
  · intro mode value rest hm hq hp
    have h7 : mode.toNat ≠ 7 := fun h => hm (BitVec.eq_of_toNat_eq h)
    exact step_ignored hq (hp ▸ decodeHost_dispmodevOther h7 value rest) fun _ => rfl

end Sys2Proof.Machine
end

section
/-! SUPPORT. The serial command bytes, settled: decode and encode agree, each row sends its byte (`30_encoding.md` R89 to R94). -/

namespace Sys2Proof

/-! ## A byte is its masked part plus its operand bits -/

theorem withOperand_low4 : ∀ b : Byte, withOperand (b &&& 0xF0) ((b.setWidth 4).setWidth 8) = b := by decide

theorem withOperand_low6 : ∀ b : Byte, withOperand (b &&& 0xC0) ((b.setWidth 6).setWidth 8) = b := by decide

theorem masked_add_low1 : ∀ b : Byte, (b &&& 0xFE) + (b.setWidth 1).setWidth 8 = b := by decide

theorem low6_of_masked_eq_zero : ∀ b : Byte, b &&& 0xC0 = 0 → (b.setWidth 6).setWidth 8 = b := by decide

theorem contrastByte_eq_low6 : ∀ v : Byte, contrastByte v = (v.setWidth 6).setWidth 8 := by decide

/-! ## Encode after decode -/

/-- The instruction `i` is a serial row read at `position`, and `b` is its byte. -/
structure IsSerialByte (sc : SerCmd) (bias : Byte) (position : Option SerialArg) (b : Byte) (i : Instr) : Prop where
  serial : i.serial = true
  position_eq : serialPosition i = position
  encoded : encode sc bias i = [b]

theorem mem_of_serialFixed {b : Byte} {i : Instr} {rows : List (Byte × Instr)} (h : serialFixed b rows = some i) :
    (b, i) ∈ rows := by
  induction rows with
  | nil => cases h
  | cons row more ih =>
    obtain ⟨v, j⟩ := row
    rw [serialFixed] at h
    split at h
    next hb => cases h; rw [hb]; exact List.mem_cons_self
    next => exact List.mem_cons_of_mem _ (ih h)

/-- Whatever the constants are, a byte that decodes at a position is the byte of the row it decodes to: a row with an operand has
compared the masked byte with its constant, and the operand is the rest of the byte. -/
theorem decodeSerial_isSerialByte {sc : SerCmd} {bias b : Byte} {position : Option SerialArg} {i : Instr}
    (h : decodeSerial sc bias position b = some i) : IsSerialByte sc bias position b i := by
  match position with
  | some .boost | some .indicator =>
    simp only [decodeSerial] at h
    split at h <;> cases h
    next hb => exact ⟨rfl, rfl, by rw [hb]; rfl⟩
  | some .contrast =>
    simp only [decodeSerial] at h
    split at h <;> cases h
    next hb => exact ⟨rfl, rfl, congrArg ([·]) (low6_of_masked_eq_zero b hb)⟩
  | none =>
    simp only [decodeSerial] at h
    split at h
    next hb => cases h; exact ⟨rfl, rfl, by rw [encode, ← hb, withOperand_low4]⟩
    split at h
    next hb => cases h; exact ⟨rfl, rfl, by rw [encode, ← hb, withOperand_low4]⟩
    split at h
    next hb => cases h; exact ⟨rfl, rfl, by rw [encode, ← hb, withOperand_low4]⟩
    split at h
    next hb => cases h; exact ⟨rfl, rfl, by rw [encode, ← hb, withOperand_low6]⟩
    split at h
    next hb => cases h; exact ⟨rfl, rfl, by rw [encode, biasByte, ← hb, masked_add_low1]⟩
    have hm := mem_of_serialFixed h
    simp only [List.mem_cons, List.not_mem_nil, or_false, Prod.mk.injEq] at hm
    obtain ⟨rfl, rfl⟩ | ⟨rfl, rfl⟩ | ⟨rfl, rfl⟩ | ⟨rfl, rfl⟩ | ⟨rfl, rfl⟩ | ⟨rfl, rfl⟩ | ⟨rfl, rfl⟩ | ⟨rfl, rfl⟩ |
      ⟨rfl, rfl⟩ | ⟨rfl, rfl⟩ | ⟨rfl, rfl⟩ | ⟨rfl, rfl⟩ | ⟨rfl, rfl⟩ | ⟨rfl, rfl⟩ := hm <;> exact ⟨rfl, rfl, rfl⟩

/-! ## Decode after encode -/

/-- With the default constants the byte of a serial row, read at the row's position, is that row. -/
theorem decodeSerial_standard {i : Instr} (hs : i.serial = true) :
    ∃ b, encode SerCmd.standard biasStandard i = [b] ∧
      decodeSerial SerCmd.standard biasStandard (serialPosition i) b = some i := by
  cases i with
  | cColLo n => exact ⟨_, rfl, Machine.decodeSerial_colLo n⟩
  | cColHi n => refine ⟨_, rfl, ?_⟩; revert n; decide
  | cPage n => exact ⟨_, rfl, Machine.decodeSerial_page n⟩
  | cStartLine n => refine ⟨_, rfl, ?_⟩; revert n; decide
  | cBias r => refine ⟨_, rfl, ?_⟩; revert r; decide
  | contrastArgument v => refine ⟨_, rfl, ?_⟩; revert v; decide
  | cAdcNormal | cAdcReverse | cComNormal | cComReverse | cDispNormal | cDispInvert => exact ⟨_, rfl, rfl⟩
  | cAllptsOff | cAllptsOn | cPowerAll | cBoost | cBoostArg => exact ⟨_, rfl, rfl⟩
  | cContrast | cIndOff | cIndArg | cDispOn | cDispOff => exact ⟨_, rfl, rfl⟩
  | _ => cases hs

/-- Settles O7: the first direction is `decodeSerial_standard`, the second holds of any constants. -/
theorem serialRoundTrip : Obligations.SerialRoundTrip := by
  refine ⟨fun i => decodeSerial_standard, fun position b i h => ?_⟩
  obtain ⟨hserial, hpos, henc⟩ := decodeSerial_isSerialByte h
  exact ⟨hserial, hpos, henc⟩

end Sys2Proof

namespace Sys2Proof.Machine

/-- Settles O28: each row is `exec_serial` at its encoding. -/
theorem serialCommandsSendTheirByte : Obligations.SerialCommandsSendTheirByte := by
  intro s
  have h {i : Instr} (hi : i.serial = true) := exec_serial hi s
  exact ⟨fun _ => h rfl, fun _ => h rfl, fun _ => h rfl, fun _ => h rfl, h rfl, h rfl, h rfl, h rfl, h rfl, h rfl, h rfl,
    h rfl, fun _ => h rfl, h rfl, h rfl, h rfl, h rfl, fun _ => h rfl, h rfl, h rfl, h rfl, h rfl⟩

end Sys2Proof.Machine
end

section
/-! SUPPORT. The two operations that reply, settled: `GETPIX` and `TEXTWIDTH` (`30_encoding.md` R81, `40_pixel_ops.md` R124,
`45_text_macros.md` R243). -/

namespace Sys2Proof.Machine

/-! ## `GETPIX` -/

theorem getPixel_outside {s : State} {x y : Int} (h : inside s.cfg x y = false) : s.getPixel x y = false := by
  rw [State.getPixel, h, Bool.false_and]

theorem getPixel_inside {s : State} {x y : Int} (h : inside s.cfg x y = true) :
    s.getPixel x y = bitOf (s.readByte (pixelAddr s.cfg x y)) (pixelBit y) := by
  rw [State.getPixel, h, Bool.true_and]

theorem exec_getpix (s : State) (x y : Half) :
    exec (.getpix x y) s = .next (s.reply [if s.getPixel (signed x) (signed y) then 1 else 0]) := rfl

/-- Settles O11: the pixel as read is the addressed bit on the display and 0 off it. -/
theorem getpixReplies : Obligations.GetpixReplies := by
  refine fun s x y => ⟨fun hout => ?_, fun hin => ?_⟩
  · have hi : inside s.cfg (signed x) (signed y) = false := by
      rw [Bool.eq_false_iff, Ne, inside_iff, signed, signed]
      omega
    rw [exec_getpix, getPixel_outside hi]
    rfl
  · have hi : inside s.cfg (signed x) (signed y) = true := (inside_iff _ _ _).mpr hin
    rw [exec_getpix, getPixel_inside hi]
    rfl

/-! ## `TEXTWIDTH` -/

/-- The width `w` of the character `v` can be read: 0 where the character is not drawable, else the width byte of its glyph
record (R234, R243). -/
def DeclaredWidth (s : State) (v : Byte) (w : Nat) : Prop :=
  (drawable v = false ∧ w = 0) ∨ (drawable v = true ∧ ∃ bpg gw : Byte, assetByte? s.cfg s.font 0 = some bpg ∧
    assetByte? s.cfg s.font (glyphIndex v bpg) = some gw ∧ w = gw.toNat)

theorem charWidth_ok_iff {s : State} {v : Byte} {w : Nat} : s.charWidth v = .ok w ↔ DeclaredWidth s v w := by
  unfold DeclaredWidth State.charWidth
  cases drawable v with
  | false => simp [eq_comm]
  | true =>
    cases h0 : s.fontByte 0 with
    | error e => simp [(fontByte_error_iff.mp h0).1]
    | ok bpg =>
      cases hw : s.fontByte (glyphIndex v bpg) with
      | error e => simp [fontByte_ok_iff.mp h0, (fontByte_error_iff.mp hw).1, hw]
      | ok gw => simp [fontByte_ok_iff.mp h0, fontByte_ok_iff.mp hw, hw, eq_comm]

theorem DeclaredWidth.le {s : State} {v : Byte} {w : Nat} (h : DeclaredWidth s v w) : w ≤ 255 := by
  rcases h with ⟨-, rfl⟩ | ⟨-, -, gw, -, -, rfl⟩ <;> omega

/-- Reads that all succeed give the list of what they read. -/
theorem gather_eq_map {α β : Type} {f : α → Except Refusal β} {g : α → β} {l : List α} (h : ∀ a ∈ l, f a = .ok (g a)) :
    gather f l = .ok (l.map g) := by
  rw [gather_ok_iff, List.forall₂_map_right_iff, List.forall₂_same]
  exact h

theorem exec_textwidth_ok {s : State} {str : List Byte} {widths : List Nat} (h : gather s.charWidth str = .ok widths) :
    exec (.textwidth str) s = .next (s.reply (splitHalf (BitVec.ofNat 16 widths.sum))) := by
  simp only [exec, execTextwidth, h]

/-- Settles O48: the widths read are the declared ones, each at most 255, and the reply is their sum as a `u16`. -/
theorem textwidthSum : Obligations.TextwidthSum := by
  intro s str width hlen hzero hread
  have hdecl : ∀ v ∈ str, DeclaredWidth s v (width v) := by
    intro v hv
    cases hd : drawable v with
    | false =>
      have hout : v.toNat < 32 ∨ 127 < v.toNat := by
        have := mt (drawable_iff v).mpr (by simp [hd])
        omega
      exact .inl ⟨hd, hzero v hv hout⟩
    | true =>
      obtain ⟨hlo, hhi⟩ := (drawable_iff v).mp hd
      exact .inr ⟨hd, hread v hv hlo hhi⟩
  constructor
  · calc (str.map width).sum ≤ (str.map width).length * 255 :=
          List.sum_le_card_nsmul _ 255 (List.forall_mem_map.mpr fun v hv => (hdecl v hv).le)
      _ ≤ 255 * 255 := Nat.mul_le_mul_right 255 (by rwa [List.length_map])
  · rw [exec_textwidth_ok (gather_eq_map fun v hv => charWidth_ok_iff.mpr (hdecl v hv)), splitHalf_ofNat]
    rfl

end Sys2Proof.Machine
end

section
/-! SUPPORT. The command stream, settled: which events each instruction sends, that its command bytes are rows of the serial
table, and that it leaves the far side between commands (`30_encoding.md` R89 to R94, `42_session_ops.md` R161, R183). -/

namespace Sys2Proof.Machine

/-! ## The rows an instruction sends -/

/-- The bytes of a sequence of serial rows. -/
def rowBytes (c : Config) (rows : List Instr) : List Byte := rows.flatMap (encode c.serCmd c.biasCmd)

/-- The serial rows instruction `i` sends before any page transfer; for `INIT` those of R161. -/
def ownRows (c : Config) : Instr → List Instr
  | .init => [.cStartLine 0, .cAdcReverse, .cComNormal, .cDispNormal, .cBias (c.biasCmd.setWidth 1), .cPowerAll, .cBoost,
      .cBoostArg, .cContrast, .contrastArgument (c.contrastDefault.setWidth 6), .cIndOff, .cIndArg, .cDispOn]
  | .dmOn => [.cAllptsOff, .cDispOn]
  | .dmOff => [.cDispOff]
  | .dmSleep => [.cAllptsOn, .cDispOff]
  | .dmInvert => [.cDispInvert]
  | .dmDefault => [.cDispNormal]
  | .dmTopview => [.cAdcNormal, .cComReverse]
  | .dmBottom => [.cAdcReverse, .cComNormal]
  | .dmContrast => [.cContrast, .contrastArgument (c.contrastDefault.setWidth 6)]
  | .dispmodevContrast v => if 64 ≤ v.toNat then [] else [.cContrast, .contrastArgument (v.setWidth 6)]
  | i => if i.serial then [i] else []

/-- The events of instruction `i` before any page transfer. `INIT` sends the `INIT_SEQ` it is configured with, which need not be
that of R161 (R92). -/
def ownEvents (c : Config) (i : Instr) : List Event :=
  if i = .init then [.busCfg, .rstPulse] ++ c.initSeq.map .cmd else (rowBytes c (ownRows c i)).map .cmd

theorem ownEvents_init (c : Config) : ownEvents c .init = [.busCfg, .rstPulse] ++ c.initSeq.map .cmd := if_pos rfl

theorem ownEvents_of_ne_init (c : Config) {i : Instr} (h : i ≠ .init) :
    ownEvents c i = (rowBytes c (ownRows c i)).map .cmd := if_neg h

/-- The structure of R161 is a sequence of rows. -/
theorem initSeqOf_eq_rowBytes (c : Config) :
    initSeqOf c.serCmd c.biasCmd c.contrastDefault = rowBytes c (ownRows c .init) := by
  have hbias : biasByte c.biasCmd (c.biasCmd.setWidth 1) = c.biasCmd := masked_add_low1 _
  simp only [initSeqOf, rowBytes, ownRows, List.flatMap_cons, List.flatMap_nil, encode, hbias, contrastByte_eq_low6]
  rfl

theorem ownRows_serial {c : Config} {i : Instr} (h : i.serial = true) : ownRows c i = [i] := by
  cases i <;> simp [Instr.serial] at h <;> rfl

/-- A serial row is one byte (R89). -/
theorem encode_serial (sc : SerCmd) (bias : Byte) {r : Instr} (h : r.serial = true) : ∃ b, encode sc bias r = [b] := by
  cases r <;> simp [Instr.serial] at h <;> exact ⟨_, rfl⟩

/-! ## Positions in the command stream -/

/-- The rows stand where R94 reads them, from the position `a` to a position between commands: each is at the position its
predecessor leaves. -/
def chained : Option SerialArg → List Instr → Bool
  | a, [] => decide (a = none)
  | a, r :: rows => r.serial && decide (serialPosition r = a) && chained (awaitedArg r) rows

theorem chained_cons {a : Option SerialArg} {r : Instr} {rows : List Instr} :
    chained a (r :: rows) = true ↔ r.serial = true ∧ serialPosition r = a ∧ chained (awaitedArg r) rows = true := by
  simp [chained, and_assoc]

theorem chained_nil {a : Option SerialArg} : chained a [] = true ↔ a = none := decide_eq_true_iff

/-- The second bytes a host operation sends follow their commands. -/
theorem ownRows_chained (c : Config) {i : Instr} (h : i.serial = false) : chained none (ownRows c i) = true := by
  cases i with
  | dispmodevContrast v =>
    rw [ownRows]
    split_ifs <;> rfl
  | init | dmOn | dmOff | dmSleep | dmInvert | dmDefault | dmTopview | dmBottom | dmContrast => rfl
  | _ => simp [ownRows, h, chained]

theorem serial_of_mem_chained {a : Option SerialArg} {rows : List Instr} (h : chained a rows = true) {r : Instr}
    (hr : r ∈ rows) : r.serial = true := by
  induction rows generalizing a with
  | nil => cases hr
  | cons r' rows ih =>
    obtain ⟨hs, -, hrest⟩ := chained_cons.mp h
    obtain rfl | hr := List.mem_cons.mp hr
    · exact hs
    · exact ih hrest hr

theorem serial_of_mem_ownRows {c : Config} {i r : Instr} (h : r ∈ ownRows c i) : r.serial = true := by
  cases hs : i.serial with
  | false => exact serial_of_mem_chained (ownRows_chained c hs) h
  | true =>
    rw [ownRows_serial hs, List.mem_singleton] at h
    rwa [h]

/-! ## What an instruction sends -/

/-- From `s` to `t` the serial port saw nothing, or one page transfer of a block with the same configuration. -/
def MayTransfer (s t : State) : Prop := SamePort s t ∨ ∃ v : State, v.cfg = s.cfg ∧ Emits s t v.flushEvents

theorem MayTransfer.after_samePort {s t u : State} (hc : t.cfg = s.cfg) (hp : SamePort s t) (h : MayTransfer t u) :
    MayTransfer s u := by
  rcases h with h | ⟨v, hv, h⟩
  · exact .inl (.of_emits (hp.emits.trans hc h.emits))
  · have htransfer := hp.emits.trans hc h
    exact .inr ⟨v, hv.trans hc, htransfer⟩

theorem MayTransfer.before_samePort {s t u : State} (h : MayTransfer s t) (hp : SamePort t u) : MayTransfer s u := by
  obtain h | ⟨v, hv, h⟩ := h
  · exact .inl ⟨hp.trace.trans h.trace, hp.lines.trans h.lines, hp.panel.trans h.panel⟩
  · exact .inr ⟨v, hv, hp.trace.trans h.trace, hp.lines.trans h.lines, hp.panel.trans h.panel⟩

theorem mayTransfer_flush (s : State) : MayTransfer s s.flush := .inr ⟨s, rfl, emits_emit s _⟩

theorem mayTransfer_sync (s : State) : MayTransfer s s.sync := by
  cases h : s.autoUpdate
  · exact .inl ((syncs_sync s).1 h)
  · exact .inr ⟨s.sync, sync_cfg s, (syncs_sync s).2 h⟩

theorem mayTransfer_clear (s : State) : MayTransfer s s.clear := by
  have hz : SamePort s s.zeroFb := ⟨rfl, rfl, rfl⟩
  simp only [State.clear]
  split
  · exact .after_samePort (zeroFb_cfg s) hz (mayTransfer_sync _)
  · exact .after_samePort (zeroFb_cfg s) hz (mayTransfer_flush _)
  · exact .inl hz

theorem mayTransfer_drawSync (s : State) (dots : List Dot) : MayTransfer s (s.drawSync dots) :=
  .after_samePort (draw_cfg s dots) (samePort_draw s dots) (mayTransfer_sync _)

/-- On the way from `s` to `t` the events `own` are sent, then there may be a page transfer. -/
def SendsThenMayTransfer (s : State) (own : List Event) (t : State) : Prop :=
  ∃ u, u.cfg = s.cfg ∧ Emits s u own ∧ MayTransfer u t

theorem MayTransfer.sendsNothing {s t : State} (h : MayTransfer s t) : SendsThenMayTransfer s [] t :=
  ⟨s, rfl, Emits.nil s, h⟩

theorem sendsThenMayTransfer_sendCmds (s : State) (bs : List Byte) :
    SendsThenMayTransfer s (bs.map .cmd) (s.sendCmds bs) := ⟨s.sendCmds bs, rfl, emits_emit s _, .inl ⟨rfl, rfl, rfl⟩⟩

theorem sendsThenMayTransfer_orient (s : State) (v : Bool) (bs : List Byte) :
    SendsThenMayTransfer s (bs.map .cmd) ((s.setTopview v).sendCmds bs).flush :=
  ⟨(s.setTopview v).sendCmds bs, rfl, ⟨rfl, rfl, rfl⟩, mayTransfer_flush _⟩

theorem wrchar_mayTransfer {s t : State} {v : Byte} (h : exec (.wrchar v) s = .next t) : MayTransfer s t := by
  simp only [exec, execWrchar] at h
  split at h
  · split at h <;> cases h
    next hn =>
      obtain ⟨gh, -, rfl⟩ := newline_ok_iff.mp hn
      exact .inl ⟨rfl, rfl, rfl⟩
  · split at h
    · split at h <;> cases h
      next u hg =>
        obtain ⟨dots, hu⟩ := putGlyph_rest hg
        have hp : SamePort s u := by
          rw [hu]
          exact ⟨by simp, by simp, by simp⟩
        exact .after_samePort (by rw [hu]; simp) hp (mayTransfer_sync u)
    · cases h
      exact .inl ⟨rfl, rfl, rfl⟩

/-- A shape with a precondition that completes is a drawing call. -/
theorem guarded_draw_mayTransfer {s t : State} {p : Prop} [Decidable p] {dots : List Dot} {r : Refusal}
    (h : (if p then .next (s.drawSync dots) else .refused r : Host.Outcome State Fault Refusal) = .next t) :
    MayTransfer s t := by
  split at h <;> cases h
  exact mayTransfer_drawSync s dots

/-- Every instruction that completes has sent its own events, then perhaps one page transfer, and nothing else. -/
theorem exec_sends {i : Instr} {s t : State} (h : exec i s = .next t) :
    SendsThenMayTransfer s (ownEvents s.cfg i) t := by
  by_cases hs : i.serial = true
  · rw [exec_serial hs] at h
    cases h
    rw [ownEvents_of_ne_init _ (by rintro rfl; cases hs), ownRows_serial hs, rowBytes, List.flatMap_singleton]
    exact sendsThenMayTransfer_sendCmds s _
  cases i with
  | init =>
    cases h
    have hsent := (emits_emit s [.busCfg, .rstPulse]).trans (emit_cfg s _) (emits_emit _ (s.cfg.initSeq.map .cmd))
    exact ⟨(s.emit [.busCfg, .rstPulse]).sendCmds s.cfg.initSeq, rfl, hsent,
      (mayTransfer_clear _).before_samePort ⟨rfl, rfl, rfl⟩⟩
  | flush => cases h; exact (mayTransfer_flush s).sendsNothing
  | sync => cases h; exact (mayTransfer_sync s).sendsNothing
  | cls => cases h; exact (mayTransfer_clear s).sendsNothing
  | dmOn | dmOff | dmSleep | dmInvert | dmDefault => cases h; exact sendsThenMayTransfer_sendCmds s _
  | dmTopview | dmBottom => cases h; exact sendsThenMayTransfer_orient s _ _
  | dmContrast =>
    simp only [exec, execDmContrast, contrastByte_eq_low6] at h
    cases h
    exact sendsThenMayTransfer_sendCmds s _
  | dispmodevContrast v =>
    simp only [exec, execDispmodevContrast, contrastByte_eq_low6] at h
    cases h
    rw [ownEvents_of_ne_init _ (by simp), ownRows]
    split_ifs
    · exact MayTransfer.sendsNothing (.inl ⟨rfl, rfl, rfl⟩)
    · exact sendsThenMayTransfer_sendCmds s _
  | updmode _ | dispmodeReserved _ | dispmodevOther _ _ | reservedHostOpcode _ | getpix _ _ | locate _ _ | font _ =>
    cases h
    exact MayTransfer.sendsNothing (.inl ⟨rfl, rfl, rfl⟩)
  | setpix x y c => cases h; exact MayTransfer.sendsNothing (.inl (samePort_draw s [⟨signed x, signed y, lit c⟩]))
  | point x y c => cases h; exact (mayTransfer_drawSync s [⟨signed x, signed y, lit c⟩]).sendsNothing
  | line _ _ _ _ _ | rect _ _ _ _ _ | fillrect _ _ _ _ _ => cases h; exact (mayTransfer_drawSync s _).sendsNothing
  | roundrect _ _ _ _ _ _ | fillrrect _ _ _ _ _ _ => exact (guarded_draw_mayTransfer h).sendsNothing
  | circle _ _ _ _ | fillcircle _ _ _ _ =>
    exact (guarded_draw_mayTransfer ((ite_not _ _ _).trans h)).sendsNothing
  | wrchar v => exact (wrchar_mayTransfer h).sendsNothing
  | textwidth str =>
    simp only [exec, execTextwidth] at h
    split at h <;> cases h
    exact MayTransfer.sendsNothing (.inl ⟨rfl, rfl, rfl⟩)
  | bitmap a x y =>
    simp only [exec, execBitmap] at h
    split at h <;> cases h
    exact (mayTransfer_drawSync s _).sendsNothing
  | _ => exact absurd rfl hs

/-! ## The events of a page transfer -/

/-- The events of a page transfer: its address commands, which are rows of one byte, data, and `CSHIGH` (R146, R147). -/
theorem mem_flushEvents {s : State} {e : Event} (h : e ∈ s.flushEvents) : e = .csHigh ∨ (∃ b, e = .dat b) ∨
    ∃ r b, chained none [r] = true ∧ encode s.cfg.serCmd s.cfg.biasCmd r = [b] ∧ e = .cmd b := by
  rw [State.flushEvents, List.mem_append, List.mem_flatMap, List.mem_singleton] at h
  obtain ⟨pg, hpg, h⟩ | h := h
  · have hpg16 : pg < 16 := by
      obtain ⟨-, -, -, hp, -, -⟩ := s.cfg.wellFormed
      have := List.mem_range.mp hpg
      omega
    rw [State.pageEvents, List.mem_append, List.mem_map, operand_setWidth (columnStart_lt s), operand_setWidth hpg16] at h
    simp only [List.mem_cons, List.not_mem_nil, or_false] at h
    obtain (rfl | rfl | rfl) | ⟨col, -, rfl⟩ := h
    · exact .inr (.inr ⟨.cColLo _, _, rfl, rfl, rfl⟩)
    · exact .inr (.inr ⟨.cColHi 0, _, rfl, rfl, rfl⟩)
    · exact .inr (.inr ⟨.cPage _, _, rfl, rfl, rfl⟩)
    · exact .inr (.inl ⟨_, rfl⟩)
  · exact .inl h

/-! ## Every command byte is a row -/

/-- `b` is the byte of a serial row. -/
def IsRowByte (c : Config) (b : Byte) : Prop := ∃ r : Instr, r.serial = true ∧ encode c.serCmd c.biasCmd r = [b]

theorem mem_cmdBytes {es : List Event} {b : Byte} : b ∈ cmdBytes es ↔ .cmd b ∈ es := by
  rw [cmdBytes, List.mem_filterMap]
  constructor
  · rintro ⟨e, he, hb⟩
    cases e <;> cases hb
    exact he
  · exact fun h => ⟨_, h, rfl⟩

theorem isRowByte_of_mem_rowBytes {c : Config} {rows : List Instr} (hrows : ∀ r ∈ rows, r.serial = true) {b : Byte}
    (h : b ∈ rowBytes c rows) : IsRowByte c b := by
  obtain ⟨r, hr, hb⟩ := List.mem_flatMap.mp h
  obtain ⟨b', hb'⟩ := encode_serial c.serCmd c.biasCmd (hrows r hr)
  rw [hb', List.mem_singleton] at hb
  exact ⟨r, hrows r hr, hb ▸ hb'⟩

theorem isRowByte_of_mem_ownEvents {c : Config} {i : Instr}
    (hinit : i = .init → c.initSeq = initSeqOf c.serCmd c.biasCmd c.contrastDefault) {b : Byte}
    (h : .cmd b ∈ ownEvents c i) : IsRowByte c b := by
  have hb : b ∈ rowBytes c (ownRows c i) := by
    by_cases hi : i = .init
    · have hseq := hinit hi
      subst hi
      rw [ownEvents_init, hseq, initSeqOf_eq_rowBytes] at h
      simpa using h
    · rw [ownEvents_of_ne_init c hi] at h
      simpa using h
  exact isRowByte_of_mem_rowBytes (fun r => serial_of_mem_ownRows) hb

theorem isRowByte_of_mem_flushEvents {s : State} {b : Byte} (h : .cmd b ∈ s.flushEvents) : IsRowByte s.cfg b := by
  obtain h | ⟨b', h⟩ | ⟨r, b', hr, henc, h⟩ := mem_flushEvents h <;> cases h
  exact ⟨r, (chained_cons.mp hr).1, henc⟩

/-- Every command byte among the events from `s` to `t` is a row. -/
def SendsRows (s t : State) : Prop := ∃ es, t.trace = s.trace ++ es ∧ ∀ b ∈ cmdBytes es, IsRowByte s.cfg b

theorem SamePort.sendsRows {s t : State} (h : SamePort s t) : SendsRows s t :=
  ⟨[], by rw [h.trace, List.append_nil], fun b hb => absurd (mem_cmdBytes.mp hb) List.not_mem_nil⟩

theorem MayTransfer.sendsRows {s t : State} (h : MayTransfer s t) : SendsRows s t := by
  obtain h | ⟨v, hv, h⟩ := h
  · exact h.sendsRows
  · exact ⟨_, h.trace, fun b hb => hv ▸ isRowByte_of_mem_flushEvents (mem_cmdBytes.mp hb)⟩

theorem exec_sendsRows {i : Instr} {s t : State} (h : exec i s = .next t)
    (hinit : i = .init → s.cfg.initSeq = initSeqOf s.cfg.serCmd s.cfg.biasCmd s.cfg.contrastDefault) : SendsRows s t := by
  obtain ⟨u, hc, hown, hrest⟩ := exec_sends h
  obtain ⟨es, htrace, hrows⟩ := hrest.sendsRows
  refine ⟨ownEvents s.cfg i ++ es, by rw [htrace, hown.trace, List.append_assoc], fun b hb => ?_⟩
  obtain hb | hb := List.mem_append.mp (mem_cmdBytes.mp hb)
  · exact isRowByte_of_mem_ownEvents hinit hb
  · exact hc ▸ hrows b (mem_cmdBytes.mpr hb)

/-- Where the instruction of a step comes from, if the step runs one: the host port, or a serial byte left to the sequencer. -/
theorem step_next_sources {s t : State} (h : step s = .next t) : SamePort s t ∨
    (∃ i rest, s.seqCmds = [] ∧ decodeHost s.hostPort = .ok (i, rest) ∧ exec i (s.takeHost rest) = .next t) ∨
    ∃ i b rest, decodeSerial s.cfg.serCmd s.cfg.biasCmd s.panel.arg b = some i ∧ exec i (s.takeSeq rest) = .next t := by
  simp only [step] at h
  split at h
  · split at h
    next i hd => exact .inr (.inr ⟨i, _, _, hd, h⟩)
    next => cases h; exact .inl ⟨rfl, rfl, rfl⟩
  next hq =>
    split at h
    next i rest hd => exact .inr (.inl ⟨i, rest, hq, hd, h⟩)
    all_goals
      cases h
      exact .inl ⟨rfl, rfl, rfl⟩

/-- Settles O56: the rows of an instruction are serial, and so are the address rows of a transfer; a step that runs `INIT` has
decoded it from the host port, since what the sequencer sends is a serial row. -/
theorem emittedCommandsAreTabled : Obligations.EmittedCommandsAreTabled := by
  refine ⟨fun i s t h hinit => exec_sendsRows h hinit, fun s t h hinit => ?_⟩
  obtain hp | ⟨i, rest, hq, hd, hx⟩ | ⟨i, b, rest, hd, hx⟩ := step_next_sources h
  · exact hp.sendsRows
  · exact exec_sendsRows (s := s.takeHost rest) hx fun hi => hinit ⟨rest, hq, hi ▸ hd⟩
  · refine exec_sendsRows (s := s.takeSeq rest) hx fun hi => ?_
    have hserial := (decodeSerial_isSerialByte hd).serial
    rw [hi] at hserial
    cases hserial

/-! ## The far side stays between commands -/

/-- No argument byte is awaited, and no initialisation sequence is under way. -/
structure Panel.BetweenCommands (p : Panel) : Prop where
  arg : p.arg = none
  initLeft : p.initLeft = none

theorem settled_iff {s : State} : Settled s ↔ s.panel.BetweenCommands :=
  ⟨fun h => ⟨h.arg, h.initLeft⟩, fun h => ⟨h.arg, h.initLeft⟩⟩

@[simp] theorem initProgress_arg (p : Panel) (b : Byte) : (p.initProgress b).arg = p.arg := by
  unfold Panel.initProgress
  split
  · split <;> [split <;> rfl; rfl]
  · rfl

theorem command_arg (p : Panel) (i : Instr) : (p.command i).arg = awaitedArg i := by
  unfold Panel.command
  split
  · exact learn_arg _ i
  · rfl

theorem command_initLeft (p : Panel) (i : Instr) : (p.command i).initLeft = p.initLeft := by
  unfold Panel.command
  split
  · exact learn_initLeft _ i
  · rfl

/-- A command byte moves `INIT_SEQ` on, whatever row it is. -/
theorem observe_cmd_initLeft (c : Config) (p : Panel) (b : Byte) :
    (Panel.observe c p (.cmd b)).initLeft = (p.initProgress b).initLeft := by
  simp only [Panel.observe]
  split
  · exact command_initLeft _ _
  · rfl

theorem foldl_cmds_initLeft_none (c : Config) (bs : List Byte) {p : Panel} (h : p.initLeft = none) :
    ((bs.map Event.cmd).foldl (Panel.observe c) p).initLeft = none := by
  induction bs generalizing p with
  | nil => exact h
  | cons b bs ih => exact ih (by rw [observe_cmd_initLeft, initProgress_idle h, h])

/-- The bytes that are left of `INIT_SEQ` end it. -/
theorem foldl_initLeft_ends (c : Config) (b : Byte) (bs : List Byte) {p : Panel} (h : p.initLeft = some (b :: bs)) :
    (((b :: bs).map Event.cmd).foldl (Panel.observe c) p).initLeft = none := by
  rw [List.map_cons, List.foldl_cons]
  induction bs generalizing b p with
  | nil => simp [observe_cmd_initLeft, Panel.initProgress, h]
  | cons b' bs ih => exact ih b' (by simp [observe_cmd_initLeft, Panel.initProgress, h])

@[simp] theorem resetPulse_arg (c : Config) (p : Panel) : (p.resetPulse c).arg = none := by
  unfold Panel.resetPulse
  split <;> rfl

/-- After a reset pulse the whole of `INIT_SEQ` is no longer under way. -/
theorem foldl_initSeq_initLeft (c : Config) (p : Panel) :
    ((c.initSeq.map Event.cmd).foldl (Panel.observe c) (p.resetPulse c)).initLeft = none := by
  cases hseq : c.initSeq with
  | nil => simp [Panel.resetPulse, hseq, Panel.unknown]
  | cons b bs => exact foldl_initLeft_ends c b bs (by simp [Panel.resetPulse, hseq])

section
variable {c : Config} (hc : StandardCommands c)
include hc

/-- With the default bytes a row at its position is read as that row. -/
theorem observe_row_arg {p : Panel} {r : Instr} {b : Byte} (hs : r.serial = true) (hp : serialPosition r = p.arg)
    (hb : encode c.serCmd c.biasCmd r = [b]) : (Panel.observe c p (.cmd b)).arg = awaitedArg r := by
  obtain ⟨b', hb', hd⟩ := decodeSerial_standard hs
  rw [hc.serCmd, hc.biasCmd, hb'] at hb
  cases hb
  simp only [Panel.observe, initProgress_arg, hc.serCmd, hc.biasCmd, ← hp, hd]
  exact command_arg _ r

/-- Rows that stand at their positions leave the stream between commands. -/
theorem foldl_rows_arg {rows : List Instr} {p : Panel} (h : chained p.arg rows = true) :
    (((rowBytes c rows).map Event.cmd).foldl (Panel.observe c) p).arg = none := by
  induction rows generalizing p with
  | nil => exact chained_nil.mp h
  | cons r rows ih =>
    obtain ⟨hs, hp, hrest⟩ := chained_cons.mp h
    obtain ⟨b, hb⟩ := encode_serial c.serCmd c.biasCmd hs
    rw [rowBytes, List.flatMap_cons, hb]
    exact ih (by rwa [observe_row_arg hc hs hp hb])

theorem ownEvents_betweenCommands {i : Instr} (hi : i.serial = false) {p : Panel} (h : p.BetweenCommands) :
    ((ownEvents c i).foldl (Panel.observe c) p).BetweenCommands := by
  have hrows := ownRows_chained c hi
  by_cases hinit : i = .init
  · subst hinit
    have hseq : c.initSeq = rowBytes c (ownRows c .init) := by
      rw [← initSeqOf_eq_rowBytes, hc.initSeq, hc.serCmd, hc.biasCmd]
    have hleft := foldl_initSeq_initLeft c p
    rw [ownEvents_init, List.foldl_append]
    refine ⟨?_, hleft⟩
    rw [hseq]
    exact foldl_rows_arg hc ((resetPulse_arg c p).symm ▸ hrows)
  · rw [ownEvents_of_ne_init c hinit]
    exact ⟨foldl_rows_arg hc (h.arg.symm ▸ hrows), foldl_cmds_initLeft_none c _ h.initLeft⟩

theorem flushEvents_betweenCommands {s : State} (hs : s.cfg = c) {p : Panel} (h : p.BetweenCommands) :
    (s.flushEvents.foldl (Panel.observe c) p).BetweenCommands := by
  refine List.foldlRecOn s.flushEvents (Panel.observe c) h fun q hq e he => ?_
  obtain rfl | ⟨b, rfl⟩ | ⟨r, b, hr, henc, rfl⟩ := mem_flushEvents he
  · exact hq
  · exact ⟨hq.arg, hq.initLeft⟩
  · obtain ⟨hserial, hpos, hend⟩ := chained_cons.mp hr
    rw [hs] at henc
    refine ⟨?_, by rw [observe_cmd_initLeft, initProgress_idle hq.initLeft, hq.initLeft]⟩
    rw [observe_row_arg hc hserial (hpos.trans hq.arg.symm) henc]
    exact chained_nil.mp hend

end

/-- Settles O57: the rows of a host operation stand at their positions, the reset pulse and the whole of `INIT_SEQ` leave no
sequence under way, and the address rows of a transfer await nothing. -/
theorem streamStaysSettled : Obligations.StreamStaysSettled := by
  refine ⟨fun c draw => ⟨rfl, rfl⟩, fun i s t hc hs hi h => ?_⟩
  obtain ⟨u, hcu, hown, hrest⟩ := exec_sends h
  have hu : u.panel.BetweenCommands := hown.panel ▸ ownEvents_betweenCommands hc hi (settled_iff.mp hs)
  rw [settled_iff]
  obtain hp | ⟨v, hv, hflush⟩ := hrest
  · exact hp.panel ▸ hu
  · rw [hflush.panel]
    exact flushEvents_betweenCommands (hcu ▸ hc) hv hu

end Sys2Proof.Machine
end

section
/-! SUPPORT. The pixel operations that write, settled: `SETPIX`, `CLS` and `POINT` (`40_pixel_ops.md` R120 to R128). -/

namespace Sys2Proof.Machine

/-! ## `SETPIX` -/

theorem exec_setpix (s : State) (x y : Half) (c : Byte) :
    exec (.setpix x y c) s = .next (s.setPixel (signed x) (signed y) (lit c)) := rfl

theorem inside_eq_false_iff (c : Config) (x y : Int) :
    inside c x y = false ↔ x < 0 ∨ c.w ≤ x ∨ y < 0 ∨ c.h ≤ y := by
  rw [Bool.eq_false_iff, Ne, inside_iff]
  omega

theorem lit_eq_decide (c : Byte) : lit c = decide (c ≠ 0) := by
  rw [Bool.eq_iff_iff, lit, bne_iff_ne, decide_eq_true_iff]

theorem signed_inj {v w : Half} (h : signed v = signed w) : v = w := BitVec.eq_of_toInt_eq h

theorem sameCore_draw (s : State) (dots : List Dot) : SameCore s (s.draw dots) where
  env := (framed_draw s dots).env
  flags := ⟨by simp, by simp⟩
  text := ⟨by simp, by simp, by simp⟩
  replies := by simp

/-- The bits of the addressed byte after one call of the pixel primitive (R121). -/
theorem bitOf_readByte_setPixel {s : State} {x y : Int} (h : inside s.cfg x y = true) (on : Bool) {k : Nat} (hk : k < 8) :
    bitOf ((s.setPixel x y on).readByte (pixelAddr s.cfg x y)) k =
      if k = pixelBit y then on else bitOf (s.readByte (pixelAddr s.cfg x y)) k := by
  rw [setPixel_inside h, readByte_writeByte, if_pos rfl, bitOf_putBit _ (pixelBit_lt y) hk]

/-- Settles O10: off the display the pixel primitive is the identity, on it `bitOf_readByte_setPixel` gives the addressed byte
and `readByte_setPixel_other` the rest. -/
theorem setpixWritesOneBit : Obligations.SetpixWritesOneBit := by
  intro s x y c
  have hdraw : s.setPixel (signed x) (signed y) (lit c) = s.draw [⟨signed x, signed y, lit c⟩] := rfl
  refine ⟨_, exec_setpix s x y c, hdraw ▸ sameCore_draw s _, hdraw ▸ samePort_draw s _, fun hout => ?_,
    fun hin => ⟨fun a ha => ?_, fun k hk => ?_⟩⟩
  · exact setPixel_outside ((inside_eq_false_iff _ _ _).mpr hout) _
  · exact readByte_setPixel_other _ fun _ => ha
  · have hi : inside s.cfg (signed x) (signed y) = true := (inside_iff _ _ _).mpr hin
    rw [← lit_eq_decide]
    exact bitOf_readByte_setPixel hi (lit c) hk

/-! ## `SETPIX` then `GETPIX` -/

theorem exec_getpix_eq_iff (s : State) (x y : Half) (b : Byte) :
    exec (.getpix x y) s = .next { s with replies := s.replies ++ [[b]] } ↔
      (if s.getPixel (signed x) (signed y) then 1 else 0) = b := by
  rw [exec_getpix]
  constructor
  · intro h
    injection h with h
    simpa using congrArg State.replies h
  · rintro rfl
    rfl

/-- Settles O12: the reply is the pixel, and `getPixel_setPixel` says which pixel of the picture has changed. -/
theorem pixelRoundTrip : Obligations.PixelRoundTrip := by
  refine fun s x y c => ⟨_, exec_setpix s x y c, fun hi => ?_, fun x' y' b hother hb => ?_⟩
  · have hlit : (s.setPixel (signed x) (signed y) (lit c)).getPixel (signed x) (signed y) = lit c := by
      rw [getPixel_setPixel, if_pos ⟨hi, rfl, rfl⟩]
    rw [exec_getpix_eq_iff, hlit]
    simp [lit]
  · have hsame : (s.setPixel (signed x) (signed y) (lit c)).getPixel (signed x') (signed y') =
        s.getPixel (signed x') (signed y') := by
      rw [getPixel_setPixel, if_neg]
      rintro ⟨hi, hx, hy⟩
      obtain hne | hout := hother
      · exact hne (Prod.ext (signed_inj hx) (signed_inj hy))
      · exact Bool.false_ne_true (hout.symm.trans hi)
    rw [exec_getpix_eq_iff, hsame]
    exact (exec_getpix_eq_iff s x' y' b).mp hb

/-! ## `CLS` -/

section
variable (s : State)

theorem exec_cls : exec .cls s = .next s.clear := rfl

theorem sameCore_clear : SameCore s s.clear where
  env := (framed_clear s).env
  flags := ⟨by simp, by simp⟩
  text := ⟨by simp, by simp, by simp⟩
  replies := by simp

/-- After `CLS` every pixel is unlit (R126). -/
theorem getPixel_clear (x y : Int) : s.clear.getPixel x y = false := by
  cases hi : inside s.clear.cfg x y with
  | false => exact getPixel_outside hi
  | true =>
    have hlt := pixelAddr_lt hi
    rw [clear_cfg] at hlt
    rw [getPixel_inside hi, readByte_clear, clear_cfg, if_pos hlt]
    exact BitVec.getLsbD_zero

/-- The events of `CLS`: the transfer of the cleared framebuffer that `CLS_FLUSH` asks for, or nothing (R127). -/
def State.clearEvents : List Event :=
  match s.cfg.clsFlush with
  | .policy => if s.autoUpdate then s.clear.flushEvents else []
  | .always => s.clear.flushEvents
  | .never => []

/-- The transfer that ends `CLS` is of the framebuffer that `CLS` leaves. -/
theorem flushEvents_clear : s.clear.flushEvents = s.zeroFb.flushEvents :=
  flushEvents_congr (clear_cfg s) (clear_fb s) (clear_powerOn s) (clear_topview s)

theorem emits_sync : Emits s s.sync (if s.autoUpdate then s.flushEvents else []) := by
  cases h : s.autoUpdate
  · rw [sync_off s h]; exact Emits.nil s
  · rw [sync_on s h]; exact emits_emit s _

theorem emits_clear : Emits s s.clear s.clearEvents := by
  have hz : Emits s s.zeroFb [] := SamePort.emits ⟨rfl, rfl, rfl⟩
  have hafter {t : State} {es : List Event} : Emits s.zeroFb t es → Emits s t es := hz.trans (zeroFb_cfg s)
  rw [State.clearEvents, flushEvents_clear, State.clear]
  cases s.cfg.clsFlush with
  | policy => exact hafter (emits_sync s.zeroFb)
  | always => exact hafter (emits_emit s.zeroFb _)
  | never => exact hz

end

theorem syncs_clear {s : State} (h : s.cfg.clsFlush = .policy) : Syncs s s.clear := by
  have he := emits_clear s
  rw [State.clearEvents, h] at he
  exact ⟨fun hoff => .of_emits (by simpa [hoff] using he), fun hon => by simpa [hon] using he⟩

/-- Settles O13: `readByte_clear` and `getPixel_clear` give the framebuffer, `emits_clear` the transfer that each value of
`CLS_FLUSH` asks for. -/
theorem clsClears : Obligations.ClsClears := by
  refine fun s => ⟨s.clear, exec_cls s, sameCore_clear s, fun a ha => ?_, fun a ha => ?_, getPixel_clear s, syncs_clear,
    fun halways => ?_, fun hnever => ?_⟩
  · exact (readByte_clear s a).trans (if_pos ha)
  · exact (readByte_clear s a).trans (if_neg (Nat.not_lt.mpr ha))
  · simpa [State.clearEvents, halways] using emits_clear s
  · exact .of_emits (by simpa [State.clearEvents, hnever] using emits_clear s)

/-! ## `CLS` twice -/

theorem Memory.clear_clear (n : Nat) (m : Memory) : Memory.clear n (Memory.clear n m) = Memory.clear n m := by
  have hzeros : ((List.range n).map fun a => (a, (0 : Byte))).filter (fun c => decide (n ≤ c.1)) = [] := by
    simp [List.filter_eq_nil_iff]
  rw [Memory.clear, Memory.clear, List.filter_append, hzeros, List.nil_append, List.filter_filter]
  simp only [Bool.and_self]

theorem clear_clear_fb (s : State) : s.clear.clear.fb = s.clear.fb := by
  simp only [clear_fb, zeroFb_fb, clear_cfg, Memory.clear_clear]

/-- The second `CLS` reads the same registers and transfers the same framebuffer. -/
theorem clearEvents_clear (s : State) : s.clear.clearEvents = s.clearEvents := by
  have htransfer : s.clear.clear.flushEvents = s.clear.flushEvents :=
    flushEvents_congr (clear_cfg _) (clear_clear_fb s) (clear_powerOn _) (clear_topview _)
  simp only [State.clearEvents, clear_cfg, clear_autoUpdate, htransfer]

/-- Settles O14: clearing a cleared memory changes nothing, so the second `CLS` has the events of the first. -/
theorem clsIdempotent : Obligations.ClsIdempotent := fun s =>
  ⟨s.clear, s.clear.clear, s.clearEvents, exec_cls s, exec_cls s.clear, clear_clear_fb s, sameCore_clear s.clear,
    (emits_clear s).trace, clearEvents_clear s ▸ (emits_clear s.clear).trace⟩

/-! ## `POINT` -/

theorem exec_point (s : State) (x y : Half) (c : Byte) :
    exec (.point x y c) s = .next (s.setPixel (signed x) (signed y) (lit c)).sync := rfl

theorem exec_sync (s : State) : exec .sync s = .next s.sync := rfl

/-- Settles O15: `POINT` is the drawing call of a list of one point. -/
theorem pointDrawsOnePixel : Obligations.PointDrawsOnePixel := by
  refine fun s x y c => ⟨fun t h => ?_, ?_⟩
  · rw [exec_setpix] at h
    injection h with h
    rw [exec_point, exec_sync, h]
  · have hpoint : exec (.point x y c) s = .next (s.drawSync (dotsOf (lit c) [(signed x, signed y)])) := exec_point s x y c
    exact draws_of_drawSync hpoint fun px py => by rw [List.mem_singleton, Prod.mk.injEq]; rfl

end Sys2Proof.Machine
end

section
/-! SUPPORT. The transfer operations, settled: `FLUSH`, `SYNC` and `UPDMODE` (`41_transfer_ops.md` R146 to R152). -/

namespace Sys2Proof.Machine

/-! ## `SYNC` and `UPDMODE` -/

theorem exec_flush (s : State) : exec .flush s = .next s.flush := rfl

/-- Settles O19: `sync_off` and `sync_on` are the two values of the flag. -/
theorem syncByPolicy : Obligations.SyncByPolicy := by
  refine fun s => ⟨fun hoff => ?_, fun hon => ⟨?_, ?_⟩⟩
  · rw [exec_sync, sync_off s hoff]
  · rw [exec_sync, sync_on s hon, exec_flush, flush_eq]
  · rw [exec_sync, sync_on s hon]

theorem exec_updmode (m : Byte) (s : State) :
    exec (.updmode m) s = .next (s.setAutoUpdate (updateFlag m s.autoUpdate)) := rfl

theorem setAutoUpdate_self (s : State) : s.setAutoUpdate s.autoUpdate = s := rfl

/-- Settles O20: the operand alone decides the flag, and a reserved operand keeps it. -/
theorem updmodeWritesTheFlag : Obligations.UpdmodeWritesTheFlag := by
  refine fun s => ⟨exec_updmode 1 s, exec_updmode 0 s, fun m hm => ?_⟩
  rw [exec_updmode, updateFlag_reserved hm, setAutoUpdate_self]

/-! ## The bytes of a sequence of events -/

section
variable (es fs : List Event)

@[simp] theorem cmdBytes_append : cmdBytes (es ++ fs) = cmdBytes es ++ cmdBytes fs := List.filterMap_append

@[simp] theorem datBytes_append : datBytes (es ++ fs) = datBytes es ++ datBytes fs := List.filterMap_append

end

theorem cmdBytes_flatMap {α : Type} (f : α → List Event) (l : List α) :
    cmdBytes (l.flatMap f) = l.flatMap fun a => cmdBytes (f a) := List.filterMap_flatMap

@[simp] theorem datBytes_map_cmd (bs : List Byte) : datBytes (bs.map .cmd) = [] := by
  simp [datBytes]

@[simp] theorem cmdBytes_map_dat {α : Type} (f : α → Byte) (l : List α) : cmdBytes (l.map fun a => .dat (f a)) = [] := by
  simp [cmdBytes]

@[simp] theorem datBytes_map_dat {α : Type} (f : α → Byte) (l : List α) :
    datBytes (l.map fun a => .dat (f a)) = l.map f := by
  simp [datBytes, List.filterMap_map]

/-! ## One page of a transfer -/

theorem withOperand_zero (base : Byte) : withOperand base 0 = base := BitVec.add_zero base

section
variable (s : State) (pg : Nat)

@[simp] theorem length_pageEvents : (s.pageEvents pg).length = 3 + s.cfg.w := by
  rw [State.pageEvents, List.length_append, List.length_map, List.length_range]
  rfl

theorem length_cmdBytes_pageEvents : (cmdBytes (s.pageEvents pg)).length = 3 := by
  rw [State.pageEvents, cmdBytes_append, cmdBytes_map_dat]
  rfl

theorem datBytes_pageEvents :
    datBytes (s.pageEvents pg) = (List.range s.cfg.w).map fun col => s.readByte (pg * s.cfg.w + col) := by
  rw [State.pageEvents, datBytes_append, datBytes_map_dat]
  rfl

theorem csHigh_not_mem_pageEvents : Event.csHigh ∉ s.pageEvents pg := by simp [State.pageEvents]

/-- `topview` moves the column start alone, which the first event of a page sets (R148). -/
theorem tail_pageEvents_setTopview (v : Bool) : ((s.setTopview v).pageEvents pg).tail = (s.pageEvents pg).tail := rfl

end

/-! ## The pages of a transfer -/

section
variable (s : State)

theorem length_pages (n : Nat) : ((List.range n).flatMap s.pageEvents).length = n * (3 + s.cfg.w) := by
  simp [List.length_flatMap]

/-- The slices of the first `n` pages, one after the other, are the bytes below `w * n` in address order (R149). -/
theorem datBytes_pages (n : Nat) :
    datBytes ((List.range n).flatMap s.pageEvents) = (List.range (s.cfg.w * n)).map s.readByte := by
  induction n with
  | zero => rfl
  | succ n ih =>
    rw [List.range_succ, List.flatMap_append, List.flatMap_singleton, datBytes_append, ih, datBytes_pageEvents,
      Nat.mul_succ, List.range_add, List.map_append, List.map_map, Nat.mul_comm n]
    rfl

/-- The pages before page `pg`, that page, and the pages after it. -/
theorem pages_split {n pg : Nat} (h : pg < n) : ∃ later : List Event,
    (List.range n).flatMap s.pageEvents = (List.range pg).flatMap s.pageEvents ++ (s.pageEvents pg ++ later) := by
  obtain ⟨m, rfl⟩ := Nat.exists_eq_add_of_lt h
  refine ⟨((List.range m).map (pg + 1 + ·)).flatMap s.pageEvents, ?_⟩
  rw [Nat.add_right_comm, List.range_add, List.flatMap_append, List.range_succ, List.flatMap_append,
    List.flatMap_singleton, List.append_assoc]

/-! ## A whole transfer -/

theorem length_flushEvents : s.flushEvents.length = s.cfg.p * (3 + s.cfg.w) + 1 := by
  rw [State.flushEvents, List.length_append, length_pages]
  rfl

theorem length_cmdBytes_flushEvents : (cmdBytes s.flushEvents).length = 3 * s.cfg.p := by
  have hend : cmdBytes [Event.csHigh] = [] := rfl
  rw [State.flushEvents, cmdBytes_append, hend, List.append_nil, cmdBytes_flatMap]
  simp [List.length_flatMap, length_cmdBytes_pageEvents, Nat.mul_comm]

theorem count_csHigh_flushEvents : s.flushEvents.count .csHigh = 1 := by
  have hpages : ((List.range s.cfg.p).flatMap s.pageEvents).count .csHigh = 0 := by
    rw [List.count_eq_zero, List.mem_flatMap]
    rintro ⟨pg, -, h⟩
    exact csHigh_not_mem_pageEvents s pg h
  rw [State.flushEvents, List.count_append, hpages]
  rfl

theorem datBytes_flushEvents : datBytes s.flushEvents = (List.range (s.cfg.w * s.cfg.p)).map s.readByte := by
  rw [State.flushEvents, datBytes_append, datBytes_pages]
  exact List.append_nil _

/-- Page `pg` of a transfer is its `pg`-th block of `3 + w` events (R147). -/
theorem flushEvents_page {pg : Nat} (h : pg < s.cfg.p) :
    (s.flushEvents.drop (pg * (3 + s.cfg.w))).take (3 + s.cfg.w) = s.pageEvents pg := by
  obtain ⟨later, hsplit⟩ := pages_split s h
  rw [State.flushEvents, hsplit, List.append_assoc, List.drop_left' (length_pages s pg), List.append_assoc,
    List.take_left' (length_pageEvents s pg)]

/-- The pages are followed by `CSHIGH` alone. -/
theorem flushEvents_end : s.flushEvents.drop (s.cfg.p * (3 + s.cfg.w)) = [.csHigh] :=
  List.drop_left' (length_pages s s.cfg.p)

/-- The event at place `r` of page `pg`. -/
theorem getElem?_flushEvents_page {pg r : Nat} (hpg : pg < s.cfg.p) (hr : r < 3 + s.cfg.w) :
    s.flushEvents[pg * (3 + s.cfg.w) + r]? = (s.pageEvents pg)[r]? := by
  rw [← flushEvents_page s hpg, List.getElem?_take_of_lt hr, List.getElem?_drop]

/-- The events from `CSHIGH` on. -/
theorem getElem?_flushEvents_end {k : Nat} (h : s.cfg.p * (3 + s.cfg.w) ≤ k) :
    s.flushEvents[k]? = [Event.csHigh][k - s.cfg.p * (3 + s.cfg.w)]? := by
  rw [← flushEvents_end s, List.getElem?_drop, Nat.add_sub_cancel' h]

theorem sameCore_flush : SameCore s s.flush := ⟨(framed_flush s).env, ⟨rfl, rfl⟩, ⟨rfl, rfl, rfl⟩, rfl⟩

end

/-- Settles O16: `length_flushEvents` and the lemmas on its bytes, at the sizes of each variant. -/
theorem flushEventCounts : Obligations.FlushEventCounts := by
  intro s
  have hlen := length_flushEvents s
  have hcmd := length_cmdBytes_flushEvents s
  have hdat : (datBytes s.flushEvents).length = s.cfg.w * s.cfg.p := by simp [datBytes_flushEvents]
  refine ⟨s.flush, s.flushEvents, exec_flush s, sameCore_flush s, readByte_flush s, emits_emit s _, hlen, hcmd,
    count_csHigh_flushEvents s, datBytes_flushEvents s, fun hshort => ?_, fun htall => ?_⟩
  · rw [hlen, hcmd, hdat, hshort]
    exact ⟨rfl, rfl, rfl⟩
  · rw [hlen, hcmd, hdat]
    obtain hA | hB := htall
    · rw [hA]
      exact ⟨rfl, rfl, rfl⟩
    · rw [hB]
      exact ⟨rfl, rfl, rfl⟩

/-- Settles O17: each block of `3 + w` events is a page (`flushEvents_page`), and `CSHIGH` follows the last. -/
theorem flushPageFraming : Obligations.FlushPageFraming := by
  refine ⟨⟨rfl, rfl, rfl⟩, fun s => ⟨s.flush, s.flushEvents, exec_flush s, emits_emit s _, ?_, length_flushEvents s,
    fun pg hpg => ?_, flushEvents_end s⟩⟩
  · obtain ⟨-, -, -, hp, -, -⟩ := s.cfg.wellFormed
    exact hp
  · rw [flushEvents_page s hpg, State.pageEvents, withOperand_zero]
    rfl

/-- Outside the first event of each page a transfer does not depend on `topview`: an event of a page stands at a place of that
page's tail, and the rest is `CSHIGH`. -/
theorem getElem?_flushEvents_setTopview (s : State) (v : Bool) {k : Nat}
    (h : k % (3 + s.cfg.w) ≠ 0 ∨ s.cfg.p * (3 + s.cfg.w) ≤ k) :
    s.flushEvents[k]? = (s.setTopview v).flushEvents[k]? := by
  by_cases hend : s.cfg.p * (3 + s.cfg.w) ≤ k
  · rw [getElem?_flushEvents_end s hend, getElem?_flushEvents_end (s.setTopview v) hend]
    rfl
  · have hpg : k / (3 + s.cfg.w) < s.cfg.p := Nat.div_lt_of_lt_mul (by rw [Nat.mul_comm]; omega)
    have hr : k % (3 + s.cfg.w) < 3 + s.cfg.w := Nat.mod_lt _ (by omega)
    obtain ⟨r, hr0⟩ := Nat.exists_eq_succ_of_ne_zero (h.resolve_right hend)
    have hs := getElem?_flushEvents_page s hpg hr
    have hv := getElem?_flushEvents_page (s.setTopview v) hpg hr
    rw [setTopview_cfg] at hv
    rw [Nat.div_add_mod', hr0, ← List.getElem?_tail] at hs hv
    rw [hs, hv, tail_pageEvents_setTopview]

/-- Settles O18: the data is the framebuffer in address order (`datBytes_flushEvents`) for either value of `topview`. -/
theorem flushDataIgnoresTopview : Obligations.FlushDataIgnoresTopview := by
  refine fun s v => ⟨s.flush, (s.setTopview v).flush, s.flushEvents, (s.setTopview v).flushEvents, exec_flush s,
    exec_flush _, rfl, rfl, ?_, ?_, fun k hk => getElem?_flushEvents_setTopview s v hk⟩
  · rw [datBytes_flushEvents, datBytes_flushEvents]
    rfl
  · rw [length_flushEvents, length_flushEvents, setTopview_cfg]

end Sys2Proof.Machine
end

section
/-! SUPPORT. Which instructions transfer, settled: the drawing calls of the update policy end in one `SYNC`, and what sends no
data at all (`41_transfer_ops.md` R153, R154). -/

namespace Sys2Proof.Machine

/-! ## What `WRCHAR` and `TEXTWIDTH` answer -/

/-- A `WRCHAR` that completes: the newline, a glyph with its `SYNC`, or a value that is ignored (R235). -/
theorem exec_wrchar_next {s t : State} {v : Byte} (h : exec (.wrchar v) s = .next t) :
    (v = s.cfg.newline ∧ s.newline = .ok t) ∨
    (v ≠ s.cfg.newline ∧ drawable v = true ∧ ∃ u, s.putGlyph v = .ok u ∧ t = u.sync) ∨
    (v ≠ s.cfg.newline ∧ drawable v = false ∧ t = s) := by
  simp only [exec, execWrchar] at h
  split at h
  next hn =>
    split at h <;> cases h
    next hok => exact .inl ⟨hn, hok⟩
  next hn =>
    split at h
    next hd =>
      split at h <;> cases h
      next u hok => exact .inr (.inl ⟨hn, hd, u, hok, rfl⟩)
    next hd =>
      cases h
      exact .inr (.inr ⟨hn, by simpa using hd, rfl⟩)

theorem exec_textwidth_next {s t : State} {str : List Byte} (h : exec (.textwidth str) s = .next t) :
    ∃ r, t = s.reply r := by
  simp only [exec, execTextwidth] at h
  split at h <;> cases h
  exact ⟨_, rfl⟩

/-! ## Drawing calls end in one `SYNC` -/

/-- What drawing keeps on the way from `s` to `u`: all that a `SYNC` and its events depend on but the framebuffer and `topview`. -/
structure Drawn (s u : State) : Prop where
  cfg : u.cfg = s.cfg
  autoUpdate : u.autoUpdate = s.autoUpdate
  port : SamePort s u

/-- `t` is what a `SYNC` makes of drawing from `s` (`44_raster_macros.md` R202). -/
def EndsInSync (s t : State) : Prop := ∃ u, Drawn s u ∧ t = u.sync

theorem drawn_draw (s : State) (dots : List Dot) : Drawn s (s.draw dots) := ⟨by simp, by simp, samePort_draw s dots⟩

theorem drawn_zeroFb (s : State) : Drawn s s.zeroFb := ⟨rfl, rfl, rfl, rfl, rfl⟩

theorem drawn_putGlyph {s u : State} {v : Byte} (h : s.putGlyph v = .ok u) : Drawn s u := by
  obtain ⟨dots, hu⟩ := putGlyph_rest h
  rw [hu]
  exact ⟨by simp, by simp, by simp, by simp, by simp⟩

theorem endsInSync_drawSync (s : State) (dots : List Dot) : EndsInSync s (s.drawSync dots) :=
  ⟨s.draw dots, drawn_draw s dots, rfl⟩

theorem endsInSync_clear {s : State} (h : s.cfg.clsFlush = .policy) : EndsInSync s s.clear :=
  ⟨s.zeroFb, drawn_zeroFb s, by simp only [State.clear, h]⟩

/-- A shape with a precondition ends in a `SYNC` where it completes. -/
theorem guarded_draw_endsInSync {s t : State} {p : Prop} [Decidable p] {dots : List Dot} {r : Refusal}
    (h : (if p then .next (s.drawSync dots) else .refused r : Host.Outcome State Fault Refusal) = .next t) :
    EndsInSync s t := by
  split at h <;> cases h
  exact endsInSync_drawSync s dots

theorem bitmap_endsInSync {s t : State} {a x y : Half} (h : exec (.bitmap a x y) s = .next t) : EndsInSync s t := by
  simp only [exec, execBitmap] at h
  split at h <;> cases h
  exact endsInSync_drawSync s _

theorem wrchar_endsInSync {s t : State} {v : Byte} (hd : drawingCall s (.wrchar v) = true)
    (h : exec (.wrchar v) s = .next t) : EndsInSync s t := by
  simp only [drawingCall, Bool.and_eq_true, decide_eq_true_eq] at hd
  obtain ⟨hn, hdraw⟩ := hd
  obtain ⟨hnl, -⟩ | ⟨-, -, u, hu, rfl⟩ | ⟨-, hdraw', -⟩ := exec_wrchar_next h
  · exact absurd hnl hn
  · exact ⟨u, drawn_putGlyph hu, rfl⟩
  · exact absurd hdraw (Bool.eq_false_iff.mp hdraw')

/-- Every drawing call that completes is drawing, then one `SYNC`. -/
theorem drawingCall_endsInSync {i : Instr} {s t : State} (hd : drawingCall s i = true) (h : exec i s = .next t) :
    EndsInSync s t := by
  cases i with
  | cls => cases h; exact endsInSync_clear (of_decide_eq_true hd)
  | point x y c => cases h; exact endsInSync_drawSync s [⟨signed x, signed y, lit c⟩]
  | line _ _ _ _ _ | rect _ _ _ _ _ | fillrect _ _ _ _ _ => cases h; exact endsInSync_drawSync s _
  | roundrect _ _ _ _ _ _ | fillrrect _ _ _ _ _ _ => exact guarded_draw_endsInSync h
  | circle _ _ _ _ | fillcircle _ _ _ _ => exact guarded_draw_endsInSync ((ite_not _ _ _).trans h)
  | wrchar v => exact wrchar_endsInSync hd h
  | bitmap a x y => exact bitmap_endsInSync h
  | _ => cases hd

/-- What is emitted after nothing is all that is emitted. -/
theorem SamePort.emits_of_emits {s t u : State} {es : List Event} (hp : SamePort s t) (hc : t.cfg = s.cfg)
    (h : Emits t u es) : Emits s u es := by
  have hes := hp.emits.trans hc h
  rwa [List.nil_append] at hes

theorem EndsInSync.autoUpdate {s t : State} (h : EndsInSync s t) : t.autoUpdate = s.autoUpdate := by
  obtain ⟨u, hu, rfl⟩ := h
  rw [sync_autoUpdate, hu.autoUpdate]

/-- The transfer of the terminal `SYNC` is of the framebuffer as the drawing left it. -/
theorem EndsInSync.syncs {s t : State} (h : EndsInSync s t) : Syncs s t := by
  obtain ⟨u, hu, rfl⟩ := h
  obtain ⟨hoff, hon⟩ := syncs_sync u
  rw [hu.autoUpdate] at hoff hon
  refine ⟨fun h0 => ?_, fun h1 => ?_⟩
  · exact .of_emits (hu.port.emits_of_emits hu.cfg (hoff h0).emits)
  · exact hu.port.emits_of_emits hu.cfg (hon h1)

/-- A `WRCHAR` that draws nothing moves the cursor at most. -/
theorem wrchar_not_drawing {s t : State} {v : Byte} (hd : drawingCall s (.wrchar v) = false)
    (h : exec (.wrchar v) s = .next t) : SamePort s t ∧ SameFb s t := by
  obtain ⟨-, hok⟩ | ⟨hn, hdraw, -⟩ | ⟨-, -, rfl⟩ := exec_wrchar_next h
  · obtain ⟨gh, -, rfl⟩ := newline_ok_iff.mp hok
    exact ⟨⟨rfl, rfl, rfl⟩, fun _ => rfl⟩
  · simp [drawingCall, hn, hdraw] at hd
  · exact ⟨⟨rfl, rfl, rfl⟩, fun _ => rfl⟩

/-- Settles O50: a drawing call ends in one `SYNC` after writes that leave the port and the flag (`drawingCall_endsInSync`). -/
theorem autoUpdateGating : Obligations.AutoUpdateGating := by
  refine fun i s t h => ⟨fun hd => ?_, fun v hv hd => ?_⟩
  · have hsync := drawingCall_endsInSync hd h
    exact ⟨hsync.autoUpdate, hsync.syncs⟩
  · subst hv
    exact wrchar_not_drawing hd h

/-! ## What sends no data -/

/-- From `s` to `t` no data byte is sent. -/
def SendsNoData (s t : State) : Prop := ∃ es, t.trace = s.trace ++ es ∧ datBytes es = []

theorem sendsNoData_sendCmds (s : State) (bs : List Byte) : SendsNoData s (s.sendCmds bs) :=
  ⟨bs.map .cmd, rfl, datBytes_map_cmd bs⟩

theorem sendsNoData_refl (s : State) : SendsNoData s s := ⟨[], (List.append_nil _).symm, rfl⟩

/-- Settles O51: the operations without an event write registers, a reply or one pixel; the display modes send commands. -/
theorem othersNeverTransfer : Obligations.OthersNeverTransfer := by
  refine fun i s t h => ⟨fun hi => ?_, fun hi => ?_⟩
  · cases i with
    | setpix x y c => cases h; exact samePort_draw s [⟨signed x, signed y, lit c⟩]
    | getpix _ _ | updmode _ | locate _ _ | font _ => cases h; exact ⟨rfl, rfl, rfl⟩
    | textwidth str =>
      obtain ⟨r, rfl⟩ := exec_textwidth_next h
      exact ⟨rfl, rfl, rfl⟩
    | wrchar v => exact (wrchar_not_drawing (by simpa using hi) h).1
    | _ => simp at hi
  · cases i with
    | dmOn | dmOff | dmSleep | dmInvert | dmDefault | dmContrast => cases h; exact sendsNoData_sendCmds s _
    | dispmodevContrast v =>
      cases h
      split_ifs
      · exact sendsNoData_refl s
      · exact sendsNoData_sendCmds s _
    | dispmodevOther _ _ => cases h; exact sendsNoData_refl s
    | _ => simp at hi

end Sys2Proof.Machine
end

section
/-! SUPPORT. The session view, settled: what each host operation makes of it, and that the orientation stays consistent
(`42_session_ops.md` R167, R176, R177, R183, R184). -/

namespace Sys2Proof.Machine

/-! ## One command -/

@[simp] theorem learn_view (p : Panel) (i : Instr) : (p.learn i).view = p.view.after i := by cases i <;> rfl

/-- Before the first reset pulse a command makes nothing known (R291). -/
theorem command_view (p : Panel) (i : Instr) : (p.command i).view = if p.pulsed then p.view.after i else p.view := by
  unfold Panel.command
  split
  · exact learn_view _ i
  · rfl

theorem after_inited (v : SessionView) (b : Bool) (i : Instr) :
    SessionView.after { v with inited := b } i = { v.after i with inited := b } := by cases i <;> rfl

/-! ## A sequence of rows -/

theorem rowBytes_cons {c : Config} {r : Instr} {b : Byte} (hb : encode c.serCmd c.biasCmd r = [b]) (rows : List Instr) :
    rowBytes c (r :: rows) = b :: rowBytes c rows := by
  rw [rowBytes, List.flatMap_cons, hb]
  rfl

section
variable {c : Config} (hc : StandardCommands c)
include hc

/-- With the default bytes a row at its position is learned as that row. -/
theorem observe_row_view {p : Panel} {r : Instr} {b : Byte} (hs : r.serial = true) (hp : serialPosition r = p.arg)
    (hb : encode c.serCmd c.biasCmd r = [b]) : (Panel.observe c p (.cmd b)).view =
      if p.pulsed then (p.initProgress b).view.after r else (p.initProgress b).view := by
  obtain ⟨b', hb', hd⟩ := decodeSerial_standard hs
  rw [hc.serCmd, hc.biasCmd, hb'] at hb
  cases hb
  simp only [Panel.observe, initProgress_arg, hc.serCmd, hc.biasCmd, ← hp, hd, command_view, initProgress_pulsed]

/-- Outside an initialisation sequence the view takes the rows one after the other, once a reset pulse has occurred. -/
theorem foldl_rows_view {rows : List Instr} {p : Panel} (h : chained p.arg rows = true) (hl : p.initLeft = none) :
    (((rowBytes c rows).map Event.cmd).foldl (Panel.observe c) p).view =
      if p.pulsed then rows.foldl SessionView.after p.view else p.view := by
  induction rows generalizing p with
  | nil => exact (ite_self _).symm
  | cons r rows ih =>
    obtain ⟨hs, hp, hrest⟩ := chained_cons.mp h
    obtain ⟨b, hb⟩ := encode_serial c.serCmd c.biasCmd hs
    have hview := observe_row_view hc hs hp hb
    rw [initProgress_idle hl] at hview
    rw [rowBytes_cons hb]
    refine (ih (p := Panel.observe c p (.cmd b)) ?_ ?_).trans ?_
    · rwa [observe_row_arg hc hs hp hb]
    · rw [observe_cmd_initLeft, initProgress_idle hl, hl]
    · rw [observe_pulsed c p (by simp), hview, List.foldl_cons]
      split <;> rfl

/-- The rows that are left of `INIT_SEQ` are taken one after the other, and the last one ends the initialisation. -/
theorem foldl_rows_view_inits {r : Instr} {rows : List Instr} {p : Panel} (hpulsed : p.pulsed = true)
    (h : chained p.arg (r :: rows) = true) (hl : p.initLeft = some (rowBytes c (r :: rows))) :
    (((rowBytes c (r :: rows)).map Event.cmd).foldl (Panel.observe c) p).view =
      { (r :: rows).foldl SessionView.after p.view with inited := true } := by
  induction rows generalizing r p with
  | nil =>
    obtain ⟨hs, hp, -⟩ := chained_cons.mp h
    obtain ⟨b, hb⟩ := encode_serial c.serCmd c.biasCmd hs
    have hbytes : rowBytes c [r] = [b] := rowBytes_cons hb []
    have hview : (p.initProgress b).view = { p.view with inited := true } := by
      simp [Panel.initProgress, hl, hbytes]
    rw [hbytes]
    refine (observe_row_view hc hs hp hb).trans ?_
    rw [if_pos hpulsed, hview, after_inited]
    rfl
  | cons r' rows ih =>
    obtain ⟨hs, hp, hrest⟩ := chained_cons.mp h
    obtain ⟨hs', -, -⟩ := chained_cons.mp hrest
    obtain ⟨b, hb⟩ := encode_serial c.serCmd c.biasCmd hs
    obtain ⟨b', hb'⟩ := encode_serial c.serCmd c.biasCmd hs'
    have hprogress : p.initProgress b = { p with initLeft := some (rowBytes c (r' :: rows)) } := by
      simp [Panel.initProgress, hl, rowBytes_cons hb, rowBytes_cons hb']
    rw [rowBytes_cons hb]
    refine (ih (p := Panel.observe c p (.cmd b)) ?_ ?_ ?_).trans ?_
    · rw [observe_pulsed c p (by simp), hpulsed]
    · rwa [observe_row_arg hc hs hp hb]
    · rw [observe_cmd_initLeft, hprogress]
    · rw [observe_row_view hc hs hp hb, if_pos hpulsed, hprogress]
      rfl

theorem initSeq_eq_rowBytes : c.initSeq = rowBytes c (ownRows c .init) := by
  rw [← initSeqOf_eq_rowBytes, hc.initSeq, hc.serCmd, hc.biasCmd]

/-- What the whole of `INIT_SEQ` makes known after its reset pulse (R161, R184). -/
theorem foldl_init_view (p : Panel) : ((ownEvents c .init).foldl (Panel.observe c) p).view =
    { (ownRows c .init).foldl SessionView.after SessionView.unknown with inited := true } := by
  have hseq := initSeq_eq_rowBytes hc
  have hpulse : p.resetPulse c =
      { Panel.unknown with pulsed := true, ddram := p.ddram, initLeft := some c.initSeq } := by
    simp only [Panel.resetPulse, hc.initSeq, initSeqOf]
  rw [ownEvents_init, List.foldl_append]
  change ((c.initSeq.map Event.cmd).foldl (Panel.observe c) (p.resetPulse c)).view = _
  rw [hpulse, hseq]
  have hchain : chained none (ownRows c .init) = true := ownRows_chained c rfl
  exact foldl_rows_view_inits hc rfl hchain rfl

end

/-! ## A page transfer -/

/-- The rows that set the address of the data RAM (R66). -/
inductive AddressRow : Instr → Prop where
  | colLo (n : BitVec 4) : AddressRow (.cColLo n)
  | colHi (n : BitVec 4) : AddressRow (.cColHi n)
  | page (n : BitVec 4) : AddressRow (.cPage n)

theorem AddressRow.chained {r : Instr} (h : AddressRow r) : chained none [r] = true := by cases h <;> rfl

theorem AddressRow.after {r : Instr} (h : AddressRow r) (v : SessionView) : v.after r = v := by cases h <;> rfl

/-- The commands of a page transfer are address rows (R146). -/
theorem addressRow_of_mem_flushEvents {s : State} {b : Byte} (h : .cmd b ∈ s.flushEvents) :
    ∃ r, AddressRow r ∧ rowBytes s.cfg [r] = [b] := by
  simp only [State.flushEvents, State.pageEvents, List.mem_append, List.mem_flatMap, List.mem_map, List.mem_cons,
    List.mem_range, List.not_mem_nil, or_false, Event.cmd.injEq, reduceCtorEq, and_false, exists_false] at h
  obtain ⟨pg, hpg, rfl | rfl | rfl⟩ := h
  · rw [operand_setWidth (columnStart_lt s)]
    exact ⟨_, .colLo _, rfl⟩
  · exact ⟨_, .colHi 0, rfl⟩
  · have hpg16 : pg < 16 := by
      obtain ⟨-, -, -, hp, -, -⟩ := s.cfg.wellFormed
      omega
    rw [operand_setWidth hpg16]
    exact ⟨_, .page _, rfl⟩

/-- A page transfer leaves the view: it sends address commands and data. -/
theorem flushEvents_view {s : State} (hc : StandardCommands s.cfg) {p : Panel} (h : p.BetweenCommands) :
    (s.flushEvents.foldl (Panel.observe s.cfg) p).view = p.view := by
  suffices hinv : (s.flushEvents.foldl (Panel.observe s.cfg) p).BetweenCommands ∧
      (s.flushEvents.foldl (Panel.observe s.cfg) p).view = p.view from hinv.2
  refine List.foldlRecOn (motive := fun q => q.BetweenCommands ∧ q.view = p.view) s.flushEvents (Panel.observe s.cfg)
    ⟨h, rfl⟩ fun q ⟨hq, hview⟩ e he => ?_
  cases e with
  | busCfg | csHigh => exact ⟨hq, hview⟩
  | dat b => exact ⟨⟨hq.arg, hq.initLeft⟩, hview⟩
  | rstPulse =>
    obtain he | ⟨b, he⟩ | ⟨r, b, -, -, he⟩ := mem_flushEvents he <;> cases he
  | cmd b =>
    obtain ⟨r, hr, hb⟩ := addressRow_of_mem_flushEvents he
    have hchain : chained q.arg [r] = true := hq.arg.symm ▸ hr.chained
    have harg := foldl_rows_arg hc hchain
    have hleft := foldl_cmds_initLeft_none s.cfg (rowBytes s.cfg [r]) hq.initLeft
    have hkeep := foldl_rows_view hc hchain hq.initLeft
    rw [hb] at harg hleft hkeep
    refine ⟨⟨harg, hleft⟩, hkeep.trans ?_⟩
    rw [List.foldl_cons, List.foldl_nil, hr.after, ite_self, hview]

/-! ## A host operation -/

/-- The view after a host operation is what its own events make of it, since a page transfer leaves the view. -/
theorem exec_view_ownEvents {i : Instr} {s t : State} (hc : StandardCommands s.cfg) (hs : Settled s)
    (hi : i.serial = false) (h : exec i s = .next t) :
    t.panel.view = ((ownEvents s.cfg i).foldl (Panel.observe s.cfg) s.panel).view := by
  obtain ⟨u, hcu, hown, hrest⟩ := exec_sends h
  rw [← hown.panel]
  obtain hp | ⟨v, hv, hflush⟩ := hrest
  · rw [hp.panel]
  · have hu : u.panel.BetweenCommands := hown.panel ▸ ownEvents_betweenCommands hc hi (settled_iff.mp hs)
    have hcv : v.cfg = s.cfg := hv.trans hcu
    rw [hflush.panel, ← hv]
    exact flushEvents_view (hcv ▸ hc) hu

section
variable {i : Instr} {s t : State} (hc : StandardCommands s.cfg) (hs : Settled s)
include hc hs

/-- A host operation but `INIT` changes the view by its own rows, and only once a reset pulse has occurred (R183, R291). -/
theorem exec_view (hi : i.serial = false) (hinit : i ≠ .init) (h : exec i s = .next t) : t.panel.view =
    if s.panel.pulsed then (ownRows s.cfg i).foldl SessionView.after s.panel.view else s.panel.view := by
  rw [exec_view_ownEvents hc hs hi h, ownEvents_of_ne_init _ hinit]
  exact foldl_rows_view hc (hs.arg.symm ▸ ownRows_chained s.cfg hi) hs.initLeft

theorem exec_view_pulsed (hp : s.panel.pulsed = true) (hi : i.serial = false) (hinit : i ≠ .init)
    (h : exec i s = .next t) : t.panel.view = (ownRows s.cfg i).foldl SessionView.after s.panel.view :=
  (exec_view hc hs hi hinit h).trans (if_pos hp)

theorem exec_view_of_no_rows (hrows : ownRows s.cfg i = []) (hi : i.serial = false) (hinit : i ≠ .init)
    (h : exec i s = .next t) : t.panel.view = s.panel.view := by
  rw [exec_view hc hs hi hinit h, hrows, List.foldl_nil, ite_self]

theorem exec_init_view (h : exec .init s = .next t) :
    t.panel.view = { (ownRows s.cfg .init).foldl SessionView.after SessionView.unknown with inited := true } :=
  (exec_view_ownEvents hc hs rfl h).trans (foldl_init_view hc s.panel)

end

theorem ownRows_contrast_small {v : Byte} (h : v.toNat < 64) (c : Config) :
    ownRows c (.dispmodevContrast v) = [.cContrast, .contrastArgument (v.setWidth 6)] := if_neg (Nat.not_le.mpr h)

theorem ownRows_contrast_large {v : Byte} (h : 64 ≤ v.toNat) (c : Config) : ownRows c (.dispmodevContrast v) = [] :=
  if_pos h

/-- Settles O58: `exec_init_view` for `INIT`, and `exec_view` with the rows each other operation sends. -/
theorem sessionTransitions : Obligations.SessionTransitions := by
  intro s hc hs
  refine ⟨⟨_, rfl, exec_init_view hc hs rfl⟩, fun hp => ?_, fun v hv => ⟨_, rfl, ?_⟩, ?_, ?_⟩
  · have hview {i : Instr} {t : State} (hi : i.serial = false) (hinit : i ≠ .init) (h : exec i s = .next t) :=
      exec_view_pulsed hc hs hp hi hinit h
    refine ⟨⟨_, rfl, hview (i := .dmOn) rfl (by simp) rfl⟩, ⟨_, rfl, hview (i := .dmOff) rfl (by simp) rfl⟩,
      ⟨_, rfl, hview (i := .dmSleep) rfl (by simp) rfl⟩, ⟨_, rfl, hview (i := .dmInvert) rfl (by simp) rfl⟩,
      ⟨_, rfl, hview (i := .dmDefault) rfl (by simp) rfl⟩, ⟨_, rfl, rfl, hview (i := .dmTopview) rfl (by simp) rfl⟩,
      ⟨_, rfl, rfl, hview (i := .dmBottom) rfl (by simp) rfl⟩, ⟨_, rfl, hview (i := .dmContrast) rfl (by simp) rfl⟩,
      fun v hv => ⟨_, rfl, ?_⟩⟩
    refine (hview (i := .dispmodevContrast v) rfl (by simp) rfl).trans ?_
    rw [ownRows_contrast_small hv]
    rfl
  · exact exec_view_of_no_rows hc hs (ownRows_contrast_large hv _) rfl (by simp) rfl
  · intro i t hi h hinit hOn hOff hSleep hInvert hDefault hTopview hBottom hContrast hContrastV
    refine exec_view_of_no_rows hc hs ?_ hi hinit h
    cases i with
    | dispmodevContrast v => exact absurd rfl (hContrastV v)
    | init | dmOn | dmOff | dmSleep | dmInvert | dmDefault | dmTopview | dmBottom | dmContrast => contradiction
    | _ => simp [ownRows, hi]
  · intro hp i t hi h hinit
    simpa [hp] using exec_view hc hs hi hinit h

/-! ## The orientation -/

/-- A controller of which something is known has had a reset pulse (R291). -/
theorem pulsed_of_oriented {s : State} (hinv : StateInv s) (h : Oriented s) : s.panel.pulsed = true := by
  by_contra hp
  have hno : Event.rstPulse ∉ s.trace := fun hmem =>
    hp (hinv.panelOfTrace ▸ (foldl_observe_pulsed s.cfg s.trace Panel.unknown).mpr (.inr hmem))
  have hadc : s.panel.view.adc = none := by rw [hinv.unknownUntilPulse hno]; rfl
  simp [Oriented, hadc] at h

/-- Only `INIT` and the orientation modes send a scan direction. -/
theorem foldl_ownRows_orientation (c : Config) {i : Instr} (hi : i.serial = false) (hinit : i ≠ .init)
    (htop : i ≠ .dmTopview) (hbottom : i ≠ .dmBottom) (v : SessionView) :
    ((ownRows c i).foldl SessionView.after v).adc = v.adc ∧ ((ownRows c i).foldl SessionView.after v).com = v.com := by
  cases i with
  | init | dmTopview | dmBottom => contradiction
  | dmOn | dmOff | dmSleep | dmInvert | dmDefault | dmContrast => exact ⟨rfl, rfl⟩
  | dispmodevContrast value =>
    rw [ownRows]
    split_ifs <;> exact ⟨rfl, rfl⟩
  | _ => simp [ownRows, hi]

section
variable {i : Instr} {s t : State} (hc : StandardCommands s.cfg) (hs : Settled s)
include hc hs

/-- The orientation modes tell the controller the flag they write (R176, R177). -/
theorem oriented_of_orientation_mode (hp : s.panel.pulsed = true) (hi : i = .dmTopview ∨ i = .dmBottom)
    (h : exec i s = .next t) : Oriented t := by
  obtain rfl | rfl := hi
  · have hview := exec_view_pulsed hc hs hp rfl (by simp) h
    cases h
    exact .inr ⟨rfl, by rw [hview]; rfl, by rw [hview]; rfl⟩
  · have hview := exec_view_pulsed hc hs hp rfl (by simp) h
    cases h
    exact .inl ⟨rfl, by rw [hview]; rfl, by rw [hview]; rfl⟩

/-- Every other operation but `INIT` writes neither the flag nor a scan direction. -/
theorem oriented_of_other_operation (hp : s.panel.pulsed = true) (hi : i.serial = false) (hinit : i ≠ .init)
    (hmode : ¬ (i = .dmTopview ∨ i = .dmBottom)) (h : exec i s = .next t) (ho : Oriented s) : Oriented t := by
  have htop : t.topview = s.topview := (exec_effect h).topview_writer.resolve_right hmode
  obtain ⟨hadc, hcom⟩ := foldl_ownRows_orientation s.cfg hi hinit (fun he => hmode (.inl he)) (fun he => hmode (.inr he))
    s.panel.view
  rwa [Oriented, htop, exec_view_pulsed hc hs hp hi hinit h, hadc, hcom]

/-- `INIT` leaves the flag and sends the directions of the bottom view (R161, R167). -/
theorem oriented_after_init (h : exec .init s = .next t) : Oriented t ↔ s.topview = false := by
  have htop : t.topview = s.topview := (exec_effect h).topview_writer.resolve_right (by simp)
  have hview := exec_init_view hc hs h
  have hadc : t.panel.view.adc = some .reverse := by rw [hview]; rfl
  have hcom : t.panel.view.com = some .normal := by rw [hview]; rfl
  simp [Oriented, htop, hadc, hcom]

end

/-- Settles O59: a consistent orientation is a known one, so a reset pulse has occurred and the operation's rows are learned. -/
theorem orientationKept : Obligations.OrientationKept := by
  refine fun i s t hc hs hinv hi h => ⟨fun hinit ho => ?_, fun hp hmode => oriented_of_orientation_mode hc hs hp hmode h,
    fun hinit => ?_⟩
  · have hp := pulsed_of_oriented hinv ho
    by_cases hmode : i = .dmTopview ∨ i = .dmBottom
    · exact oriented_of_orientation_mode hc hs hp hmode h
    · exact oriented_of_other_operation hc hs hp hi hinit hmode h ho
  · subst hinit
    exact oriented_after_init hc hs h

end Sys2Proof.Machine
end

section
/-! SUPPORT. `INIT` and the display modes, settled: the state each leaves and the events it sends (`42_session_ops.md` R160 to
R180). -/

namespace Sys2Proof.Machine

/-! ## `INIT` -/

section
variable (s : State)

/-- The state before the `CLS` of `INIT`: bus configuration, reset pulse and `INIT_SEQ` are sent (R160). -/
def State.initSent : State := (s.emit [.busCfg, .rstPulse]).sendCmds s.cfg.initSeq

/-- The state that `INIT` leaves (R160, R166). -/
def State.initDone : State := ((s.initSent.clear.setAutoUpdate true).setCursor 0 0).setFont s.cfg.defaultFont

theorem exec_init : exec .init s = .next s.initDone := rfl

@[simp] theorem initSent_cfg : s.initSent.cfg = s.cfg := rfl

@[simp] theorem initSent_autoUpdate : s.initSent.autoUpdate = s.autoUpdate := rfl

theorem emits_initSent : Emits s s.initSent ([.busCfg, .rstPulse] ++ s.cfg.initSeq.map .cmd) :=
  (emits_emit s [.busCfg, .rstPulse]).trans (emit_cfg s _) (emits_emit _ _)

/-- The register writes after the `CLS` send nothing, so the events are those sent before it and its own (R164, R165). -/
theorem emits_initDone : Emits s s.initDone ([.busCfg, .rstPulse] ++ s.cfg.initSeq.map .cmd ++ s.initSent.clearEvents) := by
  obtain ⟨htrace, hlines, hpanel⟩ := (emits_initSent s).trans (initSent_cfg s) (emits_clear s.initSent)
  exact ⟨htrace, hlines, hpanel⟩

/-- After `INIT` every byte of the framebuffer is 0 and the rest reads as before (R166). -/
theorem readByte_initDone (a : Nat) : s.initDone.readByte a = if a < fbSize s.cfg then 0 else s.readByte a :=
  readByte_clear s.initSent a

/-- A page transfer after `INIT` has the events of one after its `CLS`: the registers written in between are not read. -/
theorem flushEvents_initDone : s.initDone.flushEvents = s.initSent.clear.flushEvents :=
  flushEvents_congr rfl rfl rfl rfl

/-- A page transfer after `INIT` sends zeros alone. -/
theorem datBytes_flushEvents_initDone :
    datBytes s.initDone.flushEvents = List.replicate (s.cfg.w * s.cfg.p) 0 := by
  have hcfg : s.initDone.cfg = s.cfg := clear_cfg s.initSent
  rw [datBytes_flushEvents, hcfg, List.eq_replicate_iff]
  refine ⟨by simp, fun b hb => ?_⟩
  obtain ⟨a, ha, rfl⟩ := List.mem_map.mp hb
  rw [readByte_initDone]
  exact if_pos (List.mem_range.mp ha)

end

/-- Settles O21: `readByte_initDone` gives the framebuffer, and what is left is the register writes after the `CLS`. -/
theorem initState : Obligations.InitState := by
  refine fun s => ⟨s.initDone, exec_init s, (exec_framed (exec_init s)).env, fun a ha => ?_, fun a ha => ?_, rfl, rfl, rfl,
    rfl, clear_topview s.initSent, clear_replies s.initSent⟩
  · exact (readByte_initDone s a).trans (if_pos ha)
  · exact (readByte_initDone s a).trans (if_neg (Nat.not_lt.mpr ha))

/-- Settles O22: the events of the `CLS` step are `State.clearEvents` of the state it starts from, which has the `auto_update`
that held on entry. -/
theorem initTrace : Obligations.InitTrace := by
  refine fun s => ⟨s.initDone, s.initSent.clearEvents, exec_init s, emits_initDone s, fun hnone => ?_, fun hone => ?_⟩
  · obtain hnever | ⟨hpolicy, hoff⟩ := hnone
    · simp [State.clearEvents, hnever]
    · simp [State.clearEvents, hpolicy, hoff]
  · have hes : s.initSent.clearEvents = s.initDone.flushEvents := by
      rw [flushEvents_initDone]
      obtain halways | ⟨hpolicy, hon⟩ := hone
      · simp [State.clearEvents, halways]
      · simp [State.clearEvents, hpolicy, hon]
    exact ⟨hes, hes ▸ datBytes_flushEvents_initDone s⟩

/-- Settles O23: V_SHORT clears by policy and `auto_update` is 0 at reset, so the `CLS` of the first `INIT` sends nothing. -/
theorem firstInitOnShortVariant : Obligations.FirstInitOnShortVariant := by
  refine fun draw => ⟨(State.resetOf vShort draw).initDone, exec_init _, ?_, fun a ha => ?_, rfl, rfl, rfl⟩
  · have hcls : (State.resetOf vShort draw).initSent.clearEvents = [] := rfl
    rw [(emits_initDone _).trace, hcls]
    rfl
  · exact (readByte_initDone _ a).trans (if_pos ha)

/-! ## The display modes without a flag -/

/-- Events change the serial port alone (`41_transfer_ops.md` R140). -/
theorem sameCore_emit (s : State) (es : List Event) : SameCore s (s.emit es) :=
  ⟨(framed_emit s es).env, ⟨rfl, rfl⟩, ⟨rfl, rfl, rfl⟩, rfl⟩

/-- Settles O24: each mode is the `emit` of its commands, which keeps the rest (`sameCore_emit`). -/
theorem displayModesSendCommands : Obligations.DisplayModesSendCommands := fun s =>
  ⟨rfl, rfl, rfl, rfl, rfl, rfl, fun es => ⟨sameCore_emit s es, readByte_emit s es, emits_emit s es⟩⟩

/-! ## The orientation modes -/

/-- `topview` is written, commands are sent, then comes one transfer with the column start of the new `topview` (R175). -/
def State.orient (v : Bool) (bs : List Byte) (s : State) : State := ((s.setTopview v).sendCmds bs).flush

theorem exec_dmTopview (s : State) :
    exec .dmTopview s = .next (s.orient true [s.cfg.serCmd.adcNormal, s.cfg.serCmd.comReverse]) := rfl

theorem exec_dmBottom (s : State) :
    exec .dmBottom s = .next (s.orient false [s.cfg.serCmd.adcReverse, s.cfg.serCmd.comNormal]) := rfl

section
variable (s : State) (v : Bool) (bs : List Byte)

/-- The transfer is of the framebuffer and `topview` that the mode leaves, whatever `auto_update` holds. -/
theorem emits_orient : Emits s (s.orient v bs) (bs.map .cmd ++ (s.orient v bs).flushEvents) := by
  have hcmds : Emits s ((s.setTopview v).sendCmds bs) (bs.map .cmd) := ⟨rfl, rfl, rfl⟩
  have hcfg : ((s.setTopview v).sendCmds bs).cfg = s.cfg := rfl
  exact hcmds.trans hcfg (emits_emit _ _)

theorem sameEnv_orient : SameEnv s (s.orient v bs) := ⟨rfl, rfl, rfl, rfl⟩

theorem sameText_orient : SameText s (s.orient v bs) := ⟨rfl, rfl, rfl⟩

theorem sameFb_orient : SameFb s (s.orient v bs) := fun _ => rfl

end

/-- Settles O25: both modes are `State.orient`, whose events `emits_orient` gives. -/
theorem orientationModesTransfer : Obligations.OrientationModesTransfer := fun s =>
  ⟨⟨_, exec_dmTopview s, rfl, sameEnv_orient s _ _, sameText_orient s _ _, sameFb_orient s _ _, rfl, rfl,
      emits_orient s _ _, rfl⟩,
    ⟨_, exec_dmBottom s, rfl, sameEnv_orient s _ _, sameText_orient s _ _, sameFb_orient s _ _, rfl, rfl,
      emits_orient s _ _, rfl⟩⟩

/-! ## The contrast -/

theorem exec_dispmodevContrast (s : State) (value : Byte) : exec (.dispmodevContrast value) s =
    .next (if 64 ≤ value.toNat then s else s.emit [.cmd s.cfg.serCmd.contrast, .cmd (contrastByte value)]) := rfl

/-- Settles O26: the packet is read by the decoder, and the bound of R179 chooses the branch. -/
theorem contrastTwoArgumentForm : Obligations.ContrastTwoArgumentForm := by
  refine fun s value mode => ⟨rfl, fun hsmall => ?_, fun hlarge => ?_, rfl⟩
  · rw [exec_dispmodevContrast, if_neg (Nat.not_le.mpr hsmall)]
    rfl
  · rw [exec_dispmodevContrast, if_pos hlarge]

end Sys2Proof.Machine
end

section
/-! SUPPORT. The lines, settled: the path of the loop of `line`, on which the tie rules agree where no tie occurs
(`44_raster_macros.md` R203 to R205). -/

namespace Sys2Proof.Machine

/-! ## A line and its mirror image -/

/-- The job mirrored in the diagonal: the axes change places, and the error changes its sign. -/
def LineJob.swap (j : LineJob) : LineJob where
  tie := j.tie
  dx := -j.dy
  dy := -j.dx
  sx := j.sy
  sy := j.sx
  x1 := j.y1
  y1 := j.x1

theorem lineStepsX_neg (tie : LineTie) (e2 d : Int) : lineStepsX tie (-e2) (-d) = lineStepsY tie e2 d := by
  cases tie <;> simp [lineStepsX, lineStepsY]

theorem lineStepsY_neg (tie : LineTie) (e2 d : Int) : lineStepsY tie (-e2) (-d) = lineStepsX tie e2 d := by
  cases tie <;> simp [lineStepsX, lineStepsY]

theorem lineLoop_swap (j : LineJob) (n : Nat) (x y err : Int) :
    lineLoop j.swap n y x (-err) = (lineLoop j n x y err).map Prod.swap := by
  induction n generalizing x y err with
  | zero => rfl
  | succ n ih =>
    have hX : lineStepsX j.swap.tie (2 * -err) j.swap.dy = lineStepsY j.tie (2 * err) j.dx := by
      rw [mul_neg]; exact lineStepsX_neg _ _ _
    have hY : lineStepsY j.swap.tie (2 * -err) j.swap.dx = lineStepsX j.tie (2 * err) j.dy := by
      rw [mul_neg]; exact lineStepsY_neg _ _ _
    have hdx : j.swap.dx = -j.dy := rfl
    have hdy : j.swap.dy = -j.dx := rfl
    have hEnd : (y = j.swap.x1 ∧ x = j.swap.y1) ↔ (x = j.x1 ∧ y = j.y1) := and_comm
    simp only [lineLoop, hX, hY, hEnd]
    split_ifs
    · rfl
    all_goals
      rw [List.map_cons, ← ih]
      congr 2
      omega

theorem lineJob_swap (tie : LineTie) (x0 y0 x1 y1 : Int) : (lineJob tie x0 y0 x1 y1).swap = lineJob tie y0 x0 y1 x1 := by
  simp [lineJob, LineJob.swap]

/-- Exchanging the coordinates of the end points exchanges those of every point. -/
theorem linePoints_swap (tie : LineTie) (x0 y0 x1 y1 : Int) :
    linePoints tie y0 x0 y1 x1 = (linePoints tie x0 y0 x1 y1).map Prod.swap := by
  have hlen : lineLength y0 x0 y1 x1 = lineLength x0 y0 x1 y1 := by rw [lineLength, max_comm, lineLength]
  have herr : (lineJob tie y0 x0 y1 x1).dx + (lineJob tie y0 x0 y1 x1).dy =
      -((lineJob tie x0 y0 x1 y1).dx + (lineJob tie x0 y0 x1 y1).dy) := by
    simp only [lineJob]; ring
  simp only [linePoints]
  rw [hlen, herr, ← lineJob_swap, lineLoop_swap]

/-! ## The path along the longer axis -/

/-- The job of a line that is not a point, whose longer axis is `x`. -/
structure LineJob.Flat (j : LineJob) : Prop where
  dx_pos : 0 < j.dx
  dy_nonpos : j.dy ≤ 0
  dy_ge : -j.dx ≤ j.dy
  sx_ne : j.sx ≠ 0

/-- The loop of `line` at `(x, y)` with error `err`, when the end point is `n` steps away in `x` and `v` in `y`: the error is
determined by the distances, it makes the next turn step `x`, and it is bounded so that both distances run out together. -/
structure OnCourse (j : LineJob) (n : Nat) (v x y err : Int) : Prop where
  xLeft : x + n * j.sx = j.x1
  yLeft : y + v * j.sy = j.y1
  yLeft_le : v ≤ -j.dy
  error : err = (1 - n) * j.dy + (1 - v) * j.dx
  stepsX : lineStepsX j.tie (2 * err) j.dy = true
  upper : 2 * err ≤ 3 * j.dx + 2 * j.dy
  diagonal : j.dx = -j.dy → err = 0

theorem dy_le_of_lineStepsX {tie : LineTie} {e2 dy : Int} (h : lineStepsX tie e2 dy = true) : dy ≤ e2 := by
  cases tie <;> simp only [lineStepsX, decide_eq_true_eq] at h <;> omega

section
variable {j : LineJob} {n : Nat} {v x y err : Int}

/-- Where `x` has arrived, so has `y`. -/
theorem OnCourse.arrived (hj : j.Flat) (h : OnCourse j 0 v x y err) : x = j.x1 ∧ y = j.y1 := by
  obtain ⟨hpos, hnonpos, hge, -⟩ := hj
  have herr : err = j.dy + (1 - v) * j.dx := by simpa using h.error
  have hlower := dy_le_of_lineStepsX h.stepsX
  have hupper := h.upper
  have hv0 : 0 ≤ v := by nlinarith
  have hv2 : v < 2 := by nlinarith
  have hv1 : v ≠ 1 := by
    rintro rfl
    have := h.yLeft_le
    omega
  obtain rfl : v = 0 := by omega
  exact ⟨by simpa using h.xLeft, by simpa using h.yLeft⟩

/-- Short of the end point a turn steps `x`, and `y` as the error says, and stays on course. -/
theorem OnCourse.turn (hj : j.Flat) (h : OnCourse j (n + 1) v x y err) : ∃ v' y' err',
    (∀ fuel, lineLoop j (fuel + 1) x y err = (x, y) :: lineLoop j fuel (x + j.sx) y' err') ∧
      OnCourse j n v' (x + j.sx) y' err' := by
  obtain ⟨hpos, hnonpos, hge, hsx⟩ := hj
  obtain ⟨hx, hy, hle, herr, hX, hupper, hdiag⟩ := h
  have hne : ¬(x = j.x1 ∧ y = j.y1) := by
    rintro ⟨hx1, -⟩
    have h0 : ((n + 1 : Nat) : Int) * j.sx = 0 := by linarith
    obtain h0 | h0 := mul_eq_zero.mp h0
    · omega
    · exact hsx h0
  have hx' : x + j.sx + n * j.sx = j.x1 := by rw [← hx]; push_cast; ring
  have hlower := dy_le_of_lineStepsX hX
  cases hY : lineStepsY j.tie (2 * err) j.dx with
  | true =>
    refine ⟨v - 1, y + j.sy, err + j.dy + j.dx, fun fuel => ?_, hx', ?_, by omega, ?_, ?_, ?_, fun hd => ?_⟩
    · simp [lineLoop, hne, hX, hY]
    · rw [← hy]; ring
    · rw [herr]; push_cast; ring
    · cases ht : j.tie <;> simp only [ht, lineStepsX, decide_eq_true_eq] at hX ⊢ <;> omega
    · cases ht : j.tie <;> simp only [ht, lineStepsY, decide_eq_true_eq] at hY <;> omega
    · have := hdiag hd; omega
  | false =>
    refine ⟨v, y, err + j.dy, fun fuel => ?_, hx', hy, hle, ?_, ?_, by omega, fun hd => ?_⟩
    · simp [lineLoop, hne, hX, hY]
    · rw [herr]; push_cast; ring
    · cases ht : j.tie <;> simp only [ht, lineStepsX, lineStepsY, decide_eq_true_eq, decide_eq_false_iff_not] at hY ⊢ <;> omega
    · cases ht : j.tie <;> simp only [ht, lineStepsY, decide_eq_false_iff_not] at hY <;> omega

/-- On course the loop plots one point per step and the end point. -/
theorem OnCourse.length_and_end (hj : j.Flat) (h : OnCourse j n v x y err) :
    (lineLoop j (n + 1) x y err).length = n + 1 ∧ (lineLoop j (n + 1) x y err).getLast? = some (j.x1, j.y1) := by
  induction n generalizing v x y err with
  | zero =>
    obtain ⟨rfl, rfl⟩ := h.arrived hj
    simp [lineLoop_end]
  | succ n ih =>
    obtain ⟨v', y', err', hloop, hnext⟩ := h.turn hj
    obtain ⟨hlen, hlast⟩ := ih hnext
    rw [hloop]
    exact ⟨by rw [List.length_cons, hlen], by rw [List.getLast?_cons, hlast]; rfl⟩

end

/-! ## The points of a line -/

theorem length_and_end_of_flat (tie : LineTie) {x0 y0 x1 y1 : Int} (hflat : (y1 - y0).natAbs ≤ (x1 - x0).natAbs) :
    (linePoints tie x0 y0 x1 y1).length = lineLength x0 y0 x1 y1 ∧
      (linePoints tie x0 y0 x1 y1).getLast? = some (x1, y1) := by
  by_cases hx : x0 = x1
  · obtain rfl : y0 = y1 := by omega
    subst hx
    simp [linePoints_point, lineLength]
  · have hdx : |x1 - x0| = (x1 - x0).natAbs := Int.abs_eq_natAbs _
    have hdy : |y1 - y0| = (y1 - y0).natAbs := Int.abs_eq_natAbs _
    have hlen : lineLength x0 y0 x1 y1 = (x1 - x0).natAbs + 1 := by rw [lineLength, max_eq_left hflat]
    have hj : (lineJob tie x0 y0 x1 y1).Flat := by
      refine ⟨?_, ?_, ?_, ?_⟩ <;> simp only [lineJob, hdx, hdy]
      · omega
      · omega
      · omega
      · split_ifs <;> decide
    have hstart : OnCourse (lineJob tie x0 y0 x1 y1) (x1 - x0).natAbs (y1 - y0).natAbs x0 y0
        ((lineJob tie x0 y0 x1 y1).dx + (lineJob tie x0 y0 x1 y1).dy) := by
      refine ⟨?_, ?_, ?_, ?_, ?_, ?_, ?_⟩ <;> simp only [lineJob, hdx, hdy]
      · split_ifs <;> omega
      · split_ifs <;> omega
      · omega
      · ring
      · cases tie <;> simp only [lineStepsX, decide_eq_true_eq] <;> omega
      · omega
      · omega
    have h := hstart.length_and_end hj
    rw [← hlen] at h
    exact h

/-- A line has the length of R205 (b) and ends at its second end point; a steep line is the mirror image of a flat one. -/
theorem linePoints_length_and_end (tie : LineTie) (x0 y0 x1 y1 : Int) :
    (linePoints tie x0 y0 x1 y1).length = lineLength x0 y0 x1 y1 ∧
      (linePoints tie x0 y0 x1 y1).getLast? = some (x1, y1) := by
  obtain hflat | hsteep := le_total (y1 - y0).natAbs (x1 - x0).natAbs
  · exact length_and_end_of_flat tie hflat
  · obtain ⟨hlen, hlast⟩ := length_and_end_of_flat tie hsteep
    rw [linePoints_swap, List.length_map, List.getLast?_map, hlen, hlast, lineLength, max_comm]
    exact ⟨rfl, rfl⟩

theorem head?_linePoints (tie : LineTie) (x0 y0 x1 y1 : Int) : (linePoints tie x0 y0 x1 y1).head? = some (x0, y0) := rfl

/-- At most 1 apart in each coordinate. -/
def Adjacent (p q : Int × Int) : Prop := |q.1 - p.1| ≤ 1 ∧ |q.2 - p.2| ≤ 1

theorem head?_lineLoop_eq {j : LineJob} {n : Nat} {x y err : Int} {q : Int × Int}
    (h : q ∈ (lineLoop j n x y err).head?) : q = (x, y) := by
  cases n with
  | zero => simp [lineLoop] at h
  | succ n => simpa [lineLoop] using h.symm

theorem lineLoop_isChain {j : LineJob} (hsx : |j.sx| = 1) (hsy : |j.sy| = 1) (n : Nat) (x y err : Int) :
    (lineLoop j n x y err).IsChain Adjacent := by
  induction n generalizing x y err with
  | zero => exact .nil
  | succ n ih =>
    rw [lineLoop]
    split
    · exact .singleton _
    · refine (ih _ _ _).cons fun q hq => ?_
      rw [head?_lineLoop_eq hq]
      constructor <;> dsimp only <;> split_ifs <;> simp [hsx, hsy]

theorem linePoints_isChain (tie : LineTie) (x0 y0 x1 y1 : Int) : (linePoints tie x0 y0 x1 y1).IsChain Adjacent := by
  refine lineLoop_isChain ?_ ?_ _ _ _ _ <;> simp only [lineJob] <;> split_ifs <;> rfl

/-- Neighbours in a chain are related. -/
theorem rel_of_isChain {α : Type} {R : α → α → Prop} {l : List α} (h : l.IsChain R) {k : Nat} {a b : α}
    (ha : l[k]? = some a) (hb : l[k + 1]? = some b) : R a b := by
  obtain ⟨-, rfl⟩ := List.getElem?_eq_some_iff.mp ha
  obtain ⟨hk, rfl⟩ := List.getElem?_eq_some_iff.mp hb
  exact h.getElem k hk

theorem exec_line (s : State) (x0 y0 x1 y1 : Half) (c : Byte) : exec (.line x0 y0 x1 y1 c) s =
    .next (s.drawSync (dotsOf (lit c) (linePoints s.cfg.lineTie x0.toInt y0.toInt x1.toInt y1.toInt))) := rfl

/-- Settles O29: the loop stays on course (`OnCourse`), so the fuel of the model suffices and the line arrives. -/
theorem linePath : Obligations.LinePath := by
  refine ⟨fun tie x0 y0 x1 y1 => ?_, fun s x0 y0 x1 y1 c => draws_of_drawSync (exec_line s x0 y0 x1 y1 c) fun _ _ => .rfl⟩
  obtain ⟨hlen, hlast⟩ := linePoints_length_and_end tie x0 y0 x1 y1
  exact ⟨hlen, head?_linePoints tie x0 y0 x1 y1, hlast, fun _ _ _ hp hq =>
    rel_of_isChain (linePoints_isChain tie x0 y0 x1 y1) hp hq⟩

/-! ## The tie rules -/

/-- With an error that no turn changes and that is no tie, the tie rule has no part in the loop. -/
theorem lineLoop_tie_irrelevant (j : LineJob) {err : Int} (hX : 2 * err ≠ j.dy) (hY : 2 * err ≠ j.dx)
    (hstays : (if j.dy < 2 * err then j.dy else 0) + (if 2 * err < j.dx then j.dx else 0) = 0) (n : Nat) (x y : Int) :
    lineLoop { j with tie := .nonstrict } n x y err = lineLoop { j with tie := .strict } n x y err := by
  have hX' : j.dy ≤ 2 * err ↔ j.dy < 2 * err := by omega
  have hY' : 2 * err ≤ j.dx ↔ 2 * err < j.dx := by omega
  induction n generalizing x y with
  | zero => rfl
  | succ n ih => simp only [lineLoop, lineStepsX, lineStepsY, hX', hY', decide_eq_true_eq, add_assoc, hstays, add_zero, ih]

/-- Settles O30: on each of the three kinds of line the error keeps its first value, which is no tie. -/
theorem lineTieAgreesOnStraightLines : Obligations.LineTieAgreesOnStraightLines := by
  intro x0 y0 x1 y1 h
  by_cases hpoint : x0 = x1 ∧ y0 = y1
  · obtain ⟨rfl, rfl⟩ := hpoint
    rw [linePoints_point, linePoints_point]
  · have hdx : |x1 - x0| = (x1 - x0).natAbs := Int.abs_eq_natAbs _
    have hdy : |y1 - y0| = (y1 - y0).natAbs := Int.abs_eq_natAbs _
    refine lineLoop_tie_irrelevant (lineJob .strict x0 y0 x1 y1) ?_ ?_ ?_ _ x0 y0 <;> simp only [lineJob, hdx, hdy]
    · omega
    · omega
    · split_ifs <;> omega

/-- Settles O31: the point sets of the straight lines. -/
theorem straightLinePixels : Obligations.StraightLinePixels := by
  refine fun s x0 y0 x1 y1 c => ⟨draws_of_drawSync (exec_line s x0 y0 x1 y0 c) fun px py => ?_,
    draws_of_drawSync (exec_line s x0 y0 x0 y1 c) fun px py => ?_,
    draws_of_drawSync (exec_line s x0 y0 x0 y0 c) fun px py => ?_⟩
  · exact (mem_linePoints_row _ _ _ _ (px, py)).symm
  · exact (mem_linePoints_column _ _ _ _ (px, py)).symm
  · rw [linePoints_point, List.mem_singleton, Prod.mk.injEq]

end Sys2Proof.Machine
end

section
/-! SUPPORT. The other shapes, settled: what a drawing call does to the picture, the rectangles, the arc stepper and the four
shapes made with it (`44_raster_macros.md` R206 to R220). -/

namespace Sys2Proof.Machine

/-! ## The picture after a drawing call -/

section
variable {s t : State} {i : Instr} {on : Bool} {P : Int → Int → Prop}

/-- What a drawing call leaves of the picture in the state it completes in. -/
theorem Draws.next (h : Draws s i on P) (ht : exec i s = .next t) : t.cfg = s.cfg ∧
    (∀ px py, inside s.cfg px py = true → P px py → t.getPixel px py = on) ∧
    ∀ px py, ¬P px py → t.getPixel px py = s.getPixel px py := by
  obtain ⟨t', ht', hcore, -, hdrawn, hkept, -⟩ := h
  obtain rfl : t' = t := Host.Outcome.next.inj (ht'.symm.trans ht)
  exact ⟨hcore.env.cfg, hdrawn, hkept⟩

theorem Draws.drawn (h : Draws s i on P) (ht : exec i s = .next t) {px py : Int} (hi : inside s.cfg px py = true)
    (hp : P px py) : t.getPixel px py = on := by
  obtain ⟨-, hdrawn, -⟩ := h.next ht
  exact hdrawn px py hi hp

theorem Draws.kept (h : Draws s i on P) (ht : exec i s = .next t) {px py : Int}
    (hp : ¬(inside s.cfg px py = true ∧ P px py)) : t.getPixel px py = s.getPixel px py := by
  obtain ⟨hcfg, -, hkept⟩ := h.next ht
  cases hi : inside s.cfg px py with
  | true => exact hkept px py fun hP => hp ⟨hi, hP⟩
  | false => rw [getPixel_outside (hcfg ▸ hi), getPixel_outside hi]

/-- On a clear framebuffer the lit pixels are those of the drawing call that are on the display. -/
theorem Draws.lit_iff (h : Draws s i true P) (ht : exec i s = .next t) (hclear : ∀ px py, s.getPixel px py = false)
    (px py : Int) : t.getPixel px py = true ↔ inside s.cfg px py = true ∧ P px py := by
  refine ⟨fun hlit => by_contra fun hp => ?_, fun ⟨hi, hp⟩ => h.drawn ht hi hp⟩
  rw [h.kept ht hp, hclear] at hlit
  exact Bool.false_ne_true hlit

theorem Draws.congr {Q : Int → Int → Prop} (h : Draws s i on P)
    (hPQ : ∀ px py, P px py ↔ Q px py) : Draws s i on Q := by
  obtain rfl : P = Q := funext₂ fun px py => propext (hPQ px py)
  exact h

end

/-! ## Rectangles -/

theorem mem_rectPoints (tie : LineTie) (x0 y0 x1 y1 : Int) (p : Int × Int) :
    p ∈ rectPoints tie x0 y0 x1 y1 ↔
      ((p.2 = y0 ∨ p.2 = y1) ∧ min x0 x1 ≤ p.1 ∧ p.1 ≤ max x0 x1) ∨
      ((p.1 = x0 ∨ p.1 = x1) ∧ min y0 y1 ≤ p.2 ∧ p.2 ≤ max y0 y1) := by
  simp only [rectPoints, List.mem_append, mem_linePoints_row, mem_linePoints_column]
  tauto

theorem exec_rect (s : State) (x0 y0 x1 y1 : Half) (c : Byte) : exec (.rect x0 y0 x1 y1 c) s =
    .next (s.drawSync (dotsOf (lit c) (rectPoints s.cfg.lineTie x0.toInt y0.toInt x1.toInt y1.toInt))) := rfl

theorem exec_fillrect (s : State) (x0 y0 x1 y1 : Half) (c : Byte) : exec (.fillrect x0 y0 x1 y1 c) s =
    .next (s.drawSync (dotsOf (lit c) (fillRectPoints x0.toInt y0.toInt x1.toInt y1.toInt))) := rfl

/-- Settles O32: two horizontal and two vertical lines, each the points between its end points. -/
theorem rectBorderPixels : Obligations.RectBorderPixels := fun s x0 y0 x1 y1 c =>
  draws_of_drawSync (exec_rect s x0 y0 x1 y1 c) fun px py => (mem_rectPoints _ _ _ _ _ (px, py)).symm

/-- Settles O33: the rows between the ordered corners. -/
theorem fillrectPixels : Obligations.FillrectPixels := fun s x0 y0 x1 y1 c =>
  draws_of_drawSync (exec_fillrect s x0 y0 x1 y1 c) fun px py => (mem_fillRectPoints _ _ _ _ (px, py)).symm

/-! ## The arc stepper (R209) -/

/-- The loop of the arc stepper at `(x, y)` with error `err`: the error is that of the next diagonal point, the offset is in
its box, and `x` has not run out before `y` has arrived. -/
structure ArcAt (r x y err : Int) : Prop where
  error : err = (x + 1) ^ 2 + (y + 1) ^ 2 - r ^ 2
  x_ge : -r ≤ x
  x_le : x ≤ 0
  y_ge : 0 ≤ y
  y_le : y ≤ r
  arrives : x = 0 → y = r

/-- From one offset to the next. -/
def ArcStep (a b : Int × Int) : Prop :=
  (b.1 = a.1 ∨ b.1 = a.1 - 1) ∧ (b.2 = a.2 ∨ b.2 = a.2 + 1) ∧ a ≠ b

theorem arcAt_start {r : Int} (hr : 0 ≤ r) : ArcAt r (-r) 0 (2 - 2 * r) where
  error := by ring
  x_ge := le_rfl
  x_le := by omega
  y_ge := le_rfl
  y_le := hr
  arrives := by omega

section
variable {r x y err : Int}

/-- A turn that steps `y` has not arrived at `r`. -/
theorem ArcAt.y_lt (h : ArcAt r x y err) (hY : err ≤ y) : y < r := by
  refine lt_of_le_of_ne h.y_le ?_
  rintro rfl
  have herr := h.error
  have hy0 := h.y_ge
  nlinarith [sq_nonneg (x + 1)]

/-- A turn that steps `y` and `x` at `x = -1` arrives. -/
theorem ArcAt.arrives_of_stepY (h : ArcAt r (-1) y err) (hY : err ≤ y) (hX : err > -1 ∨ err + 2 * (y + 1) + 1 > y + 1) :
    y + 1 = r := by
  have hlt := h.y_lt hY
  obtain ⟨rfl, -, -, hy0, -, -⟩ := h
  by_contra hne
  have hsq : (y + 2) ^ 2 ≤ r ^ 2 := pow_le_pow_left₀ (by omega) (by omega) 2
  obtain hX | hX := hX <;> nlinarith

/-- A turn that does not step `y` at `x = -1` has arrived. -/
theorem ArcAt.arrives_of_not_stepY (h : ArcAt r (-1) y err) (hY : y < err) : y = r := by
  obtain ⟨rfl, -, -, hy0, hyr, -⟩ := h
  by_contra hne
  have hsq : (y + 1) ^ 2 ≤ r ^ 2 := pow_le_pow_left₀ (by omega) (by omega) 2
  nlinarith

/-- At `(0, r)` the loop ends. -/
theorem ArcAt.ends (h : ArcAt r 0 y err) (fuel : Nat) : arcLoop (fuel + 1) 0 y err = [(0, r)] := by
  obtain ⟨herr, -, -, hy0, -, harr⟩ := h
  obtain rfl : y = r := harr rfl
  have hpos : 0 < err := by rw [herr]; nlinarith
  have hY : ¬err ≤ y := by rw [herr]; nlinarith
  simp [arcLoop, hY, hpos]

/-- Before `x = 0` a turn plots its offset, steps `x` or `y` or both by 1, and goes on. -/
theorem ArcAt.turn (h : ArcAt r x y err) (hx : x < 0) : ∃ x' y' err',
    (∀ fuel, arcLoop (fuel + 1) x y err = (-x, y) :: arcLoop fuel x' y' err') ∧ ArcAt r x' y' err' ∧
      (x' = x ∨ x' = x + 1) ∧ (y' = y ∨ y' = y + 1) ∧ (x', y') ≠ (x, y) := by
  have hge := h.x_ge
  have hy0 := h.y_ge
  have herr := h.error
  have hgo : ¬x + 1 > 0 := by omega
  have hstay : ¬x > 0 := by omega
  by_cases hY : err ≤ y
  · have hlt := h.y_lt hY
    by_cases hX : err > x ∨ err + 2 * (y + 1) + 1 > y + 1
    · refine ⟨x + 1, y + 1, err + 2 * (y + 1) + 1 + 2 * (x + 1) + 1, fun fuel => ?_, ⟨?_, by omega, by omega, by omega, by omega,
        fun hx0 => ?_⟩, .inr rfl, .inr rfl, by simp⟩
      · simp only [arcLoop, hY, Bool.or_eq_true, decide_eq_true_eq, if_true, hX, hgo, if_false]
      · rw [herr]; ring
      · obtain rfl : x = -1 := by omega
        exact h.arrives_of_stepY hY hX
    · refine ⟨x, y + 1, err + 2 * (y + 1) + 1, fun fuel => ?_, ⟨?_, hge, h.x_le, by omega, by omega, by omega⟩, .inl rfl,
        .inr rfl, by simp⟩
      · simp only [arcLoop, hY, Bool.or_eq_true, decide_eq_true_eq, if_true, hX, hstay, if_false]
      · rw [herr]; ring
  · have hX : err > x ∨ err > y := .inr (by omega)
    refine ⟨x + 1, y, err + 2 * (x + 1) + 1, fun fuel => ?_, ⟨?_, by omega, by omega, hy0, h.y_le, fun hx0 => ?_⟩, .inr rfl,
      .inl rfl, by simp⟩
    · simp only [arcLoop, hY, Bool.or_eq_true, decide_eq_true_eq, if_true, hX, hgo, if_false]
    · rw [herr]; ring
    · obtain rfl : x = -1 := by omega
      exact h.arrives_of_not_stepY (by omega)

theorem head?_arcLoop {n : Nat} {a : Int × Int} (h : a ∈ (arcLoop n x y err).head?) : a = (-x, y) := by
  cases n with
  | zero => simp [arcLoop] at h
  | succ n => simpa [arcLoop] using h.symm

/-- What the loop plots from a good turn on, with fuel for every step that is left: it arrives at `(0, r)`, stays in the box of
the radius, and moves by `ArcStep`. -/
theorem ArcAt.path (h : ArcAt r x y err) {n : Nat} (hn : r - x - y < n) :
    (arcLoop n x y err).getLast? = some (0, r) ∧ (∀ a ∈ arcLoop n x y err, 0 ≤ a.1 ∧ a.1 ≤ r ∧ 0 ≤ a.2 ∧ a.2 ≤ r) ∧
      (arcLoop n x y err).IsChain ArcStep := by
  induction n generalizing x y err with
  | zero =>
    have hx0 := h.x_le
    have hyr := h.y_le
    omega
  | succ n ih =>
    have hbox : 0 ≤ -x ∧ -x ≤ r ∧ 0 ≤ y ∧ y ≤ r := ⟨neg_nonneg.mpr h.x_le, neg_le.mp h.x_ge, h.y_ge, h.y_le⟩
    obtain hx | rfl := lt_or_eq_of_le h.x_le
    · obtain ⟨x', y', err', hloop, hnext, hx', hy', hne⟩ := h.turn hx
      have hn' : r - x' - y' < n := by
        have : ¬(x' = x ∧ y' = y) := fun he => hne (Prod.ext he.1 he.2)
        omega
      obtain ⟨hlast, hall, hchain⟩ := ih hnext hn'
      rw [hloop]
      refine ⟨by rw [List.getLast?_cons, hlast]; rfl, List.forall_mem_cons.mpr ⟨hbox, hall⟩, hchain.cons fun b hb => ?_⟩
      rw [head?_arcLoop hb]
      refine ⟨by dsimp only; omega, hy', fun he => hne ?_⟩
      rw [Prod.mk.injEq] at he ⊢
      omega
    · rw [h.ends]
      obtain rfl : y = r := h.arrives rfl
      simpa using hbox.2.1

theorem length_arcLoop_le (n : Nat) (x y err : Int) : (arcLoop n x y err).length ≤ n := by
  induction n generalizing x y err with
  | zero => rfl
  | succ n ih =>
    simp only [arcLoop, List.length_cons]
    split_ifs <;> simp [ih]

theorem arcOffsets_path (hr : 0 ≤ r) :
    (arcOffsets r).getLast? = some (0, r) ∧ (∀ a ∈ arcOffsets r, 0 ≤ a.1 ∧ a.1 ≤ r ∧ 0 ≤ a.2 ∧ a.2 ≤ r) ∧
      (arcOffsets r).IsChain ArcStep :=
  (arcAt_start hr).path (by push_cast; omega)

/-- No offset is negative or beyond the radius. -/
theorem arcOffsets_box (hr : 0 ≤ r) {a : Int × Int} (ha : a ∈ arcOffsets r) : 0 ≤ a.1 ∧ a.1 ≤ r ∧ 0 ≤ a.2 ∧ a.2 ≤ r := by
  obtain ⟨-, hbox, -⟩ := arcOffsets_path hr
  exact hbox a ha

theorem head?_arcOffsets (r : Int) : (arcOffsets r).head? = some (r, 0) := by
  simp [arcOffsets, arcLoop]

theorem arcOffsets_zero : arcOffsets 0 = [(0, 0)] := rfl

/-- Settles O34: the loop keeps `ArcAt`, whose last field brings both coordinates home in the same turn. -/
theorem arcShape : Obligations.ArcShape := by
  intro r hr _
  obtain ⟨hlast, hbox, hchain⟩ := arcOffsets_path hr
  exact ⟨head?_arcOffsets r, hlast, length_arcLoop_le _ _ _ _, hbox, fun _ _ _ ha hb => rel_of_isChain hchain ha hb⟩

end

/-! ## Circles -/

theorem mem_circlePoints (x0 y0 r : Int) (p : Int × Int) :
    p ∈ circlePoints x0 y0 r ↔
      ∃ a ∈ arcOffsets r, (p.1 = x0 + a.1 ∨ p.1 = x0 - a.1) ∧ (p.2 = y0 + a.2 ∨ p.2 = y0 - a.2) := by
  simp only [circlePoints, List.mem_flatMap, List.mem_cons, List.not_mem_nil, or_false, Prod.ext_iff]
  exact exists_congr fun a => and_congr_right fun _ => by tauto

/-- The scan lines of an arc run from left to right, since no offset is negative. -/
theorem mem_fillCirclePoints (tie : LineTie) (x0 y0 : Int) {r : Int} (hr : 0 ≤ r) (p : Int × Int) :
    p ∈ fillCirclePoints tie x0 y0 r ↔
      ∃ a ∈ arcOffsets r, x0 - a.1 ≤ p.1 ∧ p.1 ≤ x0 + a.1 ∧ (p.2 = y0 + a.2 ∨ p.2 = y0 - a.2) := by
  simp only [fillCirclePoints, List.mem_flatMap, List.mem_append, mem_linePoints_row]
  refine exists_congr fun a => and_congr_right fun ha => ?_
  have hnonneg := (arcOffsets_box hr ha).1
  omega

theorem exec_circle_refused (s : State) (x0 y0 : Half) {r : Half} (c : Byte) (hr : r.toInt < 0) :
    exec (.circle x0 y0 r c) s = .refused .negativeRadius := if_pos hr

theorem exec_fillcircle_refused (s : State) (x0 y0 : Half) {r : Half} (c : Byte) (hr : r.toInt < 0) :
    exec (.fillcircle x0 y0 r c) s = .refused .negativeRadius := if_pos hr

theorem exec_circle (s : State) (x0 y0 : Half) {r : Half} (c : Byte) (hr : 0 ≤ r.toInt) : exec (.circle x0 y0 r c) s =
    .next (s.drawSync (dotsOf (lit c) (circlePoints x0.toInt y0.toInt r.toInt))) := if_neg (not_lt.mpr hr)

theorem exec_fillcircle (s : State) (x0 y0 : Half) {r : Half} (c : Byte) (hr : 0 ≤ r.toInt) :
    exec (.fillcircle x0 y0 r c) s =
      .next (s.drawSync (dotsOf (lit c) (fillCirclePoints s.cfg.lineTie x0.toInt y0.toInt r.toInt))) := if_neg (not_lt.mpr hr)

/-- The pixels of a circle about `(x0, y0)`. -/
def OnCircle (x0 y0 r px py : Int) : Prop :=
  ∃ a ∈ arcOffsets r, (px = x0 + a.1 ∨ px = x0 - a.1) ∧ (py = y0 + a.2 ∨ py = y0 - a.2)

/-- The pixels of a filled circle about `(x0, y0)`. -/
def InDisc (x0 y0 r px py : Int) : Prop :=
  ∃ a ∈ arcOffsets r, x0 - a.1 ≤ px ∧ px ≤ x0 + a.1 ∧ (py = y0 + a.2 ∨ py = y0 - a.2)

theorem draws_circle (s : State) (x0 y0 : Half) {r : Half} (c : Byte) (hr : 0 ≤ r.toInt) :
    Draws s (.circle x0 y0 r c) (lit c) (OnCircle x0.toInt y0.toInt r.toInt) :=
  draws_of_drawSync (exec_circle s x0 y0 c hr) fun px py => (mem_circlePoints _ _ _ (px, py)).symm

theorem draws_fillcircle (s : State) (x0 y0 : Half) {r : Half} (c : Byte) (hr : 0 ≤ r.toInt) :
    Draws s (.fillcircle x0 y0 r c) (lit c) (InDisc x0.toInt y0.toInt r.toInt) :=
  draws_of_drawSync (exec_fillcircle s x0 y0 c hr) fun px py => (mem_fillCirclePoints _ _ _ hr (px, py)).symm

theorem onCircle_zero (x0 y0 px py : Int) : OnCircle x0 y0 0 px py ↔ px = x0 ∧ py = y0 := by
  simp [OnCircle, arcOffsets_zero]

theorem inDisc_zero (x0 y0 px py : Int) : InDisc x0 y0 0 px py ↔ px = x0 ∧ py = y0 := by
  simp only [InDisc, arcOffsets_zero, List.mem_singleton, exists_eq_left]
  omega

theorem OnCircle.inDisc {x0 y0 r px py : Int} (hr : 0 ≤ r) (h : OnCircle x0 y0 r px py) : InDisc x0 y0 r px py := by
  obtain ⟨a, ha, hx, hy⟩ := h
  have hnonneg := (arcOffsets_box hr ha).1
  exact ⟨a, ha, by omega, by omega, hy⟩

/-- Settles O38: each offset is plotted in its four reflections, and the arc of radius 0 is one offset. -/
theorem circlePixels : Obligations.CirclePixels := fun s x0 y0 _ c =>
  ⟨draws_circle s x0 y0 c, (draws_circle s x0 y0 (r := 0) c le_rfl).congr (onCircle_zero _ _)⟩

/-- Settles O40: the circle is on the ends of the scan lines. -/
theorem fillCirclePixels : Obligations.FillCirclePixels := by
  refine fun s x0 y0 r c => ⟨draws_fillcircle s x0 y0 c, fun t u ht hu px py hchanged => ?_,
    (draws_fillcircle s x0 y0 (r := 0) c le_rfl).congr (inDisc_zero _ _)⟩
  obtain hneg | hr := lt_or_ge r.toInt 0
  · rw [exec_circle_refused s x0 y0 c hneg] at ht
    cases ht
  · obtain ⟨hi, hcircle⟩ : inside s.cfg px py = true ∧ OnCircle x0.toInt y0.toInt r.toInt px py :=
      by_contra fun hp => hchanged ((draws_circle s x0 y0 c hr).kept ht hp)
    exact (draws_fillcircle s x0 y0 c hr).drawn hu hi (hcircle.inDisc hr)

/-! ### The symmetry of a circle (R218) -/

theorem onCircle_reflect {x0 y0 r u v u' v' : Int} (hu : u' = u ∨ u' = -u) (hv : v' = v ∨ v' = -v) :
    OnCircle x0 y0 r (x0 + u) (y0 + v) ↔ OnCircle x0 y0 r (x0 + u') (y0 + v') :=
  exists_congr fun a => and_congr_right fun _ => by omega

/-- A circle that fits on the display has no pixel outside. -/
theorem OnCircle.inside {c : Config} {x0 y0 r px py : Int} (h : OnCircle x0 y0 r px py) (hr : 0 ≤ r) (hl : r ≤ x0)
    (hright : x0 + r < c.w) (ht : r ≤ y0) (hb : y0 + r < c.h) : inside c px py = true := by
  obtain ⟨a, ha, hx, hy⟩ := h
  obtain ⟨hx0, hxr, hy0, hyr⟩ := arcOffsets_box hr ha
  exact (inside_iff c px py).mpr (by omega)

/-- Settles O39: the lit pixels are those of the circle on the display, and reflecting an offset leaves it an offset. -/
theorem circleSymmetry : Obligations.CircleSymmetry := by
  intro s x0 y0 r c hr hc hclear
  have hr0 : 0 ≤ r.toInt := by omega
  have hlit : lit c = true := by simpa [lit] using hc
  have hdraws := hlit ▸ draws_circle s x0 y0 c hr0
  have ⟨t, ht, _⟩ := hdraws
  refine ⟨t, ht, fun hl hright htop hbottom u v => ?_, fun u v u' v' hu hv hi hi' => ?_⟩
  · have hwhole (px py : Int) : t.getPixel px py = true ↔ OnCircle x0.toInt y0.toInt r.toInt px py := by
      rw [hdraws.lit_iff ht hclear]
      exact and_iff_right_of_imp fun h => h.inside hr0 hl hright htop hbottom
    simp only [Bool.eq_iff_iff, hwhole, sub_eq_add_neg]
    exact ⟨onCircle_reflect (.inr rfl) (.inl rfl), onCircle_reflect (.inl rfl) (.inr rfl),
      onCircle_reflect (.inr rfl) (.inr rfl)⟩
  · rw [Bool.eq_iff_iff, hdraws.lit_iff ht hclear, hdraws.lit_iff ht hclear, and_iff_right hi, and_iff_right hi']
    exact onCircle_reflect hu hv

/-! ## Rounded rectangles -/

theorem roundRectOk_iff (x0 y0 x1 y1 rnd : Int) : roundRectOk x0 y0 x1 y1 rnd = true ↔
    x0 ≤ x1 ∧ y0 ≤ y1 ∧ 0 ≤ rnd ∧ 2 * rnd ≤ x1 - x0 ∧ 2 * rnd ≤ y1 - y0 := by
  simp [roundRectOk, and_assoc]

/-- The pixels of a rounded rectangle: its inset edges and its reflected arcs. -/
def OnRoundRect (x0 y0 x1 y1 rnd px py : Int) : Prop :=
  ((py = y0 ∨ py = y1) ∧ x0 + rnd ≤ px ∧ px ≤ x1 - rnd) ∨ ((px = x0 ∨ px = x1) ∧ y0 + rnd ≤ py ∧ py ≤ y1 - rnd) ∨
    ∃ a ∈ arcOffsets rnd, (px = x1 - rnd + a.1 ∨ px = x0 + rnd - a.1) ∧ (py = y1 - rnd + a.2 ∨ py = y0 + rnd - a.2)

/-- The pixels a filled rounded rectangle adds: the band between the rounded bands and the cap rows. -/
def InRoundRect (x0 y0 x1 y1 rnd px py : Int) : Prop :=
  (x0 ≤ px ∧ px ≤ x1 ∧ y0 + rnd ≤ py ∧ py ≤ y1 - rnd) ∨
    ∃ a ∈ arcOffsets rnd, x0 + rnd - a.1 ≤ px ∧ px ≤ x1 - rnd + a.1 ∧ (py = y0 + rnd - a.2 ∨ py = y1 - rnd + a.2)

section
variable {x0 y0 x1 y1 rnd : Int}

theorem mem_roundRectPoints (tie : LineTie) (h : roundRectOk x0 y0 x1 y1 rnd = true) (p : Int × Int) :
    p ∈ roundRectPoints tie x0 y0 x1 y1 rnd ↔ OnRoundRect x0 y0 x1 y1 rnd p.1 p.2 := by
  obtain ⟨-, -, -, hw, hh⟩ := (roundRectOk_iff _ _ _ _ _).mp h
  have harcs : (p ∈ (arcOffsets rnd).flatMap fun a =>
      [(x1 - rnd + a.1, y1 - rnd + a.2), (x0 + rnd - a.1, y1 - rnd + a.2),
       (x0 + rnd - a.1, y0 + rnd - a.2), (x1 - rnd + a.1, y0 + rnd - a.2)]) ↔
      ∃ a ∈ arcOffsets rnd, (p.1 = x1 - rnd + a.1 ∨ p.1 = x0 + rnd - a.1) ∧
        (p.2 = y1 - rnd + a.2 ∨ p.2 = y0 + rnd - a.2) := by
    simp only [List.mem_flatMap, List.mem_cons, List.not_mem_nil, or_false, Prod.ext_iff]
    exact exists_congr fun a => and_congr_right fun _ => by tauto
  have hx : min (x0 + rnd) (x1 - rnd) = x0 + rnd ∧ max (x0 + rnd) (x1 - rnd) = x1 - rnd := by omega
  have hy : min (y0 + rnd) (y1 - rnd) = y0 + rnd ∧ max (y0 + rnd) (y1 - rnd) = y1 - rnd := by omega
  simp only [roundRectPoints, List.mem_append, mem_linePoints_row, mem_linePoints_column, harcs, hx, hy, OnRoundRect,
    or_and_right, or_assoc]

theorem mem_fillRoundRectPoints (tie : LineTie) (h : roundRectOk x0 y0 x1 y1 rnd = true) (p : Int × Int) :
    p ∈ fillRoundRectPoints tie x0 y0 x1 y1 rnd ↔
      OnRoundRect x0 y0 x1 y1 rnd p.1 p.2 ∨ InRoundRect x0 y0 x1 y1 rnd p.1 p.2 := by
  obtain ⟨-, -, hr, hw, -⟩ := (roundRectOk_iff _ _ _ _ _).mp h
  have hcaps : (p ∈ (arcOffsets rnd).flatMap fun a =>
      linePoints tie (x0 + rnd - a.1) (y0 + rnd - a.2) (x1 - rnd + a.1) (y0 + rnd - a.2) ++
      linePoints tie (x0 + rnd - a.1) (y1 - rnd + a.2) (x1 - rnd + a.1) (y1 - rnd + a.2)) ↔
      ∃ a ∈ arcOffsets rnd, x0 + rnd - a.1 ≤ p.1 ∧ p.1 ≤ x1 - rnd + a.1 ∧
        (p.2 = y0 + rnd - a.2 ∨ p.2 = y1 - rnd + a.2) := by
    simp only [List.mem_flatMap, List.mem_append, mem_linePoints_row]
    refine exists_congr fun a => and_congr_right fun ha => ?_
    have hnonneg := (arcOffsets_box hr ha).1
    omega
  rw [fillRoundRectPoints, List.mem_append, List.mem_append, mem_roundRectPoints tie h, mem_gridPoints, hcaps, InRoundRect,
    or_assoc]

end

section
variable (s : State) {x0 y0 x1 y1 rnd : Half} (c : Byte)

theorem exec_roundrect (h : roundRectOk x0.toInt y0.toInt x1.toInt y1.toInt rnd.toInt = true) :
    exec (.roundrect x0 y0 x1 y1 rnd c) s = .next (s.drawSync (dotsOf (lit c)
      (roundRectPoints s.cfg.lineTie x0.toInt y0.toInt x1.toInt y1.toInt rnd.toInt))) := if_pos h

theorem exec_fillrrect (h : roundRectOk x0.toInt y0.toInt x1.toInt y1.toInt rnd.toInt = true) :
    exec (.fillrrect x0 y0 x1 y1 rnd c) s = .next (s.drawSync (dotsOf (lit c)
      (fillRoundRectPoints s.cfg.lineTie x0.toInt y0.toInt x1.toInt y1.toInt rnd.toInt))) := if_pos h

theorem exec_roundrect_refused (h : ¬roundRectOk x0.toInt y0.toInt x1.toInt y1.toInt rnd.toInt = true) :
    exec (.roundrect x0 y0 x1 y1 rnd c) s = .refused .roundRectPrecondition := if_neg h

theorem exec_fillrrect_refused (h : ¬roundRectOk x0.toInt y0.toInt x1.toInt y1.toInt rnd.toInt = true) :
    exec (.fillrrect x0 y0 x1 y1 rnd c) s = .refused .roundRectPrecondition := if_neg h

theorem draws_roundrect (h : roundRectOk x0.toInt y0.toInt x1.toInt y1.toInt rnd.toInt = true) :
    Draws s (.roundrect x0 y0 x1 y1 rnd c) (lit c) (OnRoundRect x0.toInt y0.toInt x1.toInt y1.toInt rnd.toInt) :=
  draws_of_drawSync (exec_roundrect s c h) fun px py => (mem_roundRectPoints _ h (px, py)).symm

theorem draws_fillrrect (h : roundRectOk x0.toInt y0.toInt x1.toInt y1.toInt rnd.toInt = true) :
    Draws s (.fillrrect x0 y0 x1 y1 rnd c) (lit c) fun px py =>
      OnRoundRect x0.toInt y0.toInt x1.toInt y1.toInt rnd.toInt px py ∨
        InRoundRect x0.toInt y0.toInt x1.toInt y1.toInt rnd.toInt px py :=
  draws_of_drawSync (exec_fillrrect s c h) fun px py => (mem_fillRoundRectPoints _ h (px, py)).symm

end

/-- Settles O35: inside the precondition the inset edges run from left to right and from top to bottom. -/
theorem roundRectPixels : Obligations.RoundRectPixels := fun s _ _ _ _ _ c hx hy hr hw hh =>
  draws_roundrect s c ((roundRectOk_iff _ _ _ _ _).mpr ⟨hx, hy, hr, hw, hh⟩)

/-- Settles O36: the border, then what the filling adds. -/
theorem fillRoundRectPixels : Obligations.FillRoundRectPixels := fun s _ _ _ _ _ c hx hy hr hw hh =>
  (draws_fillrrect s c ((roundRectOk_iff _ _ _ _ _).mpr ⟨hx, hy, hr, hw, hh⟩)).congr fun _ _ => by
    rw [OnRoundRect, InRoundRect, or_assoc, or_assoc]

/-- With radius 0 the arcs are the corners, which are on the edges. -/
theorem onRoundRect_zero {x0 y0 x1 y1 : Int} (hx : x0 ≤ x1) (hy : y0 ≤ y1) (px py : Int) :
    OnRoundRect x0 y0 x1 y1 0 px py ↔
      ((py = y0 ∨ py = y1) ∧ x0 ≤ px ∧ px ≤ x1) ∨ ((px = x0 ∨ px = x1) ∧ y0 ≤ py ∧ py ≤ y1) := by
  simp only [OnRoundRect, arcOffsets_zero, List.mem_singleton, exists_eq_left]
  omega

/-- With radius 0 the band is the whole rectangle. -/
theorem inRoundRect_zero {x0 y0 x1 y1 : Int} (hy : y0 ≤ y1) (px py : Int) :
    InRoundRect x0 y0 x1 y1 0 px py ↔ x0 ≤ px ∧ px ≤ x1 ∧ y0 ≤ py ∧ py ≤ y1 := by
  simp only [InRoundRect, arcOffsets_zero, List.mem_singleton, exists_eq_left]
  omega

/-- Settles O37: O35 and O36 at radius 0, where the arcs are the corners. -/
theorem zeroRadiusRectangles : Obligations.ZeroRadiusRectangles := by
  intro s x0 y0 x1 y1 c hx hy
  have hzero : (0 : Half).toInt = 0 := rfl
  have hok : roundRectOk x0.toInt y0.toInt x1.toInt y1.toInt (0 : Half).toInt = true :=
    (roundRectOk_iff _ _ _ _ _).mpr (by omega)
  refine ⟨(draws_roundrect s c hok).congr (onRoundRect_zero hx hy), (draws_fillrrect s c hok).congr fun px py => ?_⟩
  rw [hzero, onRoundRect_zero hx hy, inRoundRect_zero hy]
  omega

/-- Settles O41: the refusals are the other branches of the four preconditions. -/
theorem curvesRefusedOutside : Obligations.CurvesRefusedOutside := by
  refine fun s x0 y0 x1 y1 r c => ⟨fun hneg => ⟨exec_circle_refused s x0 y0 c hneg, exec_fillcircle_refused s x0 y0 c hneg⟩,
    fun hout => ?_⟩
  have hbad : ¬roundRectOk x0.toInt y0.toInt x1.toInt y1.toInt r.toInt = true := by
    rw [roundRectOk_iff]
    omega
  exact ⟨exec_roundrect_refused s c hbad, exec_fillrrect_refused s c hbad⟩

end Sys2Proof.Machine
end

section
/-! SUPPORT. The operations on the text registers, settled: `LOCATE`, `FONT` and the branches of `WRCHAR` (`45_text_macros.md` R231
to R242). -/

namespace Sys2Proof.Machine

/-! ## The text registers -/

@[simp] theorem readByte_setCursor (s : State) (x y : Byte) (a : Nat) : (s.setCursor x y).readByte a = s.readByte a := rfl

@[simp] theorem getPixel_setCursor (s : State) (x y : Byte) (px py : Int) :
    (s.setCursor x y).getPixel px py = s.getPixel px py := rfl

theorem exec_locate (s : State) (x y : Byte) : exec (.locate x y) s = .next (s.setCursor x y) := rfl

theorem exec_font (s : State) (h : Half) : exec (.font h) s = .next (s.setFont h) := rfl

/-- Settles O42: `setCursor` and `setFont` write these fields alone. -/
theorem locateAndFontWriteRegisters : Obligations.LocateAndFontWriteRegisters :=
  fun s x y h => ⟨exec_locate s x y, exec_font s h⟩

/-! ## The branches of `WRCHAR` -/

theorem exec_wrchar_newline {s t : State} (h : s.newline = .ok t) : exec (.wrchar s.cfg.newline) s = .next t := by
  simp only [exec, execWrchar, if_true, h]

theorem exec_wrchar_glyph {s t : State} {v : Byte} (hn : v ≠ s.cfg.newline) (hd : drawable v = true)
    (h : s.putGlyph v = .ok t) : exec (.wrchar v) s = .next t.sync := by
  simp only [exec, execWrchar, if_neg hn, if_pos hd, h]

theorem exec_wrchar_ignored {s : State} {v : Byte} (hn : v ≠ s.cfg.newline) (hd : ¬drawable v = true) :
    exec (.wrchar v) s = .next s := by
  simp only [exec, execWrchar, if_neg hn, if_neg hd]

/-- Settles O44: such a value is in neither of the other branches. -/
theorem wrcharIgnored : Obligations.WrcharIgnored := by
  refine fun s v hn hout => exec_wrchar_ignored hn fun hd => ?_
  obtain ⟨hlow, hhigh⟩ := (drawable_iff v).mp hd
  omega

/-- Settles O43: the newline branch moves the cursor alone (`newline_ok_iff`), to the line of `nextLine_toNat`. -/
theorem wrcharNewline : Obligations.WrcharNewline := by
  intro s gh hgh
  have hnl : s.newline = .ok (s.setCursor 0 (nextLine s.cfg gh s.charY)) := newline_ok_iff.mpr ⟨gh, hgh, rfl⟩
  exact ⟨_, exec_wrchar_newline hnl, (framed_newline hnl).env, ⟨rfl, rfl⟩, ⟨rfl, rfl, rfl⟩, fun _ => rfl, rfl, rfl, rfl,
    nextLine_toNat s.cfg gh s.charY⟩

/-! ## The cursor -/

/-- A new line is on the display. -/
theorem nextLine_lt (c : Config) (gh y : Byte) : (nextLine c gh y).toNat < c.h := by
  have hline := nextLine_toNat c gh y
  obtain ⟨-, -, hh, hp, -, -⟩ := c.wellFormed
  split_ifs at hline <;> omega

/-- After the width wrap the advance by the glyph's width stays in a byte: the glyph fits in the row or starts it. -/
theorem wrapFor_advance {s u : State} {gw : Byte} (h : s.wrapFor gw = .ok u) :
    (u.charX + gw).toNat = u.charX.toNat + gw.toNat := by
  obtain ⟨-, hw, -⟩ := s.cfg.wellFormed
  obtain ⟨hfits, rfl⟩ | ⟨-, gh, -, rfl⟩ := wrapFor_ok_iff.mp h
  · rw [BitVec.toNat_add, Nat.mod_eq_of_lt (by omega)]
  · simp

/-- After the width wrap a glyph no wider than the display ends on it, and the cursor's line is on it. -/
theorem wrapFor_bounded {s u : State} {gw : Byte} (h : s.wrapFor gw = .ok u) (hgw : gw.toNat ≤ s.cfg.w)
    (hy : s.charY.toNat < s.cfg.h) : u.charX.toNat + gw.toNat ≤ s.cfg.w ∧ u.charY.toNat < s.cfg.h := by
  obtain ⟨hfits, rfl⟩ | ⟨-, gh, -, rfl⟩ := wrapFor_ok_iff.mp h
  · exact ⟨hfits, hy⟩
  · exact ⟨by simpa using hgw, nextLine_lt s.cfg gh s.charY⟩

/-- Settles O46: a new line is on the display (`nextLine_lt`), and a glyph advances from where the wrap left it room
(`wrapFor_bounded`). -/
theorem cursorStaysBounded : Obligations.CursorStaysBounded := by
  intro s t v h hx hy hwidth
  obtain ⟨-, hnl⟩ | ⟨-, -, u, hu, rfl⟩ | ⟨-, -, rfl⟩ := exec_wrchar_next h
  · obtain ⟨gh, -, rfl⟩ := newline_ok_iff.mp hnl
    exact ⟨Nat.zero_le _, nextLine_lt s.cfg gh s.charY⟩
  · obtain ⟨bpg, gw, r, h0, hgw, hwrap, hblit⟩ := putGlyph_ok_iff.mp hu
    obtain ⟨gh, bps, dots, -, -, -, rfl⟩ := blitGlyph_ok_iff.mp hblit
    rw [sync_charX, sync_charY, setCursor_charX, setCursor_charY, wrapFor_advance hwrap]
    exact wrapFor_bounded hwrap (hwidth bpg gw h0 hgw) hy
  · exact ⟨hx, hy⟩

/-- Where the width wrap puts the cursor, for a font whose glyph height can be read (R238). -/
theorem wrapFor_of_height {s : State} {gh : Byte} (gw : Byte) (hgh : assetByte? s.cfg s.font 2 = some gh) :
    ∃ cx cy, s.wrapFor gw = .ok (s.setCursor cx cy) ∧
      (s.charX.toNat + gw.toNat ≤ s.cfg.w → cx = s.charX ∧ cy = s.charY) ∧
      (s.cfg.w < s.charX.toNat + gw.toNat → cx = 0 ∧ cy = nextLine s.cfg gh s.charY) := by
  by_cases hfits : s.charX.toNat + gw.toNat ≤ s.cfg.w
  · exact ⟨s.charX, s.charY, wrapFor_ok_iff.mpr (.inl ⟨hfits, rfl⟩), fun _ => ⟨rfl, rfl⟩, fun hwide => by omega⟩
  · exact ⟨0, nextLine s.cfg gh s.charY, wrapFor_ok_iff.mpr (.inr ⟨by omega, gh, hgh, rfl⟩), fun h => absurd h hfits,
      fun _ => ⟨rfl, rfl⟩⟩

/-! ## The cell of a glyph -/

section
variable {s u : State} {v bpg gw gh bps : Byte} {idx : Nat} {dots : List Dot}

theorem glyphDot_ok_iff {cell : Nat × Nat} {d : Dot} : u.glyphDot idx bps cell = .ok d ↔
    ∃ b, assetByte? u.cfg u.font (idx + 1 + (cell.2 * bps.toNat + cell.1 / 8)) = some b ∧
      d = ⟨(u.charX.toNat : Int) + cell.2, (u.charY.toNat : Int) + cell.1, bitOf b (cell.1 % 8)⟩ := by
  unfold State.glyphDot
  cases hb : u.fontByte (idx + 1 + (cell.2 * bps.toNat + cell.1 / 8)) with
  | error e => simp [(fontByte_error_iff.mp hb).1]
  | ok b => simp [fontByte_ok_iff.mp hb, eq_comm]

theorem nodup_glyphCells (gh gw : Byte) : (glyphCells gh gw).Nodup := List.nodup_range.product List.nodup_range

/-- The pixel of the display on which the cursor of `u` puts a cell of the glyph. -/
def State.glyphPlace (u : State) (cell : Nat × Nat) : Int × Int :=
  ((u.charX.toNat : Int) + cell.2, (u.charY.toNat : Int) + cell.1)

theorem glyphPlace_injective (u : State) : Function.Injective u.glyphPlace := by
  rintro ⟨row, column⟩ ⟨row', column'⟩ h
  simpa [State.glyphPlace, and_comm] using h

theorem glyphDot_place {cell : Nat × Nat} {d : Dot} (h : u.glyphDot idx bps cell = .ok d) :
    (d.x, d.y) = u.glyphPlace cell := by
  obtain ⟨b, -, rfl⟩ := glyphDot_ok_iff.mp h
  rfl

/-- The dots of a glyph, drawn: each pixel of the cell that is on the display holds its bit of the strip, and no dot lies
outside the cell (R239). -/
theorem draw_glyph (h : gather (u.glyphDot idx bps) (glyphCells gh gw) = .ok dots) :
    (∀ row < gh.toNat, ∀ column < gw.toNat, ∀ b,
      assetByte? u.cfg u.font (idx + 1 + (column * bps.toNat + row / 8)) = some b →
      inside u.cfg ((u.charX.toNat : Int) + column) ((u.charY.toNat : Int) + row) = true →
      (u.draw dots).getPixel ((u.charX.toNat : Int) + column) ((u.charY.toNat : Int) + row) = bitOf b (row % 8)) ∧
    ∀ d ∈ dots, (u.charX.toNat : Int) ≤ d.x ∧ d.x < (u.charX.toNat : Int) + gw.toNat ∧
      (u.charY.toNat : Int) ≤ d.y ∧ d.y < (u.charY.toNat : Int) + gh.toNat := by
  obtain ⟨hdrawn, hfrom⟩ := draw_gathered h u.glyphPlace (fun _ _ => glyphDot_place)
    ((nodup_glyphCells gh gw).map (glyphPlace_injective u)) u
  refine ⟨fun row hrow column hcol b hb hi => ?_, fun d hd => ?_⟩
  · exact hdrawn (row, column) ((mem_glyphCells gh gw _).mpr ⟨hrow, hcol⟩) _ (glyphDot_ok_iff.mpr ⟨b, hb, rfl⟩) hi
  · obtain ⟨cell, hcell, hdot⟩ := hfrom d hd
    obtain ⟨hrow, hcol⟩ := (mem_glyphCells gh gw cell).mp hcell
    obtain ⟨b, -, rfl⟩ := glyphDot_ok_iff.mp hdot
    dsimp only
    omega

/-- A glyph whose bytes can all be read is printed from where the width wrap leaves the cursor. -/
theorem putGlyph_of_readable (hr : GlyphReadable s v bpg gw gh bps) (hw : s.wrapFor gw = .ok u) :
    ∃ dots, gather (u.glyphDot (glyphIndex v bpg) bps) (glyphCells gh gw) = .ok dots ∧
      s.putGlyph v = .ok ((u.draw dots).setCursor (u.charX + gw) u.charY) := by
  obtain ⟨hcfg, hfont⟩ := wrapFor_same_font hw
  obtain ⟨dots, hdots⟩ : ∃ dots, gather (u.glyphDot (glyphIndex v bpg) bps) (glyphCells gh gw) = .ok dots := by
    refine gather_total fun cell hcell => ?_
    obtain ⟨hrow, hcol⟩ := (mem_glyphCells gh gw cell).mp hcell
    obtain ⟨b, hb⟩ := Option.isSome_iff_exists.mp (hr.hStrips cell.1 hrow cell.2 hcol)
    exact ⟨_, glyphDot_ok_iff.mpr ⟨b, by rwa [hcfg, hfont], rfl⟩⟩
  have hblit := blitGlyph_ok_iff.mpr
    ⟨gh, bps, dots, by rw [hcfg, hfont]; exact hr.hGh, by rw [hcfg, hfont]; exact hr.hBps, hdots, rfl⟩
  exact ⟨dots, hdots, putGlyph_ok_iff.mpr ⟨bpg, gw, u, hr.hBpg, hr.hGw, hw, hblit⟩⟩

end

/-- Settles O45: the wrap places the cursor (`wrapFor_of_height`), the dots of the glyph fill its cell (`draw_glyph`), and the
rest is the frame of the drawing and of its `SYNC`. -/
theorem wrcharGlyph : Obligations.WrcharGlyph := by
  intro s v bpg gw gh bps hn hlow hhigh hr
  obtain ⟨cx, cy, hwrap, hfits, hwide⟩ := wrapFor_of_height gw hr.hGh
  obtain ⟨dots, hdots, hput⟩ := putGlyph_of_readable hr hwrap
  obtain ⟨hcell, hwithin⟩ := draw_glyph hdots
  have hadvance := wrapFor_advance hwrap
  simp only [setCursor_charX, setCursor_charY, setCursor_cfg, setCursor_font] at hput hcell hwithin hadvance
  refine ⟨_, cx.toNat, cy.toNat, exec_wrchar_glyph hn ((drawable_iff v).mpr ⟨hlow, hhigh⟩) hput,
    ((framed_putGlyph hput).trans (framed_sync _)).env, ⟨by simp, by simp⟩, by simp, by simp,
    EndsInSync.syncs ⟨_, drawn_putGlyph hput, rfl⟩, fun h => ?_, fun h => ?_, ?_, by simp,
    fun row hrow column hcol b hb hi => ?_, fun px py hout => ?_, fun a ha => ?_⟩
  · obtain ⟨rfl, rfl⟩ := hfits h
    exact ⟨rfl, rfl⟩
  · obtain ⟨rfl, rfl⟩ := hwide h
    exact ⟨rfl, nextLine_toNat s.cfg gh s.charY⟩
  · rw [sync_charX, setCursor_charX, hadvance, Int.natCast_add]
  · rw [getPixel_sync, getPixel_setCursor]
    exact hcell row hrow column hcol b hb hi
  · rw [getPixel_sync, getPixel_setCursor, getPixel_draw_other, getPixel_setCursor]
    rintro d hd ⟨rfl, rfl⟩
    exact hout (hwithin d hd)
  · rw [readByte_sync, readByte_setCursor, readByte_draw_other, readByte_setCursor]
    exact fun d hd hi => ha d.x d.y (hwithin d hd) hi

end Sys2Proof.Machine
end

section
/-! SUPPORT. `BITMAP`, settled: the dots of a bitmap, drawn on the part of its rectangle that is on the display
(`46_bitmap_macro.md` R251 to R253). -/

namespace Sys2Proof.Machine

/-! ## The dots of a bitmap -/

section
variable {c : Config} {h : Half} {bw bh bs : Byte} {x y : Int}

theorem bitmapDot_ok_iff {cell : Nat × Nat} {d : Dot} : bitmapDot c h bs x y cell = .ok d ↔
    ∃ b, assetByte? c h (3 + cell.1 * bs.toNat + cell.2 / 8) = some b ∧
      d = ⟨x + cell.2, y + cell.1, bitOf b (7 - cell.2 % 8)⟩ := by
  unfold bitmapDot
  cases hb : assetByte c h (3 + cell.1 * bs.toNat + cell.2 / 8) with
  | error e => simp [(assetByte_error_iff.mp hb).1]
  | ok b => simp [assetByte_ok_iff.mp hb, eq_comm]

/-- The loops of `BITMAP` visit each source pixel at most once. -/
theorem nodup_bitmapCells (c : Config) (bw bh : Byte) (x y : Int) : (bitmapCells c bw bh x y).Nodup :=
  (List.nodup_range.sublist (List.takeWhile_sublist _)).product (List.nodup_range.sublist (List.takeWhile_sublist _))

/-- The pixel at which a bitmap with its top left corner at `(x, y)` puts a source pixel (R251). -/
def bitmapPlace (x y : Int) (cell : Nat × Nat) : Int × Int := (x + cell.2, y + cell.1)

theorem bitmapPlace_injective (x y : Int) : Function.Injective (bitmapPlace x y) := by
  rintro ⟨v, u⟩ ⟨v', u'⟩ h
  simpa [bitmapPlace, and_comm] using h

theorem bitmapDot_place {cell : Nat × Nat} {d : Dot} (h : bitmapDot c h bs x y cell = .ok d) :
    (d.x, d.y) = bitmapPlace x y cell := by
  obtain ⟨b, -, rfl⟩ := bitmapDot_ok_iff.mp h
  rfl

/-- A bitmap whose header and visible pixels can be read has its dots. -/
theorem bitmapDots_of_readable (h0 : assetByte? c h 0 = some bw) (h1 : assetByte? c h 1 = some bh)
    (h2 : assetByte? c h 2 = some bs)
    (hr : ∀ v < bh.toNat, ∀ u < bw.toNat, y + v < c.h → x + u < c.w →
      (assetByte? c h (3 + v * bs.toNat + u / 8)).isSome = true) :
    ∃ dots, gather (bitmapDot c h bs x y) (bitmapCells c bw bh x y) = .ok dots ∧ bitmapDots c h x y = .ok dots := by
  obtain ⟨dots, hdots⟩ : ∃ dots, gather (bitmapDot c h bs x y) (bitmapCells c bw bh x y) = .ok dots := by
    refine gather_total fun cell hcell => ?_
    obtain ⟨⟨hv, hyv⟩, hu, hxu⟩ := (mem_bitmapCells c bw bh x y cell).mp hcell
    obtain ⟨b, hb⟩ := Option.isSome_iff_exists.mp (hr cell.1 hv cell.2 hu hyv hxu)
    exact ⟨_, bitmapDot_ok_iff.mpr ⟨b, hb, rfl⟩⟩
  exact ⟨dots, hdots, (bitmapDots_header x y h0 h1 h2).trans hdots⟩

/-- The dots of a bitmap, drawn: each pixel of its rectangle that is on the display holds its source bit, 0 or 1, and no dot
lies outside the rectangle (R253). A pixel on the display is one that the loops visit before they break. -/
theorem draw_bitmap {s : State} {dots : List Dot}
    (hg : gather (bitmapDot s.cfg h bs x y) (bitmapCells s.cfg bw bh x y) = .ok dots) :
    (∀ v < bh.toNat, ∀ u < bw.toNat, ∀ b, assetByte? s.cfg h (3 + v * bs.toNat + u / 8) = some b →
      inside s.cfg (x + u) (y + v) = true → (s.draw dots).getPixel (x + u) (y + v) = bitOf b (7 - u % 8)) ∧
    ∀ d ∈ dots, x ≤ d.x ∧ d.x < x + bw.toNat ∧ y ≤ d.y ∧ d.y < y + bh.toNat := by
  obtain ⟨hdrawn, hfrom⟩ := draw_gathered hg (bitmapPlace x y) (fun _ _ => bitmapDot_place)
    ((nodup_bitmapCells s.cfg bw bh x y).map (bitmapPlace_injective x y)) s
  refine ⟨fun v hv u hu b hb hi => ?_, fun d hd => ?_⟩
  · obtain ⟨-, hxu, -, hyv⟩ := (inside_iff _ _ _).mp hi
    have hvisited : (v, u) ∈ bitmapCells s.cfg bw bh x y :=
      (mem_bitmapCells s.cfg bw bh x y _).mpr ⟨⟨hv, hyv⟩, hu, hxu⟩
    exact hdrawn (v, u) hvisited _ (bitmapDot_ok_iff.mpr ⟨b, hb, rfl⟩) hi
  · obtain ⟨cell, hcell, hdot⟩ := hfrom d hd
    obtain ⟨⟨hv, -⟩, hu, -⟩ := (mem_bitmapCells s.cfg bw bh x y cell).mp hcell
    obtain ⟨b, -, rfl⟩ := bitmapDot_ok_iff.mp hdot
    dsimp only
    omega

end

/-! ## The instruction -/

theorem exec_bitmap_ok {s : State} {h x y : Half} {dots : List Dot}
    (hd : bitmapDots s.cfg h (signed x) (signed y) = .ok dots) : exec (.bitmap h x y) s = .next (s.drawSync dots) := by
  simp only [exec, execBitmap, hd]

theorem sameCore_drawSync (s : State) (dots : List Dot) : SameCore s (s.drawSync dots) where
  env := (framed_drawSync s dots).env
  flags := ⟨by simp [drawSync_eq], by simp [drawSync_eq]⟩
  text := ⟨by simp [drawSync_eq], by simp [drawSync_eq], by simp [drawSync_eq]⟩
  replies := by simp [drawSync_eq]

/-- Settles O49: the visited pixels can be read (`bitmapDots_of_readable`), their dots are the source bits of the rectangle
(`draw_bitmap`), and the rest is the frame of the drawing and of its `SYNC`. -/
theorem bitmapPixels : Obligations.BitmapPixels := by
  intro s h x y bw bh bs h0 h1 h2 hr
  obtain ⟨dots, hgather, hdots⟩ := bitmapDots_of_readable h0 h1 h2 hr
  obtain ⟨hdrawn, hwithin⟩ := draw_bitmap hgather
  refine ⟨_, exec_bitmap_ok hdots, sameCore_drawSync s dots, (endsInSync_drawSync s dots).syncs,
    fun v hv u hu b hb hi => ?_, fun px py hout => ?_, fun a ha => ?_⟩
  · rw [drawSync_eq, getPixel_sync]
    exact hdrawn v hv u hu b hb hi
  · rw [drawSync_eq, getPixel_sync, getPixel_draw_other]
    rintro d hd ⟨rfl, rfl⟩
    exact hout (hwithin d hd)
  · rw [drawSync_eq, readByte_sync, readByte_draw_other]
    exact fun d hd hi => ha d.x d.y (hwithin d hd) hi

end Sys2Proof.Machine
end

section
/-! SUPPORT. Totality and refusals, settled: the operations outside the refusing macros complete, and a refusal names the missing
byte or the precondition that fails (`60_exceptions.md` R260, R264). -/

namespace Sys2Proof.Machine

/-- Settles O54: each arm of `exec` outside the refusing macros answers a next state. -/
theorem coreNeverRefuses : Obligations.CoreNeverRefuses := by
  intro i s hi
  cases i with
  | roundrect | fillrrect | circle | fillcircle | wrchar | textwidth | bitmap => cases hi
  | _ => exact ⟨_, rfl⟩

/-! ## The refusals of the text and bitmap operations -/

theorem missingByte_of_newline {s : State} {e : Refusal} (h : s.newline = .error e) : MissingByte s.cfg s.font e := by
  unfold State.newline at h
  split at h <;> cases h
  next h2 => exact missingByte_of_fontByte h2

theorem missingByte_of_bitmapDots {c : Config} {h : Half} {x y : Int} {e : Refusal}
    (he : bitmapDots c h x y = .error e) : MissingByte c h e := by
  unfold bitmapDots at he
  split at he
  next h0 => cases he; exact missingByte_of_assetByte h0
  split at he
  next h1 => cases he; exact missingByte_of_assetByte h1
  split at he
  next h2 => cases he; exact missingByte_of_assetByte h2
  obtain ⟨cell, -, hd⟩ := gather_error he
  exact missingByte_of_bitmapDot hd

section
variable {s : State} {r : Refusal}

theorem missingByte_of_wrchar_refused {v : Byte} (h : exec (.wrchar v) s = .refused r) : MissingByte s.cfg s.font r := by
  simp only [exec, execWrchar] at h
  split at h
  · split at h <;> cases h
    next hn => exact missingByte_of_newline hn
  · split at h
    · split at h <;> cases h
      next hg => exact missingByte_of_putGlyph hg
    · cases h

theorem missingByte_of_textwidth_refused {str : List Byte} (h : exec (.textwidth str) s = .refused r) :
    MissingByte s.cfg s.font r := by
  simp only [exec, execTextwidth] at h
  split at h <;> cases h
  next hg =>
    obtain ⟨v, -, hv⟩ := gather_error hg
    exact missingByte_of_charWidth hv

theorem missingByte_of_bitmap_refused {a x y : Half} (h : exec (.bitmap a x y) s = .refused r) : MissingByte s.cfg a r := by
  simp only [exec, execBitmap] at h
  split at h <;> cases h
  next hd => exact missingByte_of_bitmapDots hd

/-! ## The refusals of the curved shapes -/

/-- A shape with a precondition is refused only outside it, for the reason of its guard. -/
theorem guard_fails_of_refused {t : State} {e : Refusal} {p : Prop} [Decidable p]
    (h : (if p then .next t else .refused e : Host.Outcome State Fault Refusal) = .refused r) : r = e ∧ ¬p := by
  split at h <;> cases h
  exact ⟨rfl, ‹¬p›⟩

theorem negative_of_circle_refused {x y rad : Half} {c : Byte} {i : Instr}
    (hi : i = .circle x y rad c ∨ i = .fillcircle x y rad c) (h : exec i s = .refused r) :
    r = .negativeRadius ∧ rad.toInt < 0 := by
  rcases hi with rfl | rfl <;>
  · obtain ⟨hr, hneg⟩ := guard_fails_of_refused ((ite_not _ _ _).trans h)
    exact ⟨hr, not_not.mp hneg⟩

theorem outside_of_roundrect_refused {x0 y0 x1 y1 rad : Half} {c : Byte} {i : Instr}
    (hi : i = .roundrect x0 y0 x1 y1 rad c ∨ i = .fillrrect x0 y0 x1 y1 rad c) (h : exec i s = .refused r) :
    r = .roundRectPrecondition ∧
      ¬(x0.toInt ≤ x1.toInt ∧ y0.toInt ≤ y1.toInt ∧ 0 ≤ rad.toInt ∧ 2 * rad.toInt ≤ x1.toInt - x0.toInt ∧
        2 * rad.toInt ≤ y1.toInt - y0.toInt) := by
  rw [← roundRectOk_iff]
  rcases hi with rfl | rfl <;> exact guard_fails_of_refused h

end

/-- Settles O55: an operation outside the refusing macros completes (`coreNeverRefuses`), the text and bitmap operations name a
byte the asset does not have, and the curved shapes fail their guard. -/
theorem refusalsAreTheSpecs : Obligations.RefusalsAreTheSpecs := by
  intro i s r h
  cases hi : mayRefuse i
  case false =>
    obtain ⟨t, ht⟩ := coreNeverRefuses i s hi
    rw [ht] at h
    cases h
  cases i with
  | wrchar v =>
    obtain ⟨k, hk, hr⟩ := missingByte_of_wrchar_refused h
    exact .inl ⟨s.font, k, hr, hk, .inl ⟨v, rfl, rfl⟩⟩
  | textwidth str =>
    obtain ⟨k, hk, hr⟩ := missingByte_of_textwidth_refused h
    exact .inl ⟨s.font, k, hr, hk, .inr (.inl ⟨str, rfl, rfl⟩)⟩
  | bitmap a x y =>
    obtain ⟨k, hk, hr⟩ := missingByte_of_bitmap_refused h
    exact .inl ⟨a, k, hr, hk, .inr (.inr ⟨x, y, rfl⟩)⟩
  | circle x y rad c =>
    obtain ⟨hr, hneg⟩ := negative_of_circle_refused (.inl rfl) h
    exact .inr (.inl ⟨hr, x, y, rad, c, .inl rfl, hneg⟩)
  | fillcircle x y rad c =>
    obtain ⟨hr, hneg⟩ := negative_of_circle_refused (.inr rfl) h
    exact .inr (.inl ⟨hr, x, y, rad, c, .inr rfl, hneg⟩)
  | roundrect x0 y0 x1 y1 rad c =>
    obtain ⟨hr, hout⟩ := outside_of_roundrect_refused (.inl rfl) h
    exact .inr (.inr ⟨hr, x0, y0, x1, y1, rad, c, .inl rfl, hout⟩)
  | fillrrect x0 y0 x1 y1 rad c =>
    obtain ⟨hr, hout⟩ := outside_of_roundrect_refused (.inr rfl) h
    exact .inr (.inr ⟨hr, x0, y0, x1, y1, rad, c, .inr rfl, hout⟩)
  | _ => cases hi

end Sys2Proof.Machine
end
